-- ==== Sys2Proof/Word.lean ====
section
/-! DEFINITION. The word types of the block: bytes of text, 64-bit bus registers, 128-bit values. -/

namespace Sys2Proof

/-- One byte of text (`00_scope.md` R10). -/
abbrev Byte := BitVec 8

/-- One bus register, one command word, one half of a DoubleWidth (`00_scope.md` R6). -/
abbrev Word := BitVec 64

/-- The value of `A`, `B` or `R` (`10_state.md` R21, R22, R24). -/
abbrev DWord := BitVec 128

end Sys2Proof
end

