-- ==== Sys2Proof/Syntax.lean ====
section
/-! DEFINITION. The eleven commands of `30_encoding.md` R90, one constructor per row of the opcode table. -/

namespace Sys2Proof

/-- A command with the fields its format uses (`30_encoding.md` R91, R92): `index` and `scale` are field
S, `precision` is field P. Both are unsigned 8-bit numbers, "used as they stand"; `WellFormed` says so. -/
inductive Instr where
  /-- POW32, `40_power_table.md` R126. -/
  | pow32 (index : Nat)
  /-- POW64, `40_power_table.md` R127. -/
  | pow64 (index : Nat)
  /-- POW128, `40_power_table.md` R128. -/
  | pow128 (index : Nat)
  /-- ADD, `41_double_width_arith.md` R142. -/
  | add
  /-- NEG, `41_double_width_arith.md` R143. -/
  | neg
  /-- MULS, `41_double_width_arith.md` R144. -/
  | muls
  /-- MUL, `41_double_width_arith.md` R145. -/
  | mul
  /-- DEC32, `42_decoder.md` R171. -/
  | dec32 (precision scale : Nat)
  /-- DEC128, `42_decoder.md` R173. -/
  | dec128 (precision scale : Nat)
  /-- ENC32, `43_encoder.md` R198. -/
  | enc32 (scale : Nat)
  /-- ENC128, `43_encoder.md` R199. -/
  | enc128 (scale : Nat)
deriving DecidableEq, Repr

end Sys2Proof
end

