-- ==== Sys2Proof/WellFormed.lean ====
section
/-! DEFINITION. Which terms of `Instr` a command word can hold. -/

namespace Sys2Proof

/-- A value that fits an 8-bit field of the command word (`30_encoding.md` R92: "unsigned 8-bit numbers,
0 to 255"). -/
def fitsField (n : Nat) : Bool := decide (n < 256)

/-- Every field of the command fits its 8 bits. Being in the command's domain (`S ≤ KMAX(W)` and so on)
is NOT asked: such a word is legal and completes with `ParamFault` (`30_encoding.md` R99). -/
def Instr.wellFormed : Instr → Bool
  | .pow32 index => fitsField index
  | .pow64 index => fitsField index
  | .pow128 index => fitsField index
  | .add => true
  | .neg => true
  | .muls => true
  | .mul => true
  | .dec32 precision scale => fitsField precision && fitsField scale
  | .dec128 precision scale => fitsField precision && fitsField scale
  | .enc32 scale => fitsField scale
  | .enc128 scale => fitsField scale

end Sys2Proof
end

