-- ==== Sys2Proof/Decode.lean ====
section
/-! DEFINITION. The command word: its fields, the decoder (total on all 2^64 words, rejecting by name),
and the encoder. -/

namespace Sys2Proof

/-- `OP = w[7:0]` (`30_encoding.md` R91). -/
def fieldOP (w : Word) : Byte := w.extractLsb' 0 8

/-- `S = w[15:8]` (`30_encoding.md` R91, R92). -/
def fieldS (w : Word) : Byte := w.extractLsb' 8 8

/-- `P = w[23:16]` (`30_encoding.md` R91, R92). -/
def fieldP (w : Word) : Byte := w.extractLsb' 16 8

/-- `w[63:24]`, reserved, must be 0 (`30_encoding.md` R91). -/
def fieldReserved (w : Word) : BitVec 40 := w.extractLsb' 24 40

/-- One row of the opcode map (`30_encoding.md` R95): a word selects the row when
`w AND mask = pattern`; `build` makes the command from its fields P and S. -/
structure OpcodeRow where
  mnemonic : String
  mask : Word
  pattern : Word
  build : (p s : Nat) → Instr

/-- Format Z: every bit must match (`30_encoding.md` R91). -/
def maskZ : Word := 0xFFFFFFFFFFFFFFFF

/-- Format S: every bit but the field S must match (`30_encoding.md` R91). -/
def maskS : Word := 0xFFFFFFFFFFFF00FF

/-- Format PS: every bit but the fields S and P must match (`30_encoding.md` R91). -/
def maskPS : Word := 0xFFFFFFFFFF0000FF

/-- The opcode map, `30_encoding.md` R95, in the table's order. -/
def opcodeRows : List OpcodeRow :=
  [ ⟨"POW32", maskS, 0x01, fun _ s => .pow32 s⟩,
    ⟨"POW64", maskS, 0x02, fun _ s => .pow64 s⟩,
    ⟨"POW128", maskS, 0x03, fun _ s => .pow128 s⟩,
    ⟨"ADD", maskZ, 0x10, fun _ _ => .add⟩,
    ⟨"NEG", maskZ, 0x11, fun _ _ => .neg⟩,
    ⟨"MULS", maskZ, 0x12, fun _ _ => .muls⟩,
    ⟨"MUL", maskZ, 0x13, fun _ _ => .mul⟩,
    ⟨"DEC32", maskPS, 0x20, fun p s => .dec32 p s⟩,
    ⟨"DEC128", maskPS, 0x21, fun p s => .dec128 p s⟩,
    ⟨"ENC32", maskS, 0x30, fun _ s => .enc32 s⟩,
    ⟨"ENC128", maskS, 0x31, fun _ s => .enc128 s⟩ ]

/-- "A word w selects the command of a row when `w AND mask = match`" (`30_encoding.md` R91). -/
def OpcodeRow.selects (r : OpcodeRow) (w : Word) : Bool := w &&& r.mask == r.pattern

/-- Why a word is no command, in the cases `30_encoding.md` R99 lists. The block does not report the
case: every one completes with `IllegalCommand` (log entry 15). -/
inductive DecodeError where
  /-- `OP` is none of the eleven assigned values. -/
  | unassignedOpcode
  /-- A bit of 63:24 is set. -/
  | reservedBits
  /-- `P` is not 0 in a format that does not use it. -/
  | unusedP
  /-- `S` is not 0 in a format that does not use it. -/
  | unusedS
deriving DecidableEq, Repr

/-- The first case of `30_encoding.md` R99 that applies to a word that selects no row. -/
def rejection (w : Word) : DecodeError :=
  if !opcodeRows.any (fun r => fieldOP r.pattern == fieldOP w) then .unassignedOpcode
  else if fieldReserved w != 0 then .reservedBits
  else if fieldP w != 0 then .unusedP
  else .unusedS

/-- The decoder: step 1 of `30_encoding.md` R93. -/
def decode (w : Word) : Except DecodeError Instr :=
  match opcodeRows.find? (fun r => r.selects w) with
  | some r => .ok (r.build (fieldP w).toNat (fieldS w).toNat)
  | none => .error (rejection w)

/-- The command word `(p << 16) OR (s << 8) OR op` (`30_encoding.md` R101). -/
def commandWord (op p s : Nat) : Word :=
  (BitVec.ofNat 64 p <<< 16) ||| (BitVec.ofNat 64 s <<< 8) ||| BitVec.ofNat 64 op

/-- The encoder: the word of a well-formed command (`30_encoding.md` R95, R101). -/
def encode : Instr → Word
  | .pow32 index => commandWord 0x01 0 index
  | .pow64 index => commandWord 0x02 0 index
  | .pow128 index => commandWord 0x03 0 index
  | .add => commandWord 0x10 0 0
  | .neg => commandWord 0x11 0 0
  | .muls => commandWord 0x12 0 0
  | .mul => commandWord 0x13 0 0
  | .dec32 precision scale => commandWord 0x20 precision scale
  | .dec128 precision scale => commandWord 0x21 precision scale
  | .enc32 scale => commandWord 0x30 0 scale
  | .enc128 scale => commandWord 0x31 0 scale

/-- The command the decoder reads from a table row's word: `w`'s low `nbits` bits, every bit above
them 0. A command is one 64-bit register value, bit 0 the least significant (`30_encoding.md` R91), so
there is one word and no byte order to choose; a number that does not fit 64 bits is no command word. -/
def decodeTableWord (nbits w : Nat) : Option Instr :=
  if w % 2 ^ nbits < 2 ^ 64 then (decode (BitVec.ofNat 64 (w % 2 ^ nbits))).toOption else none

end Sys2Proof
end

