-- ==== Sys2Proof/Config.lean ====
section
/-! DEFINITION. What an implementation fixes (the parameter LMAX), the fixed sets of widths, and the
free values of the spec. -/

namespace Sys2Proof

/-- The banks of the power-of-ten ROM, one per width 32, 64, 128 (`00_scope.md` R6,
`40_power_table.md` R120). -/
inductive RomBank where
  | w32 | w64 | w128
deriving DecidableEq, Repr

/-- The widths that have a decoder and an encoder; there is no 64-bit codec (`00_scope.md` R5, R6). -/
inductive CodecWidth where
  | w32 | w128
deriving DecidableEq, Repr

/-- The parameter of one block. `LMAX` is a multiple of 8 with `48 ≤ LMAX ≤ 4096` (`00_scope.md` R6,
`92_eei_decisions.md` D9), held as the number of 8-byte blocks above 48, so that a value outside the
constraint cannot be written (`93_implementation_defined.md` U14). Log entry 3. -/
structure Config where
  lmaxBlocks : Fin 507
deriving DecidableEq, Repr

/-- `LMAX`: the size of TBUF in bytes and the longest text a DEC command accepts. -/
def Config.lmax (c : Config) : Nat := 48 + 8 * c.lmaxBlocks.val

/-- The default of `00_scope.md` R6: `LMAX = 256`. -/
def Config.default : Config := ⟨26⟩

/-- Free value (U5, U6, U7): the byte of TBUF at `index` that nothing has written since draw number
`epoch` (`10_state.md` R48, `43_encoder.md` R196). Log entry 4. -/
opaque Config.freeTbufByte (epoch index : Nat) : Byte

/-- Free value (U8): what the `n`-th read of a result register or of TBUF while `BUSY = 1` returns
(`70_reset_and_hazards.md` R258). Log entry 6. -/
opaque Config.freeBusRead (n : Nat) : Word

end Sys2Proof
end

