-- ==== Sys2Proof/Machine/State.lean ====
section
/-! DEFINITION. The state of one DECCONV block as plain data, its outcomes, and the state after reset. -/

namespace Sys2Proof.Machine

/-- "An unsigned 128-bit integer split into two 64-bit words, little-endian in significance
(`value = hi*2^64 + lo`)" (`41_double_width_arith.md` R140). -/
structure DoubleWidth where
  lo : Word
  hi : Word
deriving DecidableEq, Repr

/-- The result codes of `60_exceptions.md` R210. -/
inductive ErrCode where
  | ok | emptyInput | invalidCharacter | integralOverflow | fractionOverflow | illegalCommand | paramFault
deriving DecidableEq, Repr

/-- The fields of `STATUS` that hold something (`10_state.md` R32); its other bits read 0 (R29). -/
structure Status where
  busy : Bool
  done : Bool
  werr : Bool
  err : BitVec 4
deriving DecidableEq, Repr

/-- The fields of `ERRINFO` (`10_state.md` R35). -/
structure ErrInfo where
  pos : BitVec 16
  ord : BitVec 16
  lim : BitVec 8
deriving DecidableEq, Repr

/-- TBUF (`10_state.md` R36): the bytes written since draw number `epoch`, as (index, byte) pairs with
strictly rising indices below LMAX. A byte that is not listed holds the free value
`Config.freeTbufByte epoch index`. Log entry 4. -/
structure Memory where
  epoch : Nat
  cells : List Host.Cell
deriving DecidableEq, Repr

/-- The size of a bus access: 1, 2, 4 or 8 bytes (`20_memory.md` R60, R61). -/
inductive AccessSize where
  | b1 | b2 | b4 | b8
deriving DecidableEq, Repr

/-- One bus access (`20_memory.md` R60). Bits of `v` above the size are ignored (R61). -/
inductive BusAccess where
  | read (off : BitVec 16) (size : AccessSize)
  | write (off : BitVec 16) (size : AccessSize) (v : Word)
deriving DecidableEq, Repr

/-- How the port answered the last host access (`20_memory.md` R60, R61, R66). Log entry 7. -/
inductive BusAnswer where
  /-- `bus_ack = 0`: no access, or one that reset left unanswered (`70_reset_and_hazards.md` R250). -/
  | unanswered
  /-- `bus_ack = 1`, `bus_err = 0`, `bus_rdata = v`. -/
  | data (v : Word)
  /-- `bus_ack = 1`, `bus_err = 0`, a write. A write that is dropped or ignored is answered so too. -/
  | written
  /-- `bus_ack = 1`, `bus_err = 1`; a read returns 0. -/
  | error
deriving DecidableEq, Repr

/-- One turn of an agent (`00_scope.md` R14; log entries 1 and 2). -/
inductive Turn where
  /-- The host makes one bus access. -/
  | host (x : BusAccess)
  /-- The outside drives `rst_n` to a level, `false` being low (`70_reset_and_hazards.md` R250). -/
  | resetPin (level : Bool)
  /-- The engine moves: it completes the command if `BUSY = 1`. -/
  | engine
deriving DecidableEq, Repr

/-- The state of one block: the registers and TBUF of `10_state.md` R20, "and nothing else", then the
model's own fields. -/
structure State where
  /-- Operand register A, `10_state.md` R21. -/
  a : DoubleWidth
  /-- Operand register B, `10_state.md` R22. -/
  b : DoubleWidth
  /-- Small multiplier K, `10_state.md` R23. -/
  k : Word
  /-- Result register R, `10_state.md` R24. -/
  r : DoubleWidth
  /-- `CTRL.IE`, `10_state.md` R31. -/
  ie : Bool
  /-- `STATUS`, `10_state.md` R32. -/
  status : Status
  /-- `CMD`, `10_state.md` R33: the last accepted word. -/
  cmd : Word
  /-- `TLEN`, `10_state.md` R34. -/
  tlen : BitVec 16
  /-- `ERRINFO`, `10_state.md` R35. -/
  errInfo : ErrInfo
  /-- `TBUF`, `10_state.md` R36. -/
  tbuf : Memory
  /-- The model's own: the parameter LMAX of this block; no step changes it. Log entry 3. -/
  cfg : Config
  /-- The model's own: the level of the input `rst_n`. Log entry 8. -/
  rstN : Bool
  /-- The model's own: the answer to the last host access. Log entry 7. -/
  bus : BusAnswer
  /-- The model's own: how many unspecified bus reads have been answered. Log entry 6. -/
  busyReads : Nat
  /-- The model's own: the turns still to come, the next one first. Log entries 1 and 2. -/
  schedule : List Turn
deriving DecidableEq, Repr

/-- Why the machine stops with a fault. The spec says that neither ever happens (`20_memory.md` R69,
`40_power_table.md` R125), so both are safe; that no step answers one is an obligation. The block's own
errors are NOT here: they complete the command and the machine goes on (`60_exceptions.md` R218).
Log entry 10. -/
inductive Fault where
  /-- Raised by the engine's `MemRead` and `MemWrite` at an index that is not below LMAX. Safe: the
  machine stops where the spec gives no byte. -/
  | noTbufByte (index : Nat)
  /-- Raised by the engine's `RomRead` at an index above `KMAX` of the bank (U16). Safe: the machine
  stops where the spec gives no entry. -/
  | noRomEntry (bank : RomBank) (index : Nat)
deriving DecidableEq, Repr

/-- Why the model has no meaning for an instruction. -/
inductive Refusal where
  /-- Raised by an arm of `exec` whose instruction is not modelled yet (no arm is one). Safe: nothing
  can be proved of an instruction that does not run. -/
  | notModelled (mnemonic : String)
deriving DecidableEq, Repr

/-- The arguments of `raise <Error>(pos, ord, lim)` (`00_scope.md` R9). -/
structure Raised where
  code : ErrCode
  pos : Nat
  ord : Nat
  lim : Nat
deriving DecidableEq, Repr

/-- How the evaluation of a command can end early: it raises an error of the block, or it asks a memory
of the engine for something that does not exist. -/
inductive Stop where
  | raise (e : Raised)
  | fault (f : Fault)
deriving DecidableEq, Repr

/-- The value of every register of `10_state.md` R48 that reset clears to 0. -/
def DoubleWidth.zero : DoubleWidth := ⟨0, 0⟩

/-- `ERRINFO` with every field 0 (`10_state.md` R35). -/
def ErrInfo.zero : ErrInfo := ⟨0, 0, 0⟩

/-- The state after reset (`10_state.md` R48), `rst_n` released and no turn to come. Every register
value is the spec's; TBUF lists nothing, so each byte is its free value. The model's own fields have the
values of log entries 1, 3, 4, 6, 7 and 8. -/
def State.reset : State where
  a := DoubleWidth.zero
  b := DoubleWidth.zero
  k := 0
  r := DoubleWidth.zero
  ie := false
  status := ⟨false, false, false, 0⟩
  cmd := 0
  tlen := 0
  errInfo := ErrInfo.zero
  tbuf := ⟨0, []⟩
  cfg := Config.default
  rstN := true
  bus := .unanswered
  busyReads := 0
  schedule := []

end Sys2Proof.Machine
end

