-- ==== Sys2Proof/Machine/Operands.lean ====
section
/-! DEFINITION. What a command's operands are: the values of the 128-bit registers, the operand of each
encoder width, the parameters of each width, and the ROM of powers of ten (unit PTR). -/

namespace Sys2Proof.Machine

/-- `value = hi*2^64 + lo` (`41_double_width_arith.md` R140). -/
def DoubleWidth.value (d : DoubleWidth) : DWord := d.hi ++ d.lo

/-- The two halves of a 128-bit value (`10_state.md` R21). -/
def DoubleWidth.ofValue (v : DWord) : DoubleWidth := ⟨v.extractLsb' 0 64, v.extractLsb' 64 64⟩

/-- `zext_128` of an unsigned number below `2^128` (`00_scope.md` R8). -/
def zext128 (n : Nat) : DoubleWidth := DoubleWidth.ofValue (BitVec.ofNat 128 n)

end Sys2Proof.Machine

namespace Sys2Proof

/-- `KMAX(W)`: the largest index of the bank (`00_scope.md` R6). -/
def RomBank.kmax : RomBank → Nat
  | .w32 => 9
  | .w64 => 19
  | .w128 => 38

/-- The width in bits of the bank's entries (`40_power_table.md` R120). -/
def RomBank.bits : RomBank → Nat
  | .w32 => 32
  | .w64 => 64
  | .w128 => 128

/-- The width W in bits of a decoder or encoder. -/
def CodecWidth.bits : CodecWidth → Nat
  | .w32 => 32
  | .w128 => 128

/-- The bank that a codec of this width reads (`10_state.md` R37). -/
def CodecWidth.bank : CodecWidth → RomBank
  | .w32 => .w32
  | .w128 => .w128

/-- `PMAX(W)`: the largest legal precision (`00_scope.md` R6). -/
def CodecWidth.pmax : CodecWidth → Nat
  | .w32 => 9
  | .w128 => 38

/-- `M = 2^W` (`42_decoder.md` R160). -/
def CodecWidth.modulus (w : CodecWidth) : Nat := 2 ^ w.bits

/-- The largest number of decimal digits of a magnitude: D of `43_encoder.md` R197. -/
def CodecWidth.maxDigits : CodecWidth → Nat
  | .w32 => 10
  | .w128 => 39

/-- `sext_128` of a W-bit result (`42_decoder.md` R165 line 32, R172). -/
def CodecWidth.sext128 (w : CodecWidth) (n : Nat) : Machine.DoubleWidth :=
  Machine.DoubleWidth.ofValue ((BitVec.ofNat w.bits n).signExtend 128)

/-- `A[W-1:0]`, read as an unsigned number: ENC32 ignores bits 127:32 (`30_encoding.md` R92). -/
def CodecWidth.operand (w : CodecWidth) (a : Machine.DoubleWidth) : Nat := a.value.toNat % w.modulus

end Sys2Proof

namespace Sys2Proof.Machine

/-- `RomRead(W, i)`: the number `10^i`, defined only for `0 ≤ i ≤ KMAX(W)` (`40_power_table.md` R120).
The bank is a constant; nothing writes it (R129). -/
def romRead (bank : RomBank) (i : Nat) : Option Nat :=
  if i ≤ bank.kmax then some (10 ^ i) else none

/-- The byte `'-'` (`00_scope.md` R10). -/
def minusByte : Byte := 0x2D

/-- The byte `'.'` (`00_scope.md` R10). -/
def dotByte : Byte := 0x2E

/-- The byte of the digit d, `0x30 + d` (`00_scope.md` R10). -/
def digitByte (d : Nat) : Byte := BitVec.ofNat 8 (0x30 + d)

/-- The digit a byte stands for: bytes 0x30 to 0x39 only (`00_scope.md` R10). -/
def digitOf (c : Byte) : Option Nat :=
  if 0x30 ≤ c.toNat ∧ c.toNat ≤ 0x39 then some (c.toNat - 0x30) else none

end Sys2Proof.Machine
end

