-- ==== Sys2Proof/Machine/Flags.lean ====
section
/-! DEFINITION. The flags: the result codes, `STATUS` and `ERRINFO` as the host reads them, the
write-1-to-clear bits, and the interrupt output. The block has no arithmetic flags (`10_state.md` R27). -/

namespace Sys2Proof.Machine

/-- The number of a result code in `STATUS.ERR` (`60_exceptions.md` R210). -/
def ErrCode.code : ErrCode → BitVec 4
  | .ok => 0
  | .emptyInput => 1
  | .invalidCharacter => 2
  | .integralOverflow => 3
  | .fractionOverflow => 4
  | .illegalCommand => 8
  | .paramFault => 9

/-- `STATUS` as a read returns it: `BUSY` bit 0, `DONE` bit 1, `WERR` bit 2, bit 3 zero, `ERR` bits 7:4,
bits 63:8 zero (`10_state.md` R32, R29). -/
def Status.word (f : Status) : Word :=
  (0 : BitVec 56) ++ f.err ++ (0 : BitVec 1) ++ BitVec.ofBool f.werr ++ BitVec.ofBool f.done ++
    BitVec.ofBool f.busy

/-- A host write of `STATUS`: bits 1 and 2 clear `DONE` and `WERR` where 1; every other written bit is
ignored (`10_state.md` R32). -/
def Status.clearBits (f : Status) (v : Word) : Status :=
  { f with done := f.done && !v.getLsbD 1, werr := f.werr && !v.getLsbD 2 }

/-- `ERRINFO` as a read returns it (`10_state.md` R35, R29). -/
def ErrInfo.word (e : ErrInfo) : Word := (0 : BitVec 24) ++ e.lim ++ e.ord ++ e.pos

/-- What a fault records in `ERRINFO` (`60_exceptions.md` R215): the three numbers at their widths. -/
def Raised.info (e : Raised) : ErrInfo :=
  ⟨BitVec.ofNat 16 e.pos, BitVec.ofNat 16 e.ord, BitVec.ofNat 8 e.lim⟩

/-- `CTRL` as a read returns it (`10_state.md` R31, R29). -/
def ctrlWord (ie : Bool) : Word := (0 : BitVec 63) ++ BitVec.ofBool ie

/-- `TLEN` as a read returns it (`10_state.md` R34, R29). -/
def tlenWord (n : BitVec 16) : Word := (0 : BitVec 48) ++ n

/-- The constant register `ID` (`10_state.md` R30): revision 1, LMAX, "DCNV". -/
def idWord (c : Config) : Word := (0x0001 : BitVec 16) ++ BitVec.ofNat 16 c.lmax ++ (0x44434E56 : BitVec 32)

/-- The interrupt output: `irq = CTRL.IE AND STATUS.DONE` at all times (`60_exceptions.md` R220). -/
def State.irq (s : State) : Bool := s.ie && s.status.done

end Sys2Proof.Machine
end

