-- ==== Sys2Proof/Machine/Ops.lean ====
section
/-! DEFINITION. The named operations on memory and registers: TBUF, the completion of a command, the
fault completion, acceptance, and reset. -/

namespace Sys2Proof.Machine

/-! ## TBUF -/

/-- The byte listed at an index, if one is. -/
def lookupCell : List Host.Cell → Nat → Option Byte
  | [], _ => none
  | (j, c) :: rest, i => if j = i then some c else lookupCell rest i

/-- The list with the byte at an index set, its indices still rising. -/
def setCell : List Host.Cell → Nat → Byte → List Host.Cell
  | [], i, v => [(i, v)]
  | (j, c) :: rest, i, v =>
    if i < j then (i, v) :: (j, c) :: rest
    else if i = j then (i, v) :: rest
    else (j, c) :: setCell rest i v

/-- `TBUF[i]`: the byte written last, or the free value of the current draw (`10_state.md` R48). -/
def Memory.byte (m : Memory) (i : Nat) : Byte :=
  (lookupCell m.cells i).getD (Config.freeTbufByte m.epoch i)

/-- `TBUF[i] <- v`, one byte (`00_scope.md` R9). -/
def Memory.write (m : Memory) (i : Nat) (v : Byte) : Memory := { m with cells := setCell m.cells i v }

/-- Every byte becomes a fresh free draw (`10_state.md` R48, `43_encoder.md` R196). -/
def Memory.redraw (m : Memory) : Memory := ⟨m.epoch + 1, []⟩

/-- The canonical form of TBUF: indices strictly rising and below LMAX. -/
abbrev Memory.wf (m : Memory) (lmax : Nat) : Prop :=
  m.cells.Pairwise (fun x y => x.1 < y.1) ∧ ∀ x ∈ m.cells, x.1 < lmax

/-- `MemRead(i, 1)`, the engine's read of one byte (`20_memory.md` R69). -/
def State.memRead (s : State) (i : Nat) : Except Stop Byte :=
  if i < s.cfg.lmax then .ok (s.tbuf.byte i) else .error (.fault (.noTbufByte i))

/-- `count` bytes from index `i` on, in increasing order, each read once (`20_memory.md` R69). -/
def State.readText (s : State) : (count i : Nat) → Except Stop (List Byte)
  | 0, _ => .ok []
  | count + 1, i =>
    match s.memRead i with
    | .error e => .error e
    | .ok c =>
      match s.readText count (i + 1) with
      | .error e => .error e
      | .ok cs => .ok (c :: cs)

/-- `emit` of a run of bytes: `MemWrite(n, 1, b); n <- n + 1` for each (`00_scope.md` R9,
`20_memory.md` R69). -/
def Memory.emit (lmax : Nat) : Memory → (n : Nat) → List Byte → Except Stop Memory
  | m, _, [] => .ok m
  | m, n, b :: bs =>
    if n < lmax then Memory.emit lmax (m.write n b) (n + 1) bs else .error (.fault (.noTbufByte n))

/-! ## Registers and the completion of a command -/

/-- `R <- v`. -/
def State.setR (s : State) (v : DoubleWidth) : State := { s with r := v }

/-- The writes common to every completion: `STATUS.ERR <- code`, `ERRINFO <- info`,
`STATUS.BUSY <- 0`, `STATUS.DONE <- 1` (`10_state.md` R47). -/
def State.publish (s : State) (code : ErrCode) (info : ErrInfo) : State :=
  { s with
    status := { s.status with busy := false, done := true, err := code.code }
    errInfo := info }

/-- TAKING AN EXCEPTION: the fault completion of `60_exceptions.md` R218. `R <- 0`, the code, the row of
R215, `BUSY <- 0`, `DONE <- 1`, and nothing else. There is no return from it: "nothing to restore"
(R219); the host may clear `DONE` by `Status.clearBits`, and need not. -/
def State.raise (s : State) (e : Raised) : State := (s.setR DoubleWidth.zero).publish e.code e.info

/-- The text an encoder produced: bytes 0 to n-1 of TBUF, `TLEN <- n`, every byte beyond a fresh free
draw (`43_encoder.md` R192 line 11, R196). -/
def State.writeText (s : State) (text : List Byte) : Except Stop State :=
  match Memory.emit s.cfg.lmax s.tbuf.redraw 0 text with
  | .error e => .error e
  | .ok m => .ok { s with tbuf := m, tlen := BitVec.ofNat 16 text.length }

/-- The end of a command's evaluation (`30_encoding.md` R93): on success the destination is written and
`ERR <- 0`, `ERRINFO <- 0`; an error of the block is the fault completion. -/
def State.finish (s : State) : Except Stop State → Host.Outcome State Fault Refusal
  | .ok t => .next (t.publish .ok ErrInfo.zero)
  | .error (.raise e) => .next (s.raise e)
  | .error (.fault f) => .fault f

/-- `raise ParamFault(0,0,0)` (`60_exceptions.md` R217). -/
def paramFault : Stop := .raise ⟨.paramFault, 0, 0, 0⟩

/-! ## The host's side -/

/-- Acceptance of a command (`10_state.md` R46): `CMD <- w`, `BUSY <- 1`, `DONE <- 0`, nothing else. -/
def State.accept (s : State) (w : Word) : State :=
  { s with cmd := w, status := { s.status with busy := true, done := false } }

/-- A write dropped because `BUSY = 1`: only `WERR <- 1` (`70_reset_and_hazards.md` R257). -/
def State.flagWriteError (s : State) : State := { s with status := { s.status with werr := true } }

/-- The answer of the port to a host access. -/
def State.answer (s : State) (x : BusAnswer) : State := { s with bus := x }

/-- One unspecified bus read is answered; the next one is another draw. -/
def State.countBusyRead (s : State) : State := { s with busyReads := s.busyReads + 1 }

/-- Take the next turn off the schedule. -/
def State.withSchedule (s : State) (rest : List Turn) : State := { s with schedule := rest }

/-- `rst_n` low (`70_reset_and_hazards.md` R250, R251): every register at its reset value, TBUF a fresh
draw, a command in flight abandoned, no access answered. LMAX and the turns to come are not the block's
to change. -/
def State.assertReset (s : State) : State :=
  { State.reset with
    tbuf := s.tbuf.redraw
    cfg := s.cfg
    rstN := false
    busyReads := s.busyReads
    schedule := s.schedule }

/-- `rst_n` high: the block goes on from the state it is in (`70_reset_and_hazards.md` R250). -/
def State.releaseReset (s : State) : State := { s with rstN := true }

end Sys2Proof.Machine
end

