-- ==== Sys2Proof/Machine/Bus.lean ====
section
/-! DEFINITION. The host's side of the block: the register map, bus accesses, the port signals, and the
input `rst_n` (`10_state.md` R28, `20_memory.md`, `70_reset_and_hazards.md`). -/

namespace Sys2Proof.Machine

/-- The registers of `10_state.md` R28. -/
inductive BusReg where
  | id | ctrl | status | cmd | aLo | aHi | bLo | bHi | k | rLo | rHi | tlen | errInfo
deriving DecidableEq, Repr

/-- The register map: the register at a byte offset (`10_state.md` R28). -/
def BusReg.atOffset : Nat → Option BusReg
  | 0x0000 => some .id
  | 0x0008 => some .ctrl
  | 0x0010 => some .status
  | 0x0018 => some .cmd
  | 0x0020 => some .aLo
  | 0x0028 => some .aHi
  | 0x0030 => some .bLo
  | 0x0038 => some .bHi
  | 0x0040 => some .k
  | 0x0048 => some .rLo
  | 0x0050 => some .rHi
  | 0x0058 => some .tlen
  | 0x0060 => some .errInfo
  | _ => none

/-- The size in bytes. -/
def AccessSize.bytes : AccessSize → Nat
  | .b1 => 1
  | .b2 => 2
  | .b4 => 4
  | .b8 => 8

/-- The port `bus_size`: 0, 1, 2, 3 for 1, 2, 4, 8 bytes (`20_memory.md` R61). -/
def AccessSize.ofPort (n : BitVec 2) : AccessSize :=
  if n = 0 then .b1 else if n = 1 then .b2 else if n = 2 then .b4 else .b8

/-- The access the input ports `bus_we`, `bus_addr`, `bus_size`, `bus_wdata` ask for (`20_memory.md` R61). -/
def BusAccess.ofPorts (we : Bool) (addr : BitVec 16) (size : BitVec 2) (wdata : Word) : BusAccess :=
  if we then .write addr (.ofPort size) wdata else .read addr (.ofPort size)

/-- The output port `bus_ack` (`20_memory.md` R61). -/
def BusAnswer.ack : BusAnswer → Bool
  | .unanswered => false
  | .data _ => true
  | .written => true
  | .error => true

/-- The output port `bus_err` (`20_memory.md` R61, R66). -/
def BusAnswer.err : BusAnswer → Bool
  | .unanswered => false
  | .data _ => false
  | .written => false
  | .error => true

/-- The output port `bus_rdata` of an answered read (`20_memory.md` R61): a bus error returns 0 (R66); a
write returns no read value. -/
def BusAnswer.rdata : BusAnswer → Option Word
  | .unanswered => none
  | .data v => some v
  | .written => none
  | .error => some 0

/-- `TBUF_BASE` (`00_scope.md` R6). -/
def tbufBase : Nat := 0x1000

/-- What an access reaches. -/
inductive BusTarget where
  | reg (x : BusReg)
  | text (index : Nat)
deriving DecidableEq, Repr

/-- The register map with the size and alignment rules (`10_state.md` R28, `20_memory.md` R63, R64);
`none` is a bus error (R66). -/
def busTarget (c : Config) (off : BitVec 16) (size : AccessSize) : Option BusTarget :=
  if off.toNat < 0x0068 then
    if size = .b8 then (BusReg.atOffset off.toNat).map .reg else none
  else if tbufBase ≤ off.toNat ∧ off.toNat < tbufBase + c.lmax ∧
      (off.toNat - tbufBase) % size.bytes = 0 then
    some (.text (off.toNat - tbufBase))
  else none

/-- Registers whose read is unspecified while `BUSY = 1` (`70_reset_and_hazards.md` R258). -/
def BusReg.unspecifiedWhileBusy : BusReg → Bool
  | .id => false
  | .ctrl => false
  | .status => false
  | .cmd => false
  | .aLo => false
  | .aHi => false
  | .bLo => false
  | .bHi => false
  | .k => false
  | .rLo => true
  | .rHi => true
  | .tlen => true
  | .errInfo => true

/-- Registers whose write is dropped, and sets `WERR`, while `BUSY = 1` (`70_reset_and_hazards.md` R257). -/
def BusReg.lockedWhileBusy : BusReg → Bool
  | .id => false
  | .ctrl => false
  | .status => false
  | .cmd => true
  | .aLo => true
  | .aHi => true
  | .bLo => true
  | .bHi => true
  | .k => true
  | .rLo => false
  | .rHi => false
  | .tlen => true
  | .errInfo => false

/-- What a register reads as (`10_state.md` R29 to R35). -/
def State.readReg (s : State) : BusReg → Word
  | .id => idWord s.cfg
  | .ctrl => ctrlWord s.ie
  | .status => s.status.word
  | .cmd => s.cmd
  | .aLo => s.a.lo
  | .aHi => s.a.hi
  | .bLo => s.b.lo
  | .bHi => s.b.hi
  | .k => s.k
  | .rLo => s.r.lo
  | .rHi => s.r.hi
  | .tlen => tlenWord s.tlen
  | .errInfo => s.errInfo.word

/-- What storing into a register does (`10_state.md` R21 to R35): a read-only register ignores it, a
reserved bit ignores it (R29), `STATUS` clears where the bit is 1, `CMD` accepts a command. -/
def State.writeReg (s : State) (x : BusReg) (v : Word) : State :=
  match x with
  | .id => s
  | .ctrl => { s with ie := v.getLsbD 0 }
  | .status => { s with status := s.status.clearBits v }
  | .cmd => s.accept v
  | .aLo => { s with a := { s.a with lo := v } }
  | .aHi => { s with a := { s.a with hi := v } }
  | .bLo => { s with b := { s.b with lo := v } }
  | .bHi => { s with b := { s.b with hi := v } }
  | .k => { s with k := v }
  | .rLo => s
  | .rHi => s
  | .tlen => { s with tlen := v.extractLsb' 0 16 }
  | .errInfo => s

/-- `count` bytes of TBUF from index i on as one number, the lowest index least significant
(`20_memory.md` R62). -/
def Memory.readPacked (m : Memory) : (i count : Nat) → Nat
  | _, 0 => 0
  | i, count + 1 => (m.byte i).toNat + 256 * m.readPacked (i + 1) count

/-- The low `count` bytes of a number stored from index i on, the lowest index least significant
(`20_memory.md` R62). -/
def Memory.writePacked (m : Memory) : (i count v : Nat) → Memory
  | _, 0, _ => m
  | i, count + 1, v => (m.write i (BitVec.ofNat 8 v)).writePacked (i + 1) count (v / 256)

/-- An unspecified read of `bytes` bytes: a free draw, below `2^(8·bytes)` (`70_reset_and_hazards.md`
R258, `20_memory.md` R61). -/
def State.unspecifiedRead (s : State) (bytes : Nat) : State :=
  s.countBusyRead.answer
    (.data (BitVec.ofNat 64 ((Config.freeBusRead s.busyReads).toNat % 2 ^ (8 * bytes))))

/-- `HostRead(off, n)` (`20_memory.md` R60, R63 to R66, `70_reset_and_hazards.md` R258). -/
def State.hostRead (s : State) (off : BitVec 16) (size : AccessSize) : State :=
  match busTarget s.cfg off size with
  | none => s.answer .error
  | some (.reg x) =>
    if s.status.busy && x.unspecifiedWhileBusy then s.unspecifiedRead size.bytes
    else s.answer (.data (s.readReg x))
  | some (.text i) =>
    if s.status.busy then s.unspecifiedRead size.bytes
    else s.answer (.data (BitVec.ofNat 64 (s.tbuf.readPacked i size.bytes)))

/-- `HostWrite(off, n, v)` (`20_memory.md` R60, R63 to R66, `70_reset_and_hazards.md` R257). -/
def State.hostWrite (s : State) (off : BitVec 16) (size : AccessSize) (v : Word) : State :=
  match busTarget s.cfg off size with
  | none => s.answer .error
  | some (.reg x) =>
    if s.status.busy && x.lockedWhileBusy then s.flagWriteError.answer .written
    else (s.writeReg x v).answer .written
  | some (.text i) =>
    if s.status.busy then s.flagWriteError.answer .written
    else { s with tbuf := s.tbuf.writePacked i size.bytes v.toNat }.answer .written

/-- One access of the host. While `rst_n` is low it is not answered and does nothing
(`70_reset_and_hazards.md` R250; log entry 8). -/
def State.busAccess (s : State) (x : BusAccess) : State :=
  if s.rstN then
    match x with
    | .read off size => s.hostRead off size
    | .write off size v => s.hostWrite off size v
  else s.answer .unanswered

/-- The outside drives `rst_n` (`70_reset_and_hazards.md` R250). -/
def State.drivePin (s : State) (level : Bool) : State := if level then s.releaseReset else s.assertReset

end Sys2Proof.Machine
end

