-- ==== Sys2Proof/Machine/Dec.lean ====
section
/-! DEFINITION. The commands of unit DEC: DEC32, DEC128 (`42_decoder.md`). The comments name the lines of
the normative pseudocode, R165. -/

namespace Sys2Proof.Machine

/-- The working registers of the integral scan (`10_state.md` R40). -/
structure IntegralScan where
  pos : Nat
  icount : Nat
  integral : Nat
deriving DecidableEq, Repr

/-- The working registers of the fractional scan (`10_state.md` R40). -/
structure FractionScan where
  pos : Nat
  frac : Nat
  scount : Nat
  meaningful : Nat
deriving DecidableEq, Repr

/-- Lines 6 to 17: the integral scan. It ends at the end of the text or after the first `'.'`, and
delivers the bytes that are left, the fractional substring. -/
def scanIntegral (w : CodecWidth) (budget : Nat) :
    List Byte → IntegralScan → Except Stop (IntegralScan × List Byte)
  | [], st => .ok (st, [])
  | c :: cs, st =>
    if c = dotByte then .ok ({ st with pos := st.pos + 1 }, cs)
    else
      match digitOf c with
      | none => .error (.raise ⟨.invalidCharacter, st.pos, 0, 0⟩)
      | some d =>
        if d = 0 ∧ st.icount = 0 then scanIntegral w budget cs { st with pos := st.pos + 1 }
        else if budget < st.icount + 1 then
          .error (.raise ⟨.integralOverflow, st.pos, st.icount + 1, budget⟩)
        else scanIntegral w budget cs ⟨st.pos + 1, st.icount + 1, (st.integral * 10 + d) % w.modulus⟩

/-- Lines 19 to 29: the fractional scan, with the zeros deferred (R167) and the count checked before
`pow[meaningful]` is read (R178). -/
def scanFraction (w : CodecWidth) (scale : Nat) : List Byte → FractionScan → Except Stop FractionScan
  | [], st => .ok st
  | c :: cs, st =>
    match digitOf c with
    | none => .error (.raise ⟨.invalidCharacter, st.pos, 0, 0⟩)
    | some d =>
      if d = 0 then
        scanFraction w scale cs { st with pos := st.pos + 1, meaningful := st.meaningful + 1 }
      else if scale < st.scount + st.meaningful then
        .error (.raise ⟨.fractionOverflow, st.pos, st.scount + st.meaningful, scale⟩)
      else
        match romRead w.bank st.meaningful with
        | none => .error (.fault (.noRomEntry w.bank st.meaningful))
        | some p =>
          scanFraction w scale cs
            ⟨st.pos + 1, (st.frac * p + d) % w.modulus, st.scount + st.meaningful, 1⟩

/-- Lines 30 and 31: compose and sign (R169, R170). -/
def composeResult (w : CodecWidth) (scale : Nat) (neg : Bool) (integral : Nat) (f : FractionScan) :
    Except Stop Nat :=
  match romRead w.bank scale, romRead w.bank (scale - f.scount) with
  | some pS, some pPad =>
    let result := (integral * pS + f.frac * pPad) % w.modulus
    .ok (if neg then (w.modulus - result) % w.modulus else result)
  | none, _ => .error (.fault (.noRomEntry w.bank scale))
  | some _, none => .error (.fault (.noRomEntry w.bank (scale - f.scount)))

/-- Lines 5 to 31, once the sign byte is past: `pos` is the index of the first byte of `body`. -/
def decodeBody (w : CodecWidth) (precision scale : Nat) (neg : Bool) (pos : Nat) (body : List Byte) :
    Except Stop Nat :=
  match scanIntegral w (precision - scale) body ⟨pos, 0, 0⟩ with
  | .error e => .error e
  | .ok (st, rest) =>
    match scanFraction w scale rest ⟨st.pos, 0, 0, 1⟩ with
    | .error e => .error e
    | .ok f => composeResult w scale neg st.integral f

/-- Lines 1 to 31 of `DEC_W(P, S)` on a text (`42_decoder.md` R165): the W-bit result as an unsigned
number, or the error. -/
def decodeText (w : CodecWidth) (precision scale : Nat) : List Byte → Except Stop Nat
  | [] => .error (.raise ⟨.emptyInput, 0, 0, 0⟩)
  | c :: cs =>
    if c = minusByte then decodeBody w precision scale true 1 cs
    else decodeBody w precision scale false 0 (c :: cs)

/-- A DEC command: the domain check, before any byte is read (`42_decoder.md` R161), the text
`TBUF[0..TLEN-1]`, the algorithm, and line 32, `R <- sext_128(result)`. -/
def decCommand (w : CodecWidth) (precision scale : Nat) (s : State) : Except Stop State :=
  if precision < scale ∨ w.pmax < precision ∨ s.cfg.lmax < s.tlen.toNat then .error paramFault
  else
    match s.readText s.tlen.toNat 0 with
    | .error e => .error e
    | .ok text =>
      match decodeText w precision scale text with
      | .error e => .error e
      | .ok result => .ok (s.setR (w.sext128 result))

/-- DEC32, `42_decoder.md` R171, R172. -/
def execDec32 (precision scale : Nat) (s : State) : Host.Outcome State Fault Refusal :=
  s.finish (decCommand .w32 precision scale s)

/-- DEC128, `42_decoder.md` R173. -/
def execDec128 (precision scale : Nat) (s : State) : Host.Outcome State Fault Refusal :=
  s.finish (decCommand .w128 precision scale s)

end Sys2Proof.Machine
end

