-- ==== Sys2Proof/Machine/Dwa.lean ====
section
/-! DEFINITION. The commands of unit DWA: ADD, NEG, MULS, MUL (`41_double_width_arith.md`). Each result
is exact modulo 2^128, no flag, no fault (R140). -/

namespace Sys2Proof.Machine

/-- `(a + b) mod 2^128` (`41_double_width_arith.md` R142). -/
def dwAdd (a b : DoubleWidth) : DoubleWidth := DoubleWidth.ofValue (a.value + b.value)

/-- `(~a + 1) mod 2^128` (`41_double_width_arith.md` R143). -/
def dwNeg (a : DoubleWidth) : DoubleWidth := DoubleWidth.ofValue (~~~a.value + 1)

/-- `(a * k) mod 2^128`, k an unsigned 64-bit number (`41_double_width_arith.md` R144). -/
def dwMulSmall (a : DoubleWidth) (k : Word) : DoubleWidth := DoubleWidth.ofValue (a.value * k.setWidth 128)

/-- `(a * b) mod 2^128` (`41_double_width_arith.md` R145). -/
def dwMul (a b : DoubleWidth) : DoubleWidth := DoubleWidth.ofValue (a.value * b.value)

/-- ADD, `41_double_width_arith.md` R142. -/
def execAdd (s : State) : Host.Outcome State Fault Refusal := s.finish (.ok (s.setR (dwAdd s.a s.b)))

/-- NEG, `41_double_width_arith.md` R143. -/
def execNeg (s : State) : Host.Outcome State Fault Refusal := s.finish (.ok (s.setR (dwNeg s.a)))

/-- MULS, `41_double_width_arith.md` R144. -/
def execMuls (s : State) : Host.Outcome State Fault Refusal := s.finish (.ok (s.setR (dwMulSmall s.a s.k)))

/-- MUL, `41_double_width_arith.md` R145. -/
def execMul (s : State) : Host.Outcome State Fault Refusal := s.finish (.ok (s.setR (dwMul s.a s.b)))

/-! ## The half-by-half form of R147

The unit at the level of its two 64-bit halves; the meanings above do not use it, and an obligation says
that the two agree. -/

/-- ADD by halves: the carry out of the low sum goes into the high sum (`41_double_width_arith.md` R147). -/
def halvesAdd (a b : DoubleWidth) : DoubleWidth :=
  let sum := a.lo.toNat + b.lo.toNat
  ⟨BitVec.ofNat 64 (sum % 2 ^ 64), BitVec.ofNat 64 ((a.hi.toNat + b.hi.toNat + sum / 2 ^ 64) % 2 ^ 64)⟩

/-- NEG by halves: a carry into the high half exactly when the low half is 0
(`41_double_width_arith.md` R147). -/
def halvesNeg (a : DoubleWidth) : DoubleWidth :=
  let carry := if a.lo.toNat = 0 then 1 else 0
  ⟨BitVec.ofNat 64 ((2 ^ 64 - a.lo.toNat) % 2 ^ 64),
   BitVec.ofNat 64 ((2 ^ 64 - 1 - a.hi.toNat + carry) % 2 ^ 64)⟩

/-- MULS by halves (`41_double_width_arith.md` R147). -/
def halvesMulSmall (a : DoubleWidth) (k : Word) : DoubleWidth :=
  let p := a.lo.toNat * k.toNat
  ⟨BitVec.ofNat 64 (p % 2 ^ 64), BitVec.ofNat 64 ((p / 2 ^ 64 + a.hi.toNat * k.toNat) % 2 ^ 64)⟩

/-- MUL by halves: the term `ah*bh*2^128` vanishes (`41_double_width_arith.md` R147). -/
def halvesMul (a b : DoubleWidth) : DoubleWidth :=
  let p := a.lo.toNat * b.lo.toNat
  ⟨BitVec.ofNat 64 (p % 2 ^ 64),
   BitVec.ofNat 64 ((p / 2 ^ 64 + a.hi.toNat * b.lo.toNat + a.lo.toNat * b.hi.toNat) % 2 ^ 64)⟩

end Sys2Proof.Machine
end

