-- ==== Sys2Proof/Machine/Enc.lean ====
section
/-! DEFINITION. The commands of unit ENC: ENC32, ENC128 (`43_encoder.md`). The comments name the lines of
the normative pseudocode, R192. Digits are numbers 0 to 9 until they are emitted. -/

namespace Sys2Proof.Machine

/-- The lowest `count` decimal digits of a number, most significant first, zero-padded on the left
(line 8). -/
def paddedDigits : (count n : Nat) → List Nat
  | 0, _ => []
  | count + 1, n => paddedDigits count (n / 10) ++ [n % 10]

/-- Digits without their leading zeros; none left means the single digit 0 (line 5). -/
def dropLeadingZeros : List Nat → List Nat
  | [] => [0]
  | d :: ds => if d = 0 then dropLeadingZeros ds else d :: ds

/-- Digits without their trailing zeros (lines 9 and 10). -/
def dropTrailingZeros : List Nat → List Nat
  | [] => []
  | d :: ds =>
    match dropTrailingZeros ds with
    | [] => if d = 0 then [] else [d]
    | e :: es => d :: e :: es

/-- Line 5: the decimal digits of `q`, no leading zeros, one `0` for zero. -/
def integralDigits (w : CodecWidth) (q : Nat) : List Nat := dropLeadingZeros (paddedDigits w.maxDigits q)

/-- Lines 6 to 10: the fractional digits that are printed, none when the remainder is 0. -/
def fractionDigits (scale r : Nat) : List Nat := dropTrailingZeros (paddedDigits scale r)

/-- Line 2: bit W-1 of the operand, its sign (`43_encoder.md` R193). -/
def isNegative (w : CodecWidth) (v : Nat) : Bool := v.testBit (w.bits - 1)

/-- Lines 2 and 3: the magnitude, the negation read as an unsigned number (`43_encoder.md` R193, R200). -/
def magnitude (w : CodecWidth) (v : Nat) : Nat :=
  if isNegative w v then (w.modulus - v) % w.modulus else v

/-- Lines 6 to 10: the bytes after the integral part. -/
def fractionText (scale r : Nat) : List Byte :=
  if scale ≠ 0 ∧ r ≠ 0 then dotByte :: (fractionDigits scale r).map digitByte else []

/-- Lines 1 to 10 of `ENC_W(S)` on a W-bit operand, given as an unsigned number below `2^W`: the bytes
emitted, in order. The division is the exact unsigned one (`43_encoder.md` R193). -/
def encodeText (w : CodecWidth) (scale v : Nat) : Except Stop (List Byte) :=
  match romRead w.bank scale with
  | none => .error (.fault (.noRomEntry w.bank scale))
  | some p =>
    .ok ((if isNegative w v then [minusByte] else []) ++
      (integralDigits w (magnitude w v / p)).map digitByte ++ fractionText scale (magnitude w v % p))

/-- An ENC command: the domain check (`43_encoder.md` R191), the algorithm, the text to TBUF and TLEN. -/
def encCommand (w : CodecWidth) (scale : Nat) (s : State) : Except Stop State :=
  if w.bank.kmax < scale then .error paramFault
  else
    match encodeText w scale (w.operand s.a) with
    | .error e => .error e
    | .ok text => s.writeText text

/-- ENC32, `43_encoder.md` R198. -/
def execEnc32 (scale : Nat) (s : State) : Host.Outcome State Fault Refusal :=
  s.finish (encCommand .w32 scale s)

/-- ENC128, `43_encoder.md` R199. -/
def execEnc128 (scale : Nat) (s : State) : Host.Outcome State Fault Refusal :=
  s.finish (encCommand .w128 scale s)

end Sys2Proof.Machine
end

