-- ==== Sys2Proof/Machine/Ptr.lean ====
section
/-! DEFINITION. The commands of unit PTR: POW32, POW64, POW128 (`40_power_table.md`). -/

namespace Sys2Proof.Machine

/-- Entry `index` of a bank, zero-extended into `R`; `ParamFault` above `KMAX` (`30_encoding.md` R93,
`40_power_table.md` R126 to R128). -/
def powCommand (bank : RomBank) (index : Nat) (s : State) : Except Stop State :=
  if bank.kmax < index then .error paramFault
  else
    match romRead bank index with
    | none => .error (.fault (.noRomEntry bank index))
    | some entry => .ok (s.setR (zext128 entry))

/-- POW32, `40_power_table.md` R126. -/
def execPow32 (index : Nat) (s : State) : Host.Outcome State Fault Refusal :=
  s.finish (powCommand .w32 index s)

/-- POW64, `40_power_table.md` R127. -/
def execPow64 (index : Nat) (s : State) : Host.Outcome State Fault Refusal :=
  s.finish (powCommand .w64 index s)

/-- POW128, `40_power_table.md` R128. -/
def execPow128 (index : Nat) (s : State) : Host.Outcome State Fault Refusal :=
  s.finish (powCommand .w128 index s)

end Sys2Proof.Machine
end

