-- ==== Sys2Proof/Machine/Dispatch.lean ====
section
/-! DEFINITION. exec: one arm per command, each one call of its meaning. -/

namespace Sys2Proof.Machine

-- The completion of a legal command (10_state.md R47, 30_encoding.md R93).
def exec (i : Instr) (s : State) : Host.Outcome State Fault Refusal :=
  match i with
  | .pow32 index => Sys2Proof.Machine.execPow32 index s
  | .pow64 index => Sys2Proof.Machine.execPow64 index s
  | .pow128 index => Sys2Proof.Machine.execPow128 index s
  | .add => Sys2Proof.Machine.execAdd s
  | .neg => Sys2Proof.Machine.execNeg s
  | .muls => Sys2Proof.Machine.execMuls s
  | .mul => Sys2Proof.Machine.execMul s
  | .dec32 precision scale => Sys2Proof.Machine.execDec32 precision scale s
  | .dec128 precision scale => Sys2Proof.Machine.execDec128 precision scale s
  | .enc32 scale => Sys2Proof.Machine.execEnc32 scale s
  | .enc128 scale => Sys2Proof.Machine.execEnc128 scale s

end Sys2Proof.Machine
end

