-- ==== Sys2Proof/Machine/Engine.lean ====
section
/-! DEFINITION. The engine's completion step, and the turn of each agent. -/

namespace Sys2Proof.Machine

/-- `raise IllegalCommand(0,0,0)` (`60_exceptions.md` R216). -/
def illegalCommand : Raised := ⟨.illegalCommand, 0, 0, 0⟩

/-- The completion step (`10_state.md` R47): evaluate the word in `CMD` (`30_encoding.md` R93); a word
that is no command is the fault `IllegalCommand`. -/
def complete (s : State) : Host.Outcome State Fault Refusal :=
  match decode s.cmd with
  | .ok i => exec i s
  | .error _ => .next (s.raise illegalCommand)

/-- The engine's turn: "enabled exactly when `STATUS.BUSY = 1`" (`00_scope.md` R14); an idle block keeps
all its state (`60_exceptions.md` R235). -/
def engineTurn (s : State) : Host.Outcome State Fault Refusal :=
  if s.status.busy then complete s else .next s

/-- One turn (`00_scope.md` R14). -/
def takeTurn (t : Turn) (s : State) : Host.Outcome State Fault Refusal :=
  match t with
  | .host x => .next (s.busAccess x)
  | .resetPin level => .next (s.drivePin level)
  | .engine => engineTurn s

end Sys2Proof.Machine
end

