-- ==== Sys2Proof/Machine/Step.lean ====
section
/-! DEFINITION. One step of the block. -/

namespace Sys2Proof.Machine

/-- One step: the next turn of the schedule, or the engine's turn when the schedule is empty, so that an
accepted command always completes (`70_reset_and_hazards.md` R260; log entries 1 and 2). -/
def step (s : State) : Host.Outcome State Fault Refusal :=
  match s.schedule with
  | [] => engineTurn s
  | t :: rest => takeTurn t (s.withSchedule rest)

/-- The state in which the host has just had this word accepted (`10_state.md` R46) and the engine moves
next: the block is out of reset and no turn comes before the completion. Log entry 1. -/
def State.withFetchWord (s : State) (nbits w : Nat) : State :=
  { s.accept (BitVec.ofNat 64 (w % 2 ^ nbits)) with rstN := true, schedule := [] }

end Sys2Proof.Machine
end

