-- ==== Sys2Proof/Safety.lean ====
section
/-! DEFINITION. What a safe run of the block is, in the terms the statements use: it never stops, and its
state keeps the invariants the spec gives. -/

namespace Sys2Proof.Machine

/-- The outcome is a next state: neither a fault nor a refusal. "Nothing in the block is stuck"
(`93_implementation_defined.md` section 2). -/
def GoesOn (o : Host.Outcome State Fault Refusal) : Prop := ∃ t, o = .next t

/-- Every register of `10_state.md` R48 has its reset value. TBUF has none. -/
structure State.RegistersReset (s : State) : Prop where
  a : s.a = ⟨0, 0⟩
  b : s.b = ⟨0, 0⟩
  k : s.k = 0
  r : s.r = ⟨0, 0⟩
  ie : s.ie = false
  status : s.status = ⟨false, false, false, 0⟩
  cmd : s.cmd = 0
  tlen : s.tlen = 0
  errInfo : s.errInfo = ⟨0, 0, 0⟩

/-- The invariants of the block's state. -/
structure State.Inv (s : State) : Prop where
  /-- "`BUSY = 1` implies `DONE = 0`" (`10_state.md` R32). -/
  busy_not_done : s.status.busy = true → s.status.done = false
  /-- Codes 5, 6, 7 and 10 to 15 are never produced (`60_exceptions.md` R210). -/
  err_code : ∃ c : ErrCode, s.status.err = c.code
  /-- The last completion was a fault, and a fault zeroes `R` (`60_exceptions.md` R218, R219). -/
  fault_zeroes_r : s.status.err ≠ 0 → s.r = ⟨0, 0⟩
  /-- The rows of `60_exceptions.md` R215 without information. -/
  info_zero : s.status.err = 0 ∨ s.status.err = 1 ∨ s.status.err = 8 ∨ s.status.err = 9 →
    s.errInfo = ⟨0, 0, 0⟩
  /-- The row of `InvalidCharacter` (`60_exceptions.md` R215). -/
  info_invalid : s.status.err = 2 → s.errInfo.ord = 0 ∧ s.errInfo.lim = 0
  /-- The row of `IntegralOverflow`: `ORD = LIM + 1` (`60_exceptions.md` R215). -/
  info_integral : s.status.err = 3 → s.errInfo.ord.toNat = s.errInfo.lim.toNat + 1
  /-- The row of `FractionOverflow`: the position exceeds the limit (`60_exceptions.md` R214, R215). -/
  info_fraction : s.status.err = 4 → s.errInfo.lim.toNat < s.errInfo.ord.toNat
  /-- `POS` is an index of TBUF (`60_exceptions.md` R215). -/
  info_pos : s.errInfo.pos.toNat < s.cfg.lmax
  /-- TBUF keeps its canonical form (log entry 4). -/
  tbuf_wf : s.tbuf.wf s.cfg.lmax
  /-- While `rst_n` is low the block is in its reset state (`70_reset_and_hazards.md` R250). -/
  held_in_reset : s.rstN = false → s.RegistersReset

end Sys2Proof.Machine
end

