-- ==== Sys2Proof/Certificates/Slice0/Obligations.lean ====
section
/-! DEFINITION. The statements for the provers, and the spec-side notions they use. The notions of
`Sys2Proof.Spec` are written from the spec's rules and do not use the scans, the digit loops or the
completion helpers of the model, so that a statement compares two descriptions. -/

namespace Sys2Proof.Spec

open Sys2Proof.Machine

/-! ## Completions, as whole states -/

/-- The state after a command whose destination is `R` succeeded (`10_state.md` R25, R47,
`30_encoding.md` R93 step 4): every other field as before. -/
def succeeded (s : State) (r : DoubleWidth) : State :=
  { s with r := r, status := ⟨false, true, s.status.werr, 0⟩, errInfo := ⟨0, 0, 0⟩ }

/-- The state after a fault completion (`60_exceptions.md` R218): every other field as before. -/
def faulted (s : State) (code : BitVec 4) (pos ord lim : Nat) : State :=
  { s with
    r := ⟨0, 0⟩
    status := ⟨false, true, s.status.werr, code⟩
    errInfo := ⟨BitVec.ofNat 16 pos, BitVec.ofNat 16 ord, BitVec.ofNat 8 lim⟩ }

/-- The text of a state: `TBUF[0], ..., TBUF[TLEN-1]` (`10_state.md` R34). -/
def textOf (s : State) : List Byte := (List.range s.tlen.toNat).map s.tbuf.byte

/-- `t` is the state after an ENC command printed `text` from state `s` (`43_encoder.md` R196): TLEN and
the bytes below it are the text, every field but TBUF, TLEN, STATUS and ERRINFO is as before, and the
bytes of TBUF beyond the text are not constrained. -/
def Printed (s t : State) (text : List Byte) : Prop :=
  t = { s with
        tbuf := t.tbuf
        tlen := BitVec.ofNat 16 text.length
        status := ⟨false, true, s.status.werr, 0⟩
        errInfo := ⟨0, 0, 0⟩ } ∧
    t.tlen.toNat = text.length ∧ textOf t = text

/-- The 128-bit value of two halves as a natural number, `hi * 2^64 + lo` (`41_double_width_arith.md` R140). -/
def valueOf (d : DoubleWidth) : Nat := d.hi.toNat * 2 ^ 64 + d.lo.toNat

/-- The two's complement reading of a number below `2^bits` (`00_scope.md` R8). -/
def signedOf (bits n : Nat) : Int := if 2 ^ (bits - 1) ≤ n then (n : Int) - 2 ^ bits else n

/-! ## The closed form of a decode, `42_decoder.md` R174 -/

/-- A byte 0x30 to 0x39 (`00_scope.md` R10). -/
def isDigit (c : Byte) : Bool := decide (0x30 ≤ c.toNat) && decide (c.toNat ≤ 0x39)

/-- The first byte is `'-'`. -/
def hasSign (t : List Byte) : Bool := t.head? == some 0x2D

/-- "Strip one leading `-` if the first byte is `-`". -/
def unsignedPart (t : List Byte) : List Byte := if hasSign t then t.tail else t

/-- `I`: the bytes before the first `'.'`. -/
def integralPart (t : List Byte) : List Byte := (unsignedPart t).takeWhile (fun c => c != 0x2E)

/-- `F`: the bytes after the first `'.'`, empty if there is none. -/
def fractionPart (t : List Byte) : List Byte := ((unsignedPart t).dropWhile (fun c => c != 0x2E)).tail

/-- `I'`: `I` without its leading `'0'` bytes. -/
def countedPart (t : List Byte) : List Byte := (integralPart t).dropWhile (fun c => c == 0x30)

/-- `j`: the position, from 1, of the last non-zero byte of `F`, or 0 if `F` has none. -/
def lastNonZero (t : List Byte) : Nat := ((fractionPart t).reverse.dropWhile (fun c => c == 0x30)).length

/-- A digit string read as a decimal number, the empty string as 0. -/
def decimalValue (l : List Byte) : Nat := l.foldl (fun n c => 10 * n + (c.toNat - 0x30)) 0

/-- The decode of a non-empty text in the domain succeeds if and only if this holds. -/
def Accepted (precision scale : Nat) (t : List Byte) : Prop :=
  (∀ c ∈ integralPart t, isDigit c = true) ∧ (∀ c ∈ fractionPart t, isDigit c = true) ∧
    (countedPart t).length ≤ precision - scale ∧ lastNonZero t ≤ scale

/-- `value(I') * 10^S + value(F[1..j]) * 10^(S - j)`. -/
def magnitudeOf (scale : Nat) (t : List Byte) : Nat :=
  decimalValue (countedPart t) * 10 ^ scale +
    decimalValue ((fractionPart t).take (lastNonZero t)) * 10 ^ (scale - lastNonZero t)

/-- `± decimal(text) * 10^S`, exactly. -/
def scaledValue (scale : Nat) (t : List Byte) : Int :=
  if hasSign t then -(magnitudeOf scale t : Int) else (magnitudeOf scale t : Int)

/-- The fault at byte `pos` of a text, by what that byte is (`60_exceptions.md` R212 to R215): no digit,
a digit of the integral part, a digit of the fraction. -/
def faultAt (s : State) (precision scale pos : Nat) (c : Byte) : State :=
  if isDigit c = false then faulted s 2 pos 0 0
  else if (0x2E : Byte) ∈ (textOf s).take pos then
    faulted s 4 pos (pos - (textOf s).idxOf 0x2E) scale
  else faulted s 3 pos (precision - scale + 1) (precision - scale)

/-- The whole of R174 for a decoder command with largest precision `pmax`: on a non-empty text in the
domain it succeeds if and only if the text is accepted, with the exact value; otherwise it raises the
fault of the leftmost byte that violates a condition, the byte that ends the shortest prefix that is not
accepted. -/
def DecodesByClosedForm (pmax : Nat) (command : Nat → Nat → Instr) : Prop :=
  ∀ (s : State) (precision scale : Nat), scale ≤ precision → precision ≤ pmax →
    s.tlen.toNat ≤ s.cfg.lmax → s.tlen ≠ 0 →
    (Accepted precision scale (textOf s) →
      magnitudeOf scale (textOf s) < 10 ^ precision ∧
      ∃ r, exec (command precision scale) s = .next (succeeded s r) ∧
        signedOf 128 (valueOf r) = scaledValue scale (textOf s)) ∧
    (¬ Accepted precision scale (textOf s) →
      ∃ pos c, (textOf s)[pos]? = some c ∧ Accepted precision scale ((textOf s).take pos) ∧
        ¬ Accepted precision scale ((textOf s).take (pos + 1)) ∧
        exec (command precision scale) s = .next (faultAt s precision scale pos c))

/-- The decoder commands, for statements that hold for both. -/
def isDec (i : Instr) (precision scale : Nat) : Prop := i = .dec32 precision scale ∨ i = .dec128 precision scale

/-- A byte that `60_exceptions.md` R212 calls invalid: no digit, not a `'-'` at index 0, not the first
`'.'`. -/
def Stray (t : List Byte) (pos : Nat) : Prop :=
  ∃ c, t[pos]? = some c ∧ isDigit c = false ∧ ¬ (c = 0x2D ∧ pos = 0) ∧
    ¬ (c = 0x2E ∧ (0x2E : Byte) ∉ t.take pos)

/-- An integral digit, the one that makes the number of digits behind the leading zeros `P - S + 1`
(`60_exceptions.md` R213). -/
def BeyondBudget (precision scale : Nat) (t : List Byte) (pos : Nat) : Prop :=
  ∃ c, t[pos]? = some c ∧ isDigit c = true ∧ (0x2E : Byte) ∉ t.take pos ∧
    (countedPart (t.take pos)).length = precision - scale ∧
    (countedPart (t.take (pos + 1))).length = precision - scale + 1

/-- A non-zero fractional digit whose position in the fractional substring, from 1, exceeds S
(`60_exceptions.md` R214). -/
def BeyondScale (scale : Nat) (t : List Byte) (pos : Nat) : Prop :=
  ∃ c, t[pos]? = some c ∧ isDigit c = true ∧ c ≠ 0x30 ∧ (0x2E : Byte) ∈ t.take pos ∧
    scale < pos - t.idxOf 0x2E

/-! ## The text of an encode, `43_encoder.md` R192 to R195 -/

/-- The decimal digits of a number, most significant first, no leading zeros; none for 0. -/
def significantBytes (n : Nat) : List Byte := (Nat.digits 10 n).reverse.map (fun d => BitVec.ofNat 8 (0x30 + d))

/-- The number in ordinary decimal, the single digit `0` for 0 (`43_encoder.md` R194). -/
def decimalBytes (n : Nat) : List Byte := if n = 0 then [0x30] else significantBytes n

/-- The fractional bytes: `r` zero-padded on the left to `scale` digits, trailing zeros stripped
(`43_encoder.md` R195). -/
def fractionBytes (scale r : Nat) : List Byte :=
  ((List.replicate (scale - (significantBytes r).length) 0x30 ++ significantBytes r).reverse.dropWhile
    (fun c => c == 0x30)).reverse

/-- The text of a signed value at a scale (`43_encoder.md` R193 to R195, R200): the magnitude is the
absolute value. -/
def printedText (scale : Nat) (v : Int) : List Byte :=
  (if v < 0 then [0x2D] else []) ++ decimalBytes (v.natAbs / 10 ^ scale) ++
    (if v.natAbs % 10 ^ scale = 0 then [] else 0x2E :: fractionBytes scale (v.natAbs % 10 ^ scale))

/-- Canonical text: an optional sign, integral digits without leading zeros but for a lone `0`,
optionally a `'.'` and fractional digits that do not end in `0`; never `-0` (`00_scope.md` R13,
`43_encoder.md` R201). -/
def Canonical (t : List Byte) : Prop :=
  ∃ (neg : Bool) (ds fs : List Byte),
    t = (if neg then [0x2D] else []) ++ ds ++ (if fs = [] then [] else 0x2E :: fs) ∧
    ds ≠ [] ∧ (∀ c ∈ ds, isDigit c = true) ∧ (∀ c ∈ fs, isDigit c = true) ∧
    (ds.head? = some 0x30 → ds = [0x30]) ∧ fs.getLast? ≠ some 0x30 ∧
    ¬ (neg = true ∧ ds = [0x30] ∧ fs = [])

/-! ## Words and domains -/

/-- The field OP of a word (`30_encoding.md` R91). -/
def opOf (w : Word) : Nat := w.toNat % 2 ^ 8

/-- The field S of a word (`30_encoding.md` R91). -/
def sOf (w : Word) : Nat := w.toNat / 2 ^ 8 % 2 ^ 8

/-- The field P of a word (`30_encoding.md` R91). -/
def pOf (w : Word) : Nat := w.toNat / 2 ^ 16 % 2 ^ 8

/-- The words that `30_encoding.md` R99 lists: an unassigned opcode, a reserved bit, a P field where the
format has none, an S field where the format has none. -/
def IllegalWord (w : Word) : Prop :=
  opOf w ∉ [0x01, 0x02, 0x03, 0x10, 0x11, 0x12, 0x13, 0x20, 0x21, 0x30, 0x31] ∨
    w.toNat / 2 ^ 24 ≠ 0 ∨
    (pOf w ≠ 0 ∧ opOf w ∉ [0x20, 0x21]) ∨
    (sOf w ≠ 0 ∧ opOf w ∈ [0x10, 0x11, 0x12, 0x13])

/-- The parameters are outside the domain (`60_exceptions.md` R217). -/
def OutOfDomain (i : Instr) (s : State) : Prop :=
  match i with
  | .pow32 index => 9 < index
  | .pow64 index => 19 < index
  | .pow128 index => 38 < index
  | .add => False
  | .neg => False
  | .muls => False
  | .mul => False
  | .dec32 precision scale => precision < scale ∨ 9 < precision ∨ s.cfg.lmax < s.tlen.toNat
  | .dec128 precision scale => precision < scale ∨ 38 < precision ∨ s.cfg.lmax < s.tlen.toNat
  | .enc32 scale => 9 < scale
  | .enc128 scale => 38 < scale

/-- The codes a command can complete with (`60_exceptions.md` R210). -/
def possibleCodes : Instr → List (BitVec 4)
  | .pow32 _ => [0, 9]
  | .pow64 _ => [0, 9]
  | .pow128 _ => [0, 9]
  | .add => [0]
  | .neg => [0]
  | .muls => [0]
  | .mul => [0]
  | .dec32 _ _ => [0, 1, 2, 3, 4, 9]
  | .dec128 _ _ => [0, 1, 2, 3, 4, 9]
  | .enc32 _ => [0, 9]
  | .enc128 _ => [0, 9]

/-- The size of an access in bytes (`20_memory.md` R60). -/
def accessBytes : BusAccess → Nat
  | .read _ .b1 => 1
  | .read _ .b2 => 2
  | .read _ .b4 => 4
  | .read _ .b8 => 8
  | .write _ .b1 _ => 1
  | .write _ .b2 _ => 2
  | .write _ .b4 _ => 4
  | .write _ .b8 _ => 8

/-- The offset of an access (`20_memory.md` R60). -/
def offsetOf : BusAccess → Nat
  | .read off _ => off.toNat
  | .write off _ _ => off.toNat

/-- An access that `20_memory.md` R66 calls a bus error. -/
def IsBusError (c : Config) (x : BusAccess) : Prop :=
  (0x68 ≤ offsetOf x ∧ offsetOf x < 0x1000) ∨ 0x1000 + c.lmax ≤ offsetOf x ∨
    (offsetOf x < 0x68 ∧ (accessBytes x ≠ 8 ∨ offsetOf x % 8 ≠ 0)) ∨
    (0x1000 ≤ offsetOf x ∧ (offsetOf x - 0x1000) % accessBytes x ≠ 0)

/-- The n bytes of TBUF from index i on as one number: `TBUF[i + j]` in bits `8j + 7 : 8j`
(`20_memory.md` R62). -/
def packedBytes (m : Memory) (i n : Nat) : Nat :=
  ((List.range n).map (fun j => (m.byte (i + j)).toNat * 2 ^ (8 * j))).sum

/-- A host write of a 64-bit register. -/
def writeAt (off : Nat) (v : Word) : BusAccess := .write (BitVec.ofNat 16 off) .b8 v

/-- A host read of a 64-bit register. -/
def readAt (off : Nat) : BusAccess := .read (BitVec.ofNat 16 off) .b8

end Sys2Proof.Spec

open Sys2Proof Sys2Proof.Machine Sys2Proof.Spec

/-! ## Encoding -/

/-- Decoding the word of a well-formed command gives the command back, with every field at every value
(`30_encoding.md` sections 2 to 5). -/
def Obligations.DecodeOfEncodedCommandIsTheCommand : Prop :=
  ∀ i : Instr, i.wellFormed = true → decode (encode i) = .ok i

/-- A word that decodes is the word of the command it decodes to: each command has one word
(`30_encoding.md` sections 2 to 5). -/
def Obligations.EncodeOfDecodedWordIsTheWord : Prop :=
  ∀ (w : Word) (i : Instr), decode w = .ok i → i.wellFormed = true ∧ encode i = w

/-- The decoder rejects exactly the words that R99 lists. -/
def Obligations.DecoderRejectsExactlyTheIllegalWords : Prop :=
  ∀ w : Word, (∃ e, decode w = .error e) ↔ IllegalWord w

/-- `30_encoding.md` R96: the example encodings, read and written. -/
def Obligations.ExampleEncodingsDecodeAndEncode : Prop :=
  ∀ x ∈ [(Instr.dec128 38 2, (0x0000000000260221 : Word)), (.dec32 9 6, 0x0000000000090620),
      (.dec32 9 3, 0x0000000000090320), (.enc128 2, 0x0000000000000231), (.enc32 0, 0x0000000000000030),
      (.pow128 38, 0x0000000000002603), (.muls, 0x0000000000000012)],
    decode x.2 = .ok x.1 ∧ encode x.1 = x.2

/-! ## The step -/

/-- Every turn of the step. When it is the engine's turn and `CMD` holds the word of command `i`, the step
is `exec i`; a turn of the host is one bus access; a turn of the pin drives `rst_n`; each with the turn
taken off the schedule (`10_state.md` R47, `30_encoding.md` R93, `00_scope.md` R14; that the schedule is data
and that the engine moves when it is empty are log entries 1 and 2, the pin is log entry 8). -/
def Obligations.StepRunsTheDecodedCommand : Prop :=
  ∀ s : State,
    (∀ i, s.status.busy = true → decode s.cmd = .ok i →
      (s.schedule = [] → step s = exec i s) ∧
      (∀ rest, s.schedule = .engine :: rest → step s = exec i { s with schedule := rest })) ∧
    (∀ x rest, s.schedule = .host x :: rest → step s = .next ({ s with schedule := rest }.busAccess x)) ∧
    (∀ level rest, s.schedule = .resetPin level :: rest →
      step s = .next ({ s with schedule := rest }.drivePin level))

/-- A command word written to `CMD` by an idle block's host is executed by the next completion
(`10_state.md` section 9; the schedule is log entries 1 and 2). -/
def Obligations.HostCommandIsExecuted : Prop :=
  ∀ (s : State) (i : Instr), i.wellFormed = true → s.rstN = true → s.status.busy = false →
    s.schedule = [.host (writeAt 0x18 (encode i))] →
    Host.Core.run Sys2Proof.core 2 s =
      exec i { s with
        cmd := encode i
        status := ⟨true, false, s.status.werr, s.status.err⟩
        bus := .written
        schedule := [] }

/-- The completion of a word that is no command is `IllegalCommand`; no operand is read, `ERRINFO` is 0, and
the word stays in `CMD` (`60_exceptions.md` section 1). That the engine completes it when no turn is to come,
and when the next turn is its own, is log entry 2. -/
def Obligations.IllegalWordCompletesWithIllegalCommand : Prop :=
  ∀ s : State, IllegalWord s.cmd →
    complete s = .next (faulted s 8 0 0 0) ∧
    (s.status.busy = true → s.schedule = [] → step s = .next (faulted s 8 0 0 0)) ∧
    (∀ rest, s.status.busy = true → s.schedule = .engine :: rest →
      step s = .next (faulted { s with schedule := rest } 8 0 0 0))

/-- An idle block keeps all its state when no turn is to come; a turn of the engine that meets it is taken
and does nothing (`60_exceptions.md` section 6; the turns are log entry 2). -/
def Obligations.IdleBlockKeepsAllItsState : Prop :=
  ∀ s : State, s.status.busy = false →
    (s.schedule = [] → step s = .next s) ∧
    (∀ rest, s.schedule = .engine :: rest → step s = .next { s with schedule := rest })

/-! ## Unit PTR -/

/-- `40_power_table.md` R120: entry i of a bank is `10^i`, and the bank holds exactly the powers below
`2^W`; the largest indices are 9, 19 and 38; an entry is delivered as its two halves. -/
def Obligations.RomHoldsExactlyThePowersThatFit : Prop :=
  (∀ (bank : RomBank) (i : Nat),
    romRead bank i = if 10 ^ i < 2 ^ bank.bits then some (10 ^ i) else none) ∧
  (∀ i, (romRead .w32 i).isSome = true ↔ i ≤ 9) ∧ (∀ i, (romRead .w64 i).isSome = true ↔ i ≤ 19) ∧
  (∀ i, (romRead .w128 i).isSome = true ↔ i ≤ 38) ∧
  (∀ i, i ≤ 38 → zext128 (10 ^ i) = ⟨BitVec.ofNat 64 (10 ^ i % 2 ^ 64), BitVec.ofNat 64 (10 ^ i / 2 ^ 64)⟩)

/-- `40_power_table.md` R126: POW32. -/
def Obligations.Pow32DeliversTheEntry : Prop :=
  (∀ i, i < 256 → decode (BitVec.ofNat 64 (i * 2 ^ 8 + 0x01)) = .ok (.pow32 i)) ∧
  ∀ (s : State) (i : Nat),
    (i ≤ 9 → exec (.pow32 i) s = .next (succeeded s ⟨BitVec.ofNat 64 (10 ^ i), 0⟩)) ∧
    (9 < i → exec (.pow32 i) s = .next (faulted s 9 0 0 0))

/-- `40_power_table.md` R127: POW64; the entry is zero-extended. -/
def Obligations.Pow64DeliversTheEntry : Prop :=
  (∀ i, i < 256 → decode (BitVec.ofNat 64 (i * 2 ^ 8 + 0x02)) = .ok (.pow64 i)) ∧
  ∀ (s : State) (i : Nat),
    (i ≤ 19 → exec (.pow64 i) s = .next (succeeded s ⟨BitVec.ofNat 64 (10 ^ i), 0⟩)) ∧
    (19 < i → exec (.pow64 i) s = .next (faulted s 9 0 0 0))

/-- `40_power_table.md` R128: POW128; the entry in two halves. -/
def Obligations.Pow128DeliversTheEntry : Prop :=
  (∀ i, i < 256 → decode (BitVec.ofNat 64 (i * 2 ^ 8 + 0x03)) = .ok (.pow128 i)) ∧
  ∀ (s : State) (i : Nat),
    (i ≤ 38 → exec (.pow128 i) s =
      .next (succeeded s ⟨BitVec.ofNat 64 (10 ^ i % 2 ^ 64), BitVec.ofNat 64 (10 ^ i / 2 ^ 64)⟩)) ∧
    (38 < i → exec (.pow128 i) s = .next (faulted s 9 0 0 0))

/-! ## Unit DWA -/

/-- `41_double_width_arith.md` R142: ADD. -/
def Obligations.AddIsAdditionModulo : Prop :=
  decode 0x10 = .ok .add ∧
  ∀ s : State, ∃ r, exec .add s = .next (succeeded s r) ∧
    valueOf r = (valueOf s.a + valueOf s.b) % 2 ^ 128

/-- `41_double_width_arith.md` R143: NEG. -/
def Obligations.NegIsNegationModulo : Prop :=
  decode 0x11 = .ok .neg ∧
  ∀ s : State, ∃ r, exec .neg s = .next (succeeded s r) ∧ valueOf r = (2 ^ 128 - valueOf s.a) % 2 ^ 128

/-- `41_double_width_arith.md` R144: MULS. -/
def Obligations.MulsIsSmallMultiplicationModulo : Prop :=
  decode 0x12 = .ok .muls ∧
  ∀ s : State, ∃ r, exec .muls s = .next (succeeded s r) ∧
    valueOf r = valueOf s.a * s.k.toNat % 2 ^ 128

/-- `41_double_width_arith.md` R145: MUL. -/
def Obligations.MulIsMultiplicationModulo : Prop :=
  decode 0x13 = .ok .mul ∧
  ∀ s : State, ∃ r, exec .mul s = .next (succeeded s r) ∧
    valueOf r = valueOf s.a * valueOf s.b % 2 ^ 128

/-- `41_double_width_arith.md` R147: the half-by-half form with its carries computes the same results. -/
def Obligations.HalfByHalfFormAgrees : Prop :=
  ∀ (a b : DoubleWidth) (k : Word),
    dwAdd a b = halvesAdd a b ∧ dwNeg a = halvesNeg a ∧ dwMulSmall a k = halvesMulSmall a k ∧
    dwMul a b = halvesMul a b

/-- The laws of `41_double_width_arith.md` section 3: the identities between the operations, the fixed
points of NEG, exactness below `2^128`, and that the operands may as well be read as two's complement. -/
def Obligations.DoubleWidthLaws : Prop :=
  ∀ (a b : DoubleWidth) (k : Word),
    dwAdd a b = dwAdd b a ∧ dwMul a b = dwMul b a ∧ dwMulSmall a k = dwMul a ⟨k, 0⟩ ∧
    dwNeg (dwNeg a) = a ∧ dwAdd a (dwNeg a) = ⟨0, 0⟩ ∧
    (dwNeg a = a ↔ valueOf a = 0 ∨ valueOf a = 2 ^ 127) ∧
    (valueOf a + valueOf b < 2 ^ 128 → valueOf (dwAdd a b) = valueOf a + valueOf b) ∧
    (valueOf a * valueOf b < 2 ^ 128 → valueOf (dwMul a b) = valueOf a * valueOf b) ∧
    (2 : Int) ^ 128 ∣ signedOf 128 (valueOf (dwAdd a b)) -
      (signedOf 128 (valueOf a) + signedOf 128 (valueOf b)) ∧
    (2 : Int) ^ 128 ∣ signedOf 128 (valueOf (dwMul a b)) -
      signedOf 128 (valueOf a) * signedOf 128 (valueOf b) ∧
    (2 : Int) ^ 128 ∣ signedOf 128 (valueOf (dwMulSmall a k)) - signedOf 128 (valueOf a) * k.toNat

/-! ## Unit DEC -/

/-- `42_decoder.md` R174 at both widths, through the commands DEC32 and DEC128. -/
def Obligations.DecHasTheClosedForm : Prop := DecodesByClosedForm 9 .dec32 ∧ DecodesByClosedForm 38 .dec128

/-- A DEC command always completes, and changes nothing but `R`, `STATUS` and `ERRINFO`; `WERR` is kept.
In particular it never asks the ROM for an entry that does not exist. -/
def Obligations.DecCompletesAndKeepsEverythingElse : Prop :=
  ∀ (s : State) (i : Instr) (precision scale : Nat), isDec i precision scale →
    ∃ r err info, exec i s =
      .next { s with r := r, status := ⟨false, true, s.status.werr, err⟩, errInfo := info }

/-- `42_decoder.md` R172: the 32-bit result stands sign-extended in `R`, and DEC32 and DEC128 have the same
outcome, success or fault, for every precision up to 9. -/
def Obligations.Dec32AgreesWithDec128 : Prop :=
  (∀ (s t : State) (precision scale : Nat), exec (.dec32 precision scale) s = .next t → t.status.err = 0 →
    signedOf 128 (valueOf t.r) = signedOf 32 (valueOf t.r % 2 ^ 32)) ∧
  ∀ (s : State) (precision scale : Nat), precision ≤ 9 →
    exec (.dec32 precision scale) s = exec (.dec128 precision scale) s

/-- `60_exceptions.md` R211: `EmptyInput` exactly when `TLEN = 0` and the parameters are in domain. -/
def Obligations.EmptyInputExactlyOnEmptyText : Prop :=
  ∀ (s : State) (i : Instr) (precision scale : Nat), isDec i precision scale →
    (s.tlen = 0 → ¬ OutOfDomain i s → exec i s = .next (faulted s 1 0 0 0)) ∧
    (∀ t, exec i s = .next t → t.status.err = 1 → s.tlen = 0 ∧ ¬ OutOfDomain i s)

/-- `60_exceptions.md` R212: `InvalidCharacter` is raised at the first stray byte, and where the scan
meets a stray byte it is raised. -/
def Obligations.InvalidCharacterIsTheFirstStrayByte : Prop :=
  ∀ (s : State) (i : Instr) (precision scale : Nat), isDec i precision scale →
    (∀ t, exec i s = .next t → t.status.err = 2 →
      ∃ pos, t = faulted s 2 pos 0 0 ∧ Stray (textOf s) pos ∧ ∀ q, q < pos → ¬ Stray (textOf s) q) ∧
    (∀ pos, ¬ OutOfDomain i s → Stray (textOf s) pos → Accepted precision scale ((textOf s).take pos) →
      exec i s = .next (faulted s 2 pos 0 0))

/-- `60_exceptions.md` R213: `IntegralOverflow` is raised at the integral digit that is number
`P - S + 1` behind the leading zeros, and where the scan meets that digit it is raised. -/
def Obligations.IntegralOverflowIsTheDigitBeyondTheBudget : Prop :=
  ∀ (s : State) (i : Instr) (precision scale : Nat), isDec i precision scale →
    (∀ t, exec i s = .next t → t.status.err = 3 →
      ∃ pos, t = faulted s 3 pos (precision - scale + 1) (precision - scale) ∧
        BeyondBudget precision scale (textOf s) pos) ∧
    (∀ pos, ¬ OutOfDomain i s → BeyondBudget precision scale (textOf s) pos →
      Accepted precision scale ((textOf s).take pos) →
      exec i s = .next (faulted s 3 pos (precision - scale + 1) (precision - scale)))

/-- `60_exceptions.md` R214: `FractionOverflow` is raised at the first non-zero fractional digit whose
position exceeds S, and where the scan meets that digit it is raised. -/
def Obligations.FractionOverflowIsTheFirstDigitBeyondTheScale : Prop :=
  ∀ (s : State) (i : Instr) (precision scale : Nat), isDec i precision scale →
    (∀ t, exec i s = .next t → t.status.err = 4 →
      ∃ pos, t = faulted s 4 pos (pos - (textOf s).idxOf 0x2E) scale ∧ BeyondScale scale (textOf s) pos ∧
        ∀ q, q < pos → ¬ BeyondScale scale (textOf s) q) ∧
    (∀ pos, ¬ OutOfDomain i s → BeyondScale scale (textOf s) pos →
      Accepted precision scale ((textOf s).take pos) →
      exec i s = .next (faulted s 4 pos (pos - (textOf s).idxOf 0x2E) scale))

/-- Zeros are free: trailing zeros of a fraction, and leading zeros after the sign, in any number, leave
the result of a successful decode as it is (`42_decoder.md` section 4). -/
def Obligations.RedundantZerosAreFree : Prop :=
  ∀ (w : CodecWidth) (precision scale zeros v : Nat) (body : List Byte),
    (∀ t, (0x2E : Byte) ∈ t → decodeText w precision scale t = .ok v →
      decodeText w precision scale (t ++ List.replicate zeros 0x30) = .ok v) ∧
    (body.head? ≠ some 0x2D → decodeText w precision scale body = .ok v →
      decodeText w precision scale (List.replicate zeros 0x30 ++ body) = .ok v) ∧
    (decodeText w precision scale (0x2D :: body) = .ok v →
      decodeText w precision scale (0x2D :: (List.replicate zeros 0x30 ++ body)) = .ok v)

/-- A byte after the offending one is never looked at: whatever follows it, the fault is the same
(`60_exceptions.md` section 4). -/
def Obligations.BytesAfterTheFaultDoNotMatter : Prop :=
  ∀ (w : CodecWidth) (precision scale : Nat) (t rest : List Byte) (e : Raised),
    t ≠ [] → decodeText w precision scale t = .error (.raise e) →
    e.pos < t.length ∧ decodeText w precision scale (t.take (e.pos + 1) ++ rest) = .error (.raise e)

/-! ## Unit ENC -/

/-- `43_encoder.md` R198: ENC32 prints the signed value of `A[31:0]` at scale S. -/
def Obligations.Enc32PrintsTheValue : Prop :=
  (∀ i, i < 256 → decode (BitVec.ofNat 64 (i * 2 ^ 8 + 0x30)) = .ok (.enc32 i)) ∧
  ∀ (s : State) (scale : Nat),
    (scale ≤ 9 → ∃ t, exec (.enc32 scale) s = .next t ∧
      Printed s t (printedText scale (signedOf 32 (valueOf s.a % 2 ^ 32)))) ∧
    (9 < scale → exec (.enc32 scale) s = .next (faulted s 9 0 0 0))

/-- `43_encoder.md` R199: ENC128 prints the signed value of `A` at scale S. -/
def Obligations.Enc128PrintsTheValue : Prop :=
  (∀ i, i < 256 → decode (BitVec.ofNat 64 (i * 2 ^ 8 + 0x31)) = .ok (.enc128 i)) ∧
  ∀ (s : State) (scale : Nat),
    (scale ≤ 38 → ∃ t, exec (.enc128 scale) s = .next t ∧
      Printed s t (printedText scale (signedOf 128 (valueOf s.a)))) ∧
    (38 < scale → exec (.enc128 scale) s = .next (faulted s 9 0 0 0))

/-- Every text an encoder command produces is canonical, with a `'-'` exactly when the value is negative
(`43_encoder.md` section 4). -/
def Obligations.EncodedTextIsCanonical : Prop :=
  ∀ (s t : State) (scale : Nat),
    (scale ≤ 9 → exec (.enc32 scale) s = .next t →
      Canonical (textOf t) ∧ (hasSign (textOf t) = true ↔ signedOf 32 (valueOf s.a % 2 ^ 32) < 0)) ∧
    (scale ≤ 38 → exec (.enc128 scale) s = .next t →
      Canonical (textOf t) ∧ (hasSign (textOf t) = true ↔ signedOf 128 (valueOf s.a) < 0))

/-- The length of the text an encoder command produces (`43_encoder.md` section 2): it always fits TBUF. -/
def Obligations.EncodedLengthIsBounded : Prop :=
  ∀ (s t : State) (scale : Nat),
    (scale ≤ 9 → exec (.enc32 scale) s = .next t →
      1 ≤ t.tlen.toNat ∧ t.tlen.toNat ≤ 12 ∧ t.tlen.toNat ≤ t.cfg.lmax) ∧
    (scale ≤ 38 → exec (.enc128 scale) s = .next t →
      1 ≤ t.tlen.toNat ∧ t.tlen.toNat ≤ 41 ∧ t.tlen.toNat ≤ t.cfg.lmax)

/-- `43_encoder.md` R200: the most negative value has the magnitude `2^(W-1)` and prints exactly. -/
def Obligations.MostNegativeValuePrintsExactly : Prop :=
  magnitude .w32 (2 ^ 31) = 2 ^ 31 ∧ magnitude .w128 (2 ^ 127) = 2 ^ 127 ∧
  (∀ (s : State) (scale : Nat), s.a.lo.toNat % 2 ^ 32 = 2 ^ 31 → scale ≤ 9 →
    ∃ t, exec (.enc32 scale) s = .next t ∧ textOf t = printedText scale (-2147483648)) ∧
  (∀ (s : State) (scale : Nat), s.a = ⟨0, 0x8000000000000000⟩ → scale ≤ 38 →
    ∃ t, exec (.enc128 scale) s = .next t ∧
      textOf t = printedText scale (-170141183460469231731687303715884105728))

/-- Decoding what an encoder printed gives the value back, for every value of at most P digits
(`43_encoder.md` section 4, (c)). -/
def Obligations.DecodeOfEncodedValueIsTheValue : Prop :=
  ∀ (s : State) (precision scale : Nat), scale ≤ precision →
    (precision ≤ 9 → (signedOf 32 (valueOf s.a % 2 ^ 32)).natAbs < 10 ^ precision →
      ∃ t u, exec (.enc32 scale) s = .next t ∧ exec (.dec32 precision scale) t = .next u ∧
        u.status.err = 0 ∧ signedOf 128 (valueOf u.r) = signedOf 32 (valueOf s.a % 2 ^ 32)) ∧
    (precision ≤ 38 → (signedOf 128 (valueOf s.a)).natAbs < 10 ^ precision →
      ∃ t u, exec (.enc128 scale) s = .next t ∧ exec (.dec128 precision scale) t = .next u ∧
        u.status.err = 0 ∧ u.r = s.a)

/-- Encoding what a decoder delivered gives canonical text back (`43_encoder.md` section 4, (d)). -/
def Obligations.EncodeOfDecodedTextIsTheText : Prop :=
  ∀ (s t : State) (precision scale : Nat), Canonical (textOf s) →
    (exec (.dec32 precision scale) s = .next t → t.status.err = 0 →
      ∃ u, exec (.enc32 scale) { t with a := t.r } = .next u ∧ textOf u = textOf s) ∧
    (exec (.dec128 precision scale) s = .next t → t.status.err = 0 →
      ∃ u, exec (.enc128 scale) { t with a := t.r } = .next u ∧ textOf u = textOf s)

/-- Two different values print as two different texts at the same scale (`43_encoder.md` section 4, (e)). -/
def Obligations.EncodingIsInjective : Prop :=
  ∀ (s s' t t' : State) (scale : Nat), textOf t = textOf t' →
    (scale ≤ 9 → exec (.enc32 scale) s = .next t → exec (.enc32 scale) s' = .next t' →
      valueOf s.a % 2 ^ 32 = valueOf s'.a % 2 ^ 32) ∧
    (scale ≤ 38 → exec (.enc128 scale) s = .next t → exec (.enc128 scale) s' = .next t' → s.a = s'.a)

/-! ## Errors -/

/-- `60_exceptions.md` R217: the parameters outside the domain, and only they, give `ParamFault`. -/
def Obligations.ParamFaultExactlyOutOfDomain : Prop :=
  ∀ (i : Instr) (s : State),
    (OutOfDomain i s → exec i s = .next (faulted s 9 0 0 0)) ∧
    (¬ OutOfDomain i s → ∀ t, exec i s = .next t → t.status.err ≠ 9)

/-- `60_exceptions.md` R218 with the rows of R215: a completion that is not `OK` is the fault completion
and writes nothing else; an `OK` one writes `ERRINFO <- 0`. -/
def Obligations.FaultCompletionWritesExactlyItsRow : Prop :=
  ∀ s t : State, complete s = .next t →
    (t.status.err = 0 ∧ t.errInfo = ⟨0, 0, 0⟩) ∨
    ∃ (code : BitVec 4) (pos ord lim : Nat), t = faulted s code pos ord lim ∧
      (((code = 1 ∨ code = 8 ∨ code = 9) ∧ pos = 0 ∧ ord = 0 ∧ lim = 0) ∨
        (code = 2 ∧ pos < s.tlen.toNat ∧ ord = 0 ∧ lim = 0) ∨
        (code = 3 ∧ pos < s.tlen.toNat ∧ ord = pOf s.cmd - sOf s.cmd + 1 ∧ lim = pOf s.cmd - sOf s.cmd) ∨
        (code = 4 ∧ pos < s.tlen.toNat ∧ ord = pos - (textOf s).idxOf 0x2E ∧ lim = sOf s.cmd))

/-- `60_exceptions.md` R210: which codes each command can complete with; a word that is no command
completes with code 8. -/
def Obligations.EachCommandHasItsCodes : Prop :=
  ∀ s t : State, complete s = .next t →
    (∀ i, decode s.cmd = .ok i → t.status.err ∈ possibleCodes i) ∧
    (∀ e, decode s.cmd = .error e → t.status.err = 8)

/-- `60_exceptions.md` R220: the interrupt output. -/
def Obligations.InterruptIsEnableAndDone : Prop :=
  (∀ s : State, s.irq = (s.ie && s.status.done)) ∧
  (∀ s t : State, complete s = .next t → t.irq = s.ie) ∧
  (∀ (s : State) (w : Word), s.rstN = true → s.status.busy = false →
    (s.busAccess (writeAt 0x18 w)).irq = false) ∧
  (∀ (s : State) (v : Word), s.rstN = true → v.getLsbD 1 = true →
    (s.busAccess (writeAt 0x10 v)).irq = false) ∧
  (∀ s : State, (s.drivePin false).irq = false) ∧
  (∀ s : State, s.flagWriteError.irq = s.irq)

/-! ## The host bus -/

/-- `20_memory.md` R66: exactly these accesses are bus errors; they change no state and a read returns 0. -/
def Obligations.BusErrorsAreExactlyTheseAndChangeNothing : Prop :=
  ∀ (s : State) (x : BusAccess), s.rstN = true →
    ((s.busAccess x).bus.err = true ↔ IsBusError s.cfg x) ∧
    (IsBusError s.cfg x → s.busAccess x = { s with bus := .error } ∧ (s.busAccess x).bus.rdata = some 0)

/-- `10_state.md` R46: every word is accepted by an idle block, with these writes and no other; until the
completion no access of the host changes the word or an operand. -/
def Obligations.CommandWriteWhenIdleIsAccepted : Prop :=
  (∀ (s : State) (w : Word), s.rstN = true → s.status.busy = false →
    s.busAccess (writeAt 0x18 w) =
      { s with cmd := w, status := ⟨true, false, s.status.werr, s.status.err⟩, bus := .written }) ∧
  (∀ (s : State) (x : BusAccess), s.status.busy = true →
    let t := s.busAccess x
    t.cmd = s.cmd ∧ t.a = s.a ∧ t.b = s.b ∧ t.k = s.k ∧ t.tlen = s.tlen ∧ t.tbuf = s.tbuf ∧
      t.status.busy = true)

/-- `70_reset_and_hazards.md` R257: writes while busy. -/
def Obligations.WritesWhileBusyAreDropped : Prop :=
  ∀ (s : State) (v : Word), s.rstN = true → s.status.busy = true →
    (∀ off ∈ [0x18, 0x20, 0x28, 0x30, 0x38, 0x40, 0x58],
      s.busAccess (writeAt off v) =
        { s with status := { s.status with werr := true }, bus := .written }) ∧
    (∀ (off : BitVec 16) (size : AccessSize), 0x1000 ≤ off.toNat →
      ¬ IsBusError s.cfg (.write off size v) →
      s.busAccess (.write off size v) =
        { s with status := { s.status with werr := true }, bus := .written }) ∧
    s.busAccess (writeAt 0x08 v) = { s with ie := v.getLsbD 0, bus := .written } ∧
    s.busAccess (writeAt 0x10 v) =
      { s with
        status := { s.status with
          done := s.status.done && !v.getLsbD 1, werr := s.status.werr && !v.getLsbD 2 }
        bus := .written } ∧
    (∀ off ∈ [0x00, 0x48, 0x50, 0x60], s.busAccess (writeAt off v) = { s with bus := .written })

/-- Reads while busy (`70_reset_and_hazards.md` section 3). What an unspecified read returns is a free value;
only that it is a value of the access's size is said, and the counter of such reads is log entry 6. `STATUS`
reads `BUSY` = 1, the exact `DONE` and `WERR`, and the previous command's code. -/
def Obligations.ReadsWhileBusy : Prop :=
  ∀ s : State, s.rstN = true → s.status.busy = true →
    (∀ off ∈ [0x48, 0x50, 0x58, 0x60], ∃ x,
      s.busAccess (readAt off) = { s with bus := .data x, busyReads := s.busyReads + 1 }) ∧
    (∀ (off : BitVec 16) (size : AccessSize), 0x1000 ≤ off.toNat → ¬ IsBusError s.cfg (.read off size) →
      ∃ x : Word, x.toNat < 2 ^ (8 * accessBytes (.read off size)) ∧
        s.busAccess (.read off size) = { s with bus := .data x, busyReads := s.busyReads + 1 }) ∧
    (∀ p ∈ [(0x00, BitVec.ofNat 64 (1 * 2 ^ 48 + s.cfg.lmax * 2 ^ 32 + 0x44434E56)),
        (0x08, BitVec.ofNat 64 s.ie.toNat),
        (0x10, BitVec.ofNat 64
          (1 + 2 * s.status.done.toNat + 4 * s.status.werr.toNat + 16 * s.status.err.toNat)),
        (0x18, s.cmd), (0x20, s.a.lo), (0x28, s.a.hi), (0x30, s.b.lo), (0x38, s.b.hi), (0x40, s.k)],
      s.busAccess (readAt p.1) = { s with bus := .data p.2 })

/-- No read has a side effect on the spec's state, and every write of an idle block but one of `CMD` is
idempotent (`20_memory.md` section 3). -/
def Obligations.ReadsChangeNothingAndWritesAreIdempotent : Prop :=
  (∀ (s : State) (off : BitVec 16) (size : AccessSize), ∃ x n,
    s.busAccess (.read off size) = { s with bus := x, busyReads := n }) ∧
  (∀ (s : State) (off : BitVec 16) (size : AccessSize) (v : Word), s.status.busy = false → off ≠ 0x18 →
    (s.busAccess (.write off size v)).busAccess (.write off size v) = s.busAccess (.write off size v))

/-- A read of n bytes of an idle block's TBUF returns those bytes, the lowest index least significant, and
changes nothing else; a write of n bytes stores exactly those bytes in the same order, and the same read then
returns the value, at the access's size; nothing else changes (`20_memory.md` sections 2 and 3). -/
def Obligations.TextWriteStoresItsBytesAndReadsBack : Prop :=
  ∀ (s : State) (off : BitVec 16) (size : AccessSize), s.rstN = true → s.status.busy = false →
    0x1000 ≤ off.toNat → ¬ IsBusError s.cfg (.read off size) →
    let i := off.toNat - 0x1000
    let n := accessBytes (.read off size)
    s.busAccess (.read off size) = { s with bus := .data (BitVec.ofNat 64 (packedBytes s.tbuf i n)) } ∧
    ∀ v : Word,
      let t := s.busAccess (.write off size v)
      t = { s with tbuf := t.tbuf, bus := .written } ∧
      (∀ j, t.tbuf.byte j =
        if i ≤ j ∧ j < i + n then BitVec.ofNat 8 (v.toNat / 2 ^ (8 * (j - i))) else s.tbuf.byte j) ∧
      (t.busAccess (.read off size)).bus = .data (BitVec.ofNat 64 (v.toNat % 2 ^ (8 * n)))

/-- `10_state.md` R29: reserved bits read 0 and ignore writes, `CMD` stores all its bits and is no command
where a reserved one is set, and read-only registers and fields ignore writes silently. -/
def Obligations.ReservedBitsReadZeroAndIgnoreWrites : Prop :=
  ∀ (s : State) (v : Word), s.rstN = true → s.status.busy = false →
    ((s.busAccess (writeAt 0x08 v)).busAccess (readAt 0x08)).bus = .data (BitVec.ofNat 64 (v.toNat % 2)) ∧
    ((s.busAccess (writeAt 0x58 v)).busAccess (readAt 0x58)).bus =
      .data (BitVec.ofNat 64 (v.toNat % 2 ^ 16)) ∧
    ((s.busAccess (writeAt 0x18 v)).busAccess (readAt 0x18)).bus = .data v ∧
    (v.toNat / 2 ^ 24 ≠ 0 → ∃ e, decode v = .error e) ∧
    s.busAccess (writeAt 0x10 v) =
      { s with
        status := { s.status with
          done := s.status.done && !v.getLsbD 1, werr := s.status.werr && !v.getLsbD 2 }
        bus := .written } ∧
    (∃ x : Word, (s.busAccess (readAt 0x10)).bus = .data x ∧ x.toNat < 2 ^ 8 ∧ x.getLsbD 3 = false) ∧
    (∃ x : Word, (s.busAccess (readAt 0x60)).bus = .data x ∧ x.toNat < 2 ^ 40) ∧
    (∀ off ∈ [0x00, 0x48, 0x50, 0x60], s.busAccess (writeAt off v) = { s with bus := .written })

/-- `10_state.md` R30: the constant register `ID`, and its value at the default LMAX. -/
def Obligations.IdRegisterIsTheConstant : Prop :=
  (∀ s : State, s.rstN = true →
    s.busAccess (readAt 0x00) =
      { s with bus := .data (BitVec.ofNat 64 (1 * 2 ^ 48 + s.cfg.lmax * 2 ^ 32 + 0x44434E56)) }) ∧
  (∀ s : State, s.rstN = true → s.cfg.lmax = 256 →
    (s.busAccess (readAt 0x00)).bus = .data 0x0001010044434E56)

/-- The registers of an idle block as the host reads them, each field at its bits, and as it writes them:
each half of an operand is stored alone, `CTRL` stores its bit 0 and `TLEN` its low 16 bits, and nothing else
changes (`10_state.md` sections 2 and 5). -/
def Obligations.RegistersReadBackWhatTheyHold : Prop :=
  ∀ (s : State) (v : Word), s.rstN = true → s.status.busy = false →
    s.busAccess (writeAt 0x20 v) = { s with a := ⟨v, s.a.hi⟩, bus := .written } ∧
    s.busAccess (writeAt 0x28 v) = { s with a := ⟨s.a.lo, v⟩, bus := .written } ∧
    s.busAccess (writeAt 0x30 v) = { s with b := ⟨v, s.b.hi⟩, bus := .written } ∧
    s.busAccess (writeAt 0x38 v) = { s with b := ⟨s.b.lo, v⟩, bus := .written } ∧
    s.busAccess (writeAt 0x40 v) = { s with k := v, bus := .written } ∧
    s.busAccess (writeAt 0x08 v) = { s with ie := v.getLsbD 0, bus := .written } ∧
    s.busAccess (writeAt 0x58 v) = { s with tlen := BitVec.ofNat 16 v.toNat, bus := .written } ∧
    (∀ p ∈ [(0x08, BitVec.ofNat 64 s.ie.toNat), (0x18, s.cmd), (0x58, BitVec.ofNat 64 s.tlen.toNat), (0x20, s.a.lo), (0x28, s.a.hi), (0x30, s.b.lo), (0x38, s.b.hi), (0x40, s.k), (0x48, s.r.lo),
        (0x50, s.r.hi),
        (0x10, BitVec.ofNat 64 (2 * s.status.done.toNat + 4 * s.status.werr.toNat + 16 * s.status.err.toNat)),
        (0x60, BitVec.ofNat 64
          (s.errInfo.pos.toNat + 2 ^ 16 * s.errInfo.ord.toNat + 2 ^ 32 * s.errInfo.lim.toNat))],
      s.busAccess (readAt p.1) = { s with bus := .data p.2 })

/-! ## Reset -/

/-- `10_state.md` R48: the values after reset, those of the state `reset` and those that driving `rst_n`
low gives any state; TBUF lists no byte, so each is its free value. -/
def Obligations.ResetStateHasTheResetValues : Prop :=
  (∀ s : State, (s.drivePin false).readReg .id = s.readReg .id) ∧
  ∀ s : State, ∀ t ∈ [State.reset, s.drivePin false],
    t.RegistersReset ∧ t.irq = false ∧ ∀ i, t.tbuf.byte i = Config.freeTbufByte t.tbuf.epoch i

/-- Reset in any state, a command in flight included: every register at its reset value, no interrupt, TBUF
another free draw (the next draw number is log entry 4). While `rst_n` is low no access is answered or has an
effect, and release goes on from there (`70_reset_and_hazards.md` section 1; that such an access is lost is
log entry 8). -/
def Obligations.ResetAbandonsTheCommandInFlight : Prop :=
  (∀ s : State, (s.drivePin false).RegistersReset ∧ (s.drivePin false).irq = false ∧
    (s.drivePin false).rstN = false ∧ (s.drivePin false).cfg = s.cfg ∧
    ∀ i, (s.drivePin false).tbuf.byte i = Config.freeTbufByte (s.tbuf.epoch + 1) i) ∧
  (∀ (s : State) (x : BusAccess), s.rstN = false → s.busAccess x = { s with bus := .unanswered }) ∧
  (∀ s : State, s.drivePin true = { s with rstN := true })

/-! ## The whole machine -/

/-- The invariants hold after reset. -/
def Obligations.InvariantsHoldAtReset : Prop := State.reset.Inv

/-- Every step keeps the invariants, from every state that has them. -/
def Obligations.EveryStepKeepsTheInvariants : Prop :=
  ∀ s t : State, s.Inv → step s = .next t → t.Inv

/-- "Nothing in the block is stuck": every step of every state goes on, so no command ever asks TBUF or
the ROM for something that does not exist. -/
def Obligations.EveryStepGoesOn : Prop := ∀ s : State, GoesOn (step s)

/-- When the turns still to come have been taken and the engine has had one more, the block is idle; and a
command in flight that no turn resets completes, by a step that clears `BUSY` and sets `DONE`, the word in
`CMD` still its own (`70_reset_and_hazards.md` section 3; the schedule is log entries 1 and 2). -/
def Obligations.EveryCommandCompletes : Prop :=
  (∀ s : State, ∃ t, Host.Core.run Sys2Proof.core (s.schedule.length + 1) s = .next t ∧
    t.status.busy = false ∧ t.schedule = []) ∧
  (∀ s : State, s.status.busy = true → Turn.resetPin false ∉ s.schedule →
    ∃ k t u, k ≤ s.schedule.length ∧ Host.Core.run Sys2Proof.core k s = .next t ∧
      t.status.busy = true ∧ t.cmd = s.cmd ∧ step t = .next u ∧ u.status.busy = false ∧ u.status.done = true)

/-- `BUSY` is cleared only by the completion of the word in `CMD`, with all its writes, or by reset. -/
def Obligations.BusyClearsOnlyByCompletionOrReset : Prop :=
  ∀ s t : State, step s = .next t → s.status.busy = true → t.status.busy = false →
    (s.schedule = [] ∧ complete s = .next t) ∨
    (∃ rest, s.schedule = .engine :: rest ∧ complete { s with schedule := rest } = .next t) ∨
    (∃ rest, s.schedule = .resetPin false :: rest)

/-- A completion changes no operand and none of `CMD`, `CTRL`, `WERR`; only a successful ENC command
changes TBUF or TLEN (`10_state.md` section 9, `43_encoder.md` section 2). -/
def Obligations.CompletionKeepsOperands : Prop :=
  ∀ s t : State, complete s = .next t →
    t = { s with r := t.r, status := ⟨false, true, s.status.werr, t.status.err⟩,
                 errInfo := t.errInfo, tbuf := t.tbuf, tlen := t.tlen } ∧
    ((t.tbuf = s.tbuf ∧ t.tlen = s.tlen) ∨
      (t.status.err = 0 ∧ t.r = s.r ∧ ∃ scale, decode s.cmd = .ok (.enc32 scale) ∨
        decode s.cmd = .ok (.enc128 scale)))

/-- The command always sees the operands of its acceptance: whatever bus accesses the host makes before
the completion, the results and the operands are those of the completion without them
(`20_memory.md` section 6, `95_test_vectors.md` P5; the schedule is log entries 1 and 2). -/
def Obligations.HostAccessesWhileBusyDoNotDisturbTheCommand : Prop :=
  ∀ (s : State) (accesses : List BusAccess) (rest : List Turn), s.status.busy = true →
    ∃ t u, complete s = .next u ∧
      Host.Core.run Sys2Proof.core (accesses.length + 1)
        { s with schedule := accesses.map .host ++ .engine :: rest } = .next t ∧
      t.r = u.r ∧ t.status.err = u.status.err ∧ t.errInfo = u.errInfo ∧ t.tlen = u.tlen ∧
      t.tbuf = u.tbuf ∧ t.a = u.a ∧ t.b = u.b ∧ t.k = u.k ∧ t.cmd = u.cmd ∧
      t.status.busy = false ∧ t.status.done = true ∧ t.schedule = rest
end

