-- ==== Sys2Proof/Laws/State.lean ====
section
/-! SUPPORT. One lemma per field per named update of the state, so that no proof unfolds a record
update. -/

namespace Sys2Proof.Machine

variable (s : State)

/-! ## setR -/

@[simp] theorem State.setR_a (v : DoubleWidth) : (s.setR v).a = s.a := rfl
@[simp] theorem State.setR_b (v : DoubleWidth) : (s.setR v).b = s.b := rfl
@[simp] theorem State.setR_k (v : DoubleWidth) : (s.setR v).k = s.k := rfl
@[simp] theorem State.setR_r (v : DoubleWidth) : (s.setR v).r = v := rfl
@[simp] theorem State.setR_ie (v : DoubleWidth) : (s.setR v).ie = s.ie := rfl
@[simp] theorem State.setR_status (v : DoubleWidth) : (s.setR v).status = s.status := rfl
@[simp] theorem State.setR_cmd (v : DoubleWidth) : (s.setR v).cmd = s.cmd := rfl
@[simp] theorem State.setR_tlen (v : DoubleWidth) : (s.setR v).tlen = s.tlen := rfl
@[simp] theorem State.setR_errInfo (v : DoubleWidth) : (s.setR v).errInfo = s.errInfo := rfl
@[simp] theorem State.setR_tbuf (v : DoubleWidth) : (s.setR v).tbuf = s.tbuf := rfl
@[simp] theorem State.setR_cfg (v : DoubleWidth) : (s.setR v).cfg = s.cfg := rfl
@[simp] theorem State.setR_rstN (v : DoubleWidth) : (s.setR v).rstN = s.rstN := rfl
@[simp] theorem State.setR_bus (v : DoubleWidth) : (s.setR v).bus = s.bus := rfl
@[simp] theorem State.setR_busyReads (v : DoubleWidth) : (s.setR v).busyReads = s.busyReads := rfl
@[simp] theorem State.setR_schedule (v : DoubleWidth) : (s.setR v).schedule = s.schedule := rfl

/-! ## publish -/

@[simp] theorem State.publish_a (c : ErrCode) (e : ErrInfo) : (s.publish c e).a = s.a := rfl
@[simp] theorem State.publish_b (c : ErrCode) (e : ErrInfo) : (s.publish c e).b = s.b := rfl
@[simp] theorem State.publish_k (c : ErrCode) (e : ErrInfo) : (s.publish c e).k = s.k := rfl
@[simp] theorem State.publish_r (c : ErrCode) (e : ErrInfo) : (s.publish c e).r = s.r := rfl
@[simp] theorem State.publish_ie (c : ErrCode) (e : ErrInfo) : (s.publish c e).ie = s.ie := rfl
@[simp] theorem State.publish_status (c : ErrCode) (e : ErrInfo) : (s.publish c e).status = ⟨false, true, s.status.werr, c.code⟩ := rfl
@[simp] theorem State.publish_cmd (c : ErrCode) (e : ErrInfo) : (s.publish c e).cmd = s.cmd := rfl
@[simp] theorem State.publish_tlen (c : ErrCode) (e : ErrInfo) : (s.publish c e).tlen = s.tlen := rfl
@[simp] theorem State.publish_errInfo (c : ErrCode) (e : ErrInfo) : (s.publish c e).errInfo = e := rfl
@[simp] theorem State.publish_tbuf (c : ErrCode) (e : ErrInfo) : (s.publish c e).tbuf = s.tbuf := rfl
@[simp] theorem State.publish_cfg (c : ErrCode) (e : ErrInfo) : (s.publish c e).cfg = s.cfg := rfl
@[simp] theorem State.publish_rstN (c : ErrCode) (e : ErrInfo) : (s.publish c e).rstN = s.rstN := rfl
@[simp] theorem State.publish_bus (c : ErrCode) (e : ErrInfo) : (s.publish c e).bus = s.bus := rfl
@[simp] theorem State.publish_busyReads (c : ErrCode) (e : ErrInfo) : (s.publish c e).busyReads = s.busyReads := rfl
@[simp] theorem State.publish_schedule (c : ErrCode) (e : ErrInfo) : (s.publish c e).schedule = s.schedule := rfl

/-! ## raise -/

@[simp] theorem State.raise_a (e : Raised) : (s.raise e).a = s.a := rfl
@[simp] theorem State.raise_b (e : Raised) : (s.raise e).b = s.b := rfl
@[simp] theorem State.raise_k (e : Raised) : (s.raise e).k = s.k := rfl
@[simp] theorem State.raise_r (e : Raised) : (s.raise e).r = ⟨0, 0⟩ := rfl
@[simp] theorem State.raise_ie (e : Raised) : (s.raise e).ie = s.ie := rfl
@[simp] theorem State.raise_status (e : Raised) : (s.raise e).status = ⟨false, true, s.status.werr, e.code.code⟩ := rfl
@[simp] theorem State.raise_cmd (e : Raised) : (s.raise e).cmd = s.cmd := rfl
@[simp] theorem State.raise_tlen (e : Raised) : (s.raise e).tlen = s.tlen := rfl
@[simp] theorem State.raise_errInfo (e : Raised) : (s.raise e).errInfo = e.info := rfl
@[simp] theorem State.raise_tbuf (e : Raised) : (s.raise e).tbuf = s.tbuf := rfl
@[simp] theorem State.raise_cfg (e : Raised) : (s.raise e).cfg = s.cfg := rfl
@[simp] theorem State.raise_rstN (e : Raised) : (s.raise e).rstN = s.rstN := rfl
@[simp] theorem State.raise_bus (e : Raised) : (s.raise e).bus = s.bus := rfl
@[simp] theorem State.raise_busyReads (e : Raised) : (s.raise e).busyReads = s.busyReads := rfl
@[simp] theorem State.raise_schedule (e : Raised) : (s.raise e).schedule = s.schedule := rfl

/-! ## accept -/

@[simp] theorem State.accept_a (w : Word) : (s.accept w).a = s.a := rfl
@[simp] theorem State.accept_b (w : Word) : (s.accept w).b = s.b := rfl
@[simp] theorem State.accept_k (w : Word) : (s.accept w).k = s.k := rfl
@[simp] theorem State.accept_r (w : Word) : (s.accept w).r = s.r := rfl
@[simp] theorem State.accept_ie (w : Word) : (s.accept w).ie = s.ie := rfl
@[simp] theorem State.accept_status (w : Word) : (s.accept w).status = ⟨true, false, s.status.werr, s.status.err⟩ := rfl
@[simp] theorem State.accept_cmd (w : Word) : (s.accept w).cmd = w := rfl
@[simp] theorem State.accept_tlen (w : Word) : (s.accept w).tlen = s.tlen := rfl
@[simp] theorem State.accept_errInfo (w : Word) : (s.accept w).errInfo = s.errInfo := rfl
@[simp] theorem State.accept_tbuf (w : Word) : (s.accept w).tbuf = s.tbuf := rfl
@[simp] theorem State.accept_cfg (w : Word) : (s.accept w).cfg = s.cfg := rfl
@[simp] theorem State.accept_rstN (w : Word) : (s.accept w).rstN = s.rstN := rfl
@[simp] theorem State.accept_bus (w : Word) : (s.accept w).bus = s.bus := rfl
@[simp] theorem State.accept_busyReads (w : Word) : (s.accept w).busyReads = s.busyReads := rfl
@[simp] theorem State.accept_schedule (w : Word) : (s.accept w).schedule = s.schedule := rfl

/-! ## flagWriteError -/

@[simp] theorem State.flagWriteError_a : s.flagWriteError.a = s.a := rfl
@[simp] theorem State.flagWriteError_b : s.flagWriteError.b = s.b := rfl
@[simp] theorem State.flagWriteError_k : s.flagWriteError.k = s.k := rfl
@[simp] theorem State.flagWriteError_r : s.flagWriteError.r = s.r := rfl
@[simp] theorem State.flagWriteError_ie : s.flagWriteError.ie = s.ie := rfl
@[simp] theorem State.flagWriteError_status : s.flagWriteError.status = ⟨s.status.busy, s.status.done, true, s.status.err⟩ := rfl
@[simp] theorem State.flagWriteError_cmd : s.flagWriteError.cmd = s.cmd := rfl
@[simp] theorem State.flagWriteError_tlen : s.flagWriteError.tlen = s.tlen := rfl
@[simp] theorem State.flagWriteError_errInfo : s.flagWriteError.errInfo = s.errInfo := rfl
@[simp] theorem State.flagWriteError_tbuf : s.flagWriteError.tbuf = s.tbuf := rfl
@[simp] theorem State.flagWriteError_cfg : s.flagWriteError.cfg = s.cfg := rfl
@[simp] theorem State.flagWriteError_rstN : s.flagWriteError.rstN = s.rstN := rfl
@[simp] theorem State.flagWriteError_bus : s.flagWriteError.bus = s.bus := rfl
@[simp] theorem State.flagWriteError_busyReads : s.flagWriteError.busyReads = s.busyReads := rfl
@[simp] theorem State.flagWriteError_schedule : s.flagWriteError.schedule = s.schedule := rfl

/-! ## answer -/

@[simp] theorem State.answer_a (x : BusAnswer) : (s.answer x).a = s.a := rfl
@[simp] theorem State.answer_b (x : BusAnswer) : (s.answer x).b = s.b := rfl
@[simp] theorem State.answer_k (x : BusAnswer) : (s.answer x).k = s.k := rfl
@[simp] theorem State.answer_r (x : BusAnswer) : (s.answer x).r = s.r := rfl
@[simp] theorem State.answer_ie (x : BusAnswer) : (s.answer x).ie = s.ie := rfl
@[simp] theorem State.answer_status (x : BusAnswer) : (s.answer x).status = s.status := rfl
@[simp] theorem State.answer_cmd (x : BusAnswer) : (s.answer x).cmd = s.cmd := rfl
@[simp] theorem State.answer_tlen (x : BusAnswer) : (s.answer x).tlen = s.tlen := rfl
@[simp] theorem State.answer_errInfo (x : BusAnswer) : (s.answer x).errInfo = s.errInfo := rfl
@[simp] theorem State.answer_tbuf (x : BusAnswer) : (s.answer x).tbuf = s.tbuf := rfl
@[simp] theorem State.answer_cfg (x : BusAnswer) : (s.answer x).cfg = s.cfg := rfl
@[simp] theorem State.answer_rstN (x : BusAnswer) : (s.answer x).rstN = s.rstN := rfl
@[simp] theorem State.answer_bus (x : BusAnswer) : (s.answer x).bus = x := rfl
@[simp] theorem State.answer_busyReads (x : BusAnswer) : (s.answer x).busyReads = s.busyReads := rfl
@[simp] theorem State.answer_schedule (x : BusAnswer) : (s.answer x).schedule = s.schedule := rfl

/-! ## countBusyRead -/

@[simp] theorem State.countBusyRead_a : s.countBusyRead.a = s.a := rfl
@[simp] theorem State.countBusyRead_b : s.countBusyRead.b = s.b := rfl
@[simp] theorem State.countBusyRead_k : s.countBusyRead.k = s.k := rfl
@[simp] theorem State.countBusyRead_r : s.countBusyRead.r = s.r := rfl
@[simp] theorem State.countBusyRead_ie : s.countBusyRead.ie = s.ie := rfl
@[simp] theorem State.countBusyRead_status : s.countBusyRead.status = s.status := rfl
@[simp] theorem State.countBusyRead_cmd : s.countBusyRead.cmd = s.cmd := rfl
@[simp] theorem State.countBusyRead_tlen : s.countBusyRead.tlen = s.tlen := rfl
@[simp] theorem State.countBusyRead_errInfo : s.countBusyRead.errInfo = s.errInfo := rfl
@[simp] theorem State.countBusyRead_tbuf : s.countBusyRead.tbuf = s.tbuf := rfl
@[simp] theorem State.countBusyRead_cfg : s.countBusyRead.cfg = s.cfg := rfl
@[simp] theorem State.countBusyRead_rstN : s.countBusyRead.rstN = s.rstN := rfl
@[simp] theorem State.countBusyRead_bus : s.countBusyRead.bus = s.bus := rfl
@[simp] theorem State.countBusyRead_busyReads : s.countBusyRead.busyReads = s.busyReads + 1 := rfl
@[simp] theorem State.countBusyRead_schedule : s.countBusyRead.schedule = s.schedule := rfl

/-! ## withSchedule -/

@[simp] theorem State.withSchedule_a (l : List Turn) : (s.withSchedule l).a = s.a := rfl
@[simp] theorem State.withSchedule_b (l : List Turn) : (s.withSchedule l).b = s.b := rfl
@[simp] theorem State.withSchedule_k (l : List Turn) : (s.withSchedule l).k = s.k := rfl
@[simp] theorem State.withSchedule_r (l : List Turn) : (s.withSchedule l).r = s.r := rfl
@[simp] theorem State.withSchedule_ie (l : List Turn) : (s.withSchedule l).ie = s.ie := rfl
@[simp] theorem State.withSchedule_status (l : List Turn) : (s.withSchedule l).status = s.status := rfl
@[simp] theorem State.withSchedule_cmd (l : List Turn) : (s.withSchedule l).cmd = s.cmd := rfl
@[simp] theorem State.withSchedule_tlen (l : List Turn) : (s.withSchedule l).tlen = s.tlen := rfl
@[simp] theorem State.withSchedule_errInfo (l : List Turn) : (s.withSchedule l).errInfo = s.errInfo := rfl
@[simp] theorem State.withSchedule_tbuf (l : List Turn) : (s.withSchedule l).tbuf = s.tbuf := rfl
@[simp] theorem State.withSchedule_cfg (l : List Turn) : (s.withSchedule l).cfg = s.cfg := rfl
@[simp] theorem State.withSchedule_rstN (l : List Turn) : (s.withSchedule l).rstN = s.rstN := rfl
@[simp] theorem State.withSchedule_bus (l : List Turn) : (s.withSchedule l).bus = s.bus := rfl
@[simp] theorem State.withSchedule_busyReads (l : List Turn) : (s.withSchedule l).busyReads = s.busyReads := rfl
@[simp] theorem State.withSchedule_schedule (l : List Turn) : (s.withSchedule l).schedule = l := rfl

/-! ## releaseReset -/

@[simp] theorem State.releaseReset_a : s.releaseReset.a = s.a := rfl
@[simp] theorem State.releaseReset_b : s.releaseReset.b = s.b := rfl
@[simp] theorem State.releaseReset_k : s.releaseReset.k = s.k := rfl
@[simp] theorem State.releaseReset_r : s.releaseReset.r = s.r := rfl
@[simp] theorem State.releaseReset_ie : s.releaseReset.ie = s.ie := rfl
@[simp] theorem State.releaseReset_status : s.releaseReset.status = s.status := rfl
@[simp] theorem State.releaseReset_cmd : s.releaseReset.cmd = s.cmd := rfl
@[simp] theorem State.releaseReset_tlen : s.releaseReset.tlen = s.tlen := rfl
@[simp] theorem State.releaseReset_errInfo : s.releaseReset.errInfo = s.errInfo := rfl
@[simp] theorem State.releaseReset_tbuf : s.releaseReset.tbuf = s.tbuf := rfl
@[simp] theorem State.releaseReset_cfg : s.releaseReset.cfg = s.cfg := rfl
@[simp] theorem State.releaseReset_rstN : s.releaseReset.rstN = true := rfl
@[simp] theorem State.releaseReset_bus : s.releaseReset.bus = s.bus := rfl
@[simp] theorem State.releaseReset_busyReads : s.releaseReset.busyReads = s.busyReads := rfl
@[simp] theorem State.releaseReset_schedule : s.releaseReset.schedule = s.schedule := rfl

/-! ## assertReset -/

@[simp] theorem State.assertReset_a : s.assertReset.a = ⟨0, 0⟩ := rfl
@[simp] theorem State.assertReset_b : s.assertReset.b = ⟨0, 0⟩ := rfl
@[simp] theorem State.assertReset_k : s.assertReset.k = 0 := rfl
@[simp] theorem State.assertReset_r : s.assertReset.r = ⟨0, 0⟩ := rfl
@[simp] theorem State.assertReset_ie : s.assertReset.ie = false := rfl
@[simp] theorem State.assertReset_status : s.assertReset.status = ⟨false, false, false, 0⟩ := rfl
@[simp] theorem State.assertReset_cmd : s.assertReset.cmd = 0 := rfl
@[simp] theorem State.assertReset_tlen : s.assertReset.tlen = 0 := rfl
@[simp] theorem State.assertReset_errInfo : s.assertReset.errInfo = ⟨0, 0, 0⟩ := rfl
@[simp] theorem State.assertReset_tbuf : s.assertReset.tbuf = s.tbuf.redraw := rfl
@[simp] theorem State.assertReset_cfg : s.assertReset.cfg = s.cfg := rfl
@[simp] theorem State.assertReset_rstN : s.assertReset.rstN = false := rfl
@[simp] theorem State.assertReset_bus : s.assertReset.bus = .unanswered := rfl
@[simp] theorem State.assertReset_busyReads : s.assertReset.busyReads = s.busyReads := rfl
@[simp] theorem State.assertReset_schedule : s.assertReset.schedule = s.schedule := rfl

end Sys2Proof.Machine
end

