-- ==== Sys2Proof/Laws/Memory.lean ====
section
/-! SUPPORT. TBUF: read after write, the canonical form, and what the engine's and the host's accesses
do to it. -/

namespace Sys2Proof.Machine

/-! ## One byte -/

theorem lookupCell_setCell (l : List Host.Cell) (i j : Nat) (v : Byte) :
    lookupCell (setCell l i v) j = if i = j then some v else lookupCell l j := by
  induction l with
  | nil => simp [setCell, lookupCell]
  | cons c l ih =>
    obtain ⟨n, b⟩ := c
    unfold setCell
    split
    · simp [lookupCell]
    · split
      · subst i
        simp only [lookupCell]
        split <;> rfl
      · rename_i hlt hne
        simp only [lookupCell, ih]
        by_cases hn : n = j
        · subst hn
          simp [hne]
        · simp [hn]

theorem Memory.byte_write (m : Memory) (i j : Nat) (v : Byte) :
    (m.write i v).byte j = if i = j then v else m.byte j := by
  simp only [Memory.byte, Memory.write, lookupCell_setCell]
  split <;> rfl

@[simp] theorem Memory.byte_write_same (m : Memory) (i : Nat) (v : Byte) : (m.write i v).byte i = v := by
  simp [Memory.byte_write]

theorem Memory.byte_write_other (m : Memory) {i j : Nat} (v : Byte) (h : i ≠ j) :
    (m.write i v).byte j = m.byte j := by
  simp [Memory.byte_write, h]

@[simp] theorem Memory.write_epoch (m : Memory) (i : Nat) (v : Byte) : (m.write i v).epoch = m.epoch := rfl

@[simp] theorem Memory.byte_redraw (m : Memory) (i : Nat) :
    m.redraw.byte i = Config.freeTbufByte (m.epoch + 1) i := rfl

/-! ## The canonical form -/

theorem mem_setCell {l : List Host.Cell} {i : Nat} {v : Byte} {x : Host.Cell}
    (h : x ∈ setCell l i v) : x = (i, v) ∨ x ∈ l := by
  induction l with
  | nil => simpa [setCell] using h
  | cons c l ih =>
    obtain ⟨n, b⟩ := c
    unfold setCell at h
    split at h
    · simpa using h
    · split at h
      · rcases List.mem_cons.1 h with h | h
        · exact .inl h
        · exact .inr (List.mem_cons_of_mem _ h)
      · rcases List.mem_cons.1 h with h | h
        · exact .inr (h ▸ List.mem_cons_self)
        · exact (ih h).imp_right (List.mem_cons_of_mem _)

theorem setCell_rising {l : List Host.Cell} (i : Nat) (v : Byte)
    (h : l.Pairwise (fun x y => x.1 < y.1)) : (setCell l i v).Pairwise (fun x y => x.1 < y.1) := by
  induction l with
  | nil => simp [setCell]
  | cons c l ih =>
    obtain ⟨n, b⟩ := c
    have ⟨hc, hl⟩ := List.pairwise_cons.1 h
    unfold setCell
    split
    · rename_i hlt
      refine List.pairwise_cons.2 ⟨fun y hy => ?_, h⟩
      rcases List.mem_cons.1 hy with rfl | hy
      · exact hlt
      · exact hlt.trans (hc y hy)
    · split
      · subst i
        exact List.pairwise_cons.2 ⟨hc, hl⟩
      · refine List.pairwise_cons.2 ⟨fun y hy => ?_, ih hl⟩
        rcases mem_setCell hy with rfl | hy
        · show n < i
          omega
        · exact hc y hy

theorem Memory.wf_write {m : Memory} {lmax i : Nat} (v : Byte) (h : m.wf lmax) (hi : i < lmax) :
    (m.write i v).wf lmax :=
  ⟨setCell_rising i v h.1, fun x hx => by
    rcases mem_setCell hx with rfl | hx
    · exact hi
    · exact h.2 x hx⟩

theorem Memory.wf_redraw (m : Memory) (lmax : Nat) : m.redraw.wf lmax := by
  simp [Memory.wf, Memory.redraw]

theorem reset_tbuf_wf : State.reset.tbuf.wf State.reset.cfg.lmax := by
  simp [Memory.wf, State.reset]

end Sys2Proof.Machine

namespace Sys2Proof

/-! ## LMAX -/

theorem Config.lmax_ge (c : Config) : 48 ≤ c.lmax := by
  simp [Config.lmax]

theorem Config.lmax_le (c : Config) : c.lmax ≤ 4096 := by
  have := c.lmaxBlocks.isLt
  simp only [Config.lmax]
  omega

theorem Config.eight_dvd_lmax (c : Config) : c.lmax % 8 = 0 := by
  simp only [Config.lmax]
  omega

/-- Every legal value of LMAX is the LMAX of exactly one configuration (`00_scope.md` R6). -/
theorem Config.existsUnique_lmax {n : Nat} (h1 : 48 ≤ n) (h2 : n ≤ 4096) (h3 : n % 8 = 0) :
    ∃! c : Config, c.lmax = n := by
  refine ⟨⟨⟨(n - 48) / 8, by omega⟩⟩, by simp only [Config.lmax]; omega, fun c hc => ?_⟩
  obtain ⟨k⟩ := c
  simp only [Config.lmax] at hc
  exact congrArg Config.mk (Fin.ext (by simp only; omega))

end Sys2Proof

namespace Sys2Proof.Machine

/-! ## The engine's accesses -/

theorem State.memRead_eq (s : State) {i : Nat} (h : i < s.cfg.lmax) : s.memRead i = .ok (s.tbuf.byte i) := by
  simp [State.memRead, h]

/-- Reading a run of bytes that lies inside TBUF answers those bytes. -/
theorem State.readText_eq (s : State) (count i : Nat) (h : i + count ≤ s.cfg.lmax) :
    s.readText count i = .ok ((List.range' i count).map s.tbuf.byte) := by
  induction count generalizing i with
  | zero => rfl
  | succ n ih =>
    unfold State.readText
    rw [s.memRead_eq (by omega), ih (i + 1) (by omega)]
    simp [List.range'_succ]

/-- Emitting a run of bytes that ends inside TBUF writes exactly those bytes and keeps the canonical form. -/
theorem Memory.emit_spec {lmax : Nat} (bs : List Byte) (m : Memory) (n : Nat) (h : n + bs.length ≤ lmax) :
    ∃ m', Memory.emit lmax m n bs = .ok m' ∧ m'.epoch = m.epoch ∧ (m.wf lmax → m'.wf lmax) ∧
      (∀ i, m'.byte i = if h : n ≤ i ∧ i < n + bs.length then bs[i - n]'(by omega) else m.byte i) := by
  induction bs generalizing m n with
  | nil =>
    refine ⟨m, rfl, rfl, id, fun i => ?_⟩
    have : ¬(n ≤ i ∧ i < n + ([] : List Byte).length) := by simp
    simp
  | cons b bs ih =>
    simp only [List.length_cons] at h
    obtain ⟨m', he, hep, hwf, hb⟩ := ih (m.write n b) (n + 1) (by omega)
    refine ⟨m', ?_, hep, fun hm => hwf (Memory.wf_write b hm (by omega)), fun i => ?_⟩
    · unfold Memory.emit
      rw [if_pos (by omega), he]
    · rw [hb i]
      by_cases h1 : n + 1 ≤ i ∧ i < n + 1 + bs.length
      · have h2 : n ≤ i ∧ i < n + (b :: bs).length := by
          simp only [List.length_cons]
          omega
        rw [dif_pos h1, dif_pos h2]
        have : i - n = (i - (n + 1)) + 1 := by omega
        simp [this]
      · rw [dif_neg h1, Memory.byte_write]
        by_cases hi : n = i
        · subst hi
          rw [if_pos rfl, dif_pos (by simp)]
          simp
        · have h2 : ¬(n ≤ i ∧ i < n + (b :: bs).length) := by
            simp only [List.length_cons]
            omega
          rw [if_neg hi, dif_neg h2]

/-- The encoder's text, when it fits TBUF: TLEN, the bytes, and the canonical form. -/
theorem State.writeText_spec (s : State) (text : List Byte) (h : text.length ≤ s.cfg.lmax) :
    ∃ m, s.writeText text = .ok { s with tbuf := m, tlen := BitVec.ofNat 16 text.length } ∧
      m.epoch = s.tbuf.epoch + 1 ∧ m.wf s.cfg.lmax ∧
      (∀ (i : Nat) (hi : i < text.length), m.byte i = text[i]) ∧
      (∀ i, text.length ≤ i → m.byte i = Config.freeTbufByte (s.tbuf.epoch + 1) i) := by
  obtain ⟨m, he, hep, hwf, hb⟩ := Memory.emit_spec text s.tbuf.redraw 0 (by simpa using h)
  refine ⟨m, by simp [State.writeText, he], hep, hwf (Memory.wf_redraw _ _), fun i hi => ?_, fun i hi => ?_⟩
  · rw [hb i, dif_pos (by omega)]
    simp
  · rw [hb i, dif_neg (by omega)]
    rfl

/-! ## The host's accesses -/

theorem Memory.writePacked_epoch (count : Nat) (m : Memory) (i v : Nat) :
    (m.writePacked i count v).epoch = m.epoch := by
  induction count generalizing m i v with
  | zero => rfl
  | succ n ih => simp [Memory.writePacked, ih]

theorem Memory.wf_writePacked {lmax : Nat} (count : Nat) {m : Memory} {i : Nat} (v : Nat)
    (h : m.wf lmax) (hi : i + count ≤ lmax) : (m.writePacked i count v).wf lmax := by
  induction count generalizing m i v with
  | zero => exact h
  | succ n ih => exact ih _ (Memory.wf_write _ h (by omega)) (by omega)

/-- A packed write stores the bytes of the number, the lowest index least significant, and no other. -/
theorem Memory.byte_writePacked (count : Nat) (m : Memory) (i v j : Nat) :
    (m.writePacked i count v).byte j =
      if i ≤ j ∧ j < i + count then BitVec.ofNat 8 (v / 256 ^ (j - i)) else m.byte j := by
  induction count generalizing m i v with
  | zero =>
    rw [if_neg (by omega)]
    rfl
  | succ n ih =>
    simp only [Memory.writePacked]
    rw [ih, Memory.byte_write]
    by_cases hij : i = j
    · subst hij
      rw [if_neg (by omega), if_pos rfl, if_pos (by omega)]
      simp
    · by_cases h : i + 1 ≤ j ∧ j < i + 1 + n
      · rw [if_pos h, if_pos (by omega)]
        have : j - i = (j - (i + 1)) + 1 := by omega
        rw [this, pow_succ', Nat.div_div_eq_div_mul]
      · rw [if_neg h, if_neg hij, if_neg (by omega)]

theorem Memory.readPacked_lt (count : Nat) (m : Memory) (i : Nat) : m.readPacked i count < 256 ^ count := by
  induction count generalizing i with
  | zero => simp [Memory.readPacked]
  | succ n ih =>
    have h1 := ih (i + 1)
    have h2 := (m.byte i).isLt
    simp only [Memory.readPacked, pow_succ]
    omega

/-- A packed read is the sum of the bytes at their places, the lowest index least significant. -/
theorem Memory.readPacked_eq_sum (m : Memory) (i count : Nat) :
    m.readPacked i count = ((List.range count).map (fun j => (m.byte (i + j)).toNat * 2 ^ (8 * j))).sum := by
  induction count generalizing i with
  | zero => rfl
  | succ n ih =>
    rw [Memory.readPacked, ih, List.range_succ_eq_map, List.map_cons, List.sum_cons, ← List.sum_map_mul_left,
      List.map_map]
    simp only [Nat.add_zero, Nat.mul_zero, pow_zero, Nat.mul_one, Nat.add_left_cancel_iff]
    congr 1
    refine List.map_congr_left fun j _ => ?_
    simp only [Function.comp_apply, Nat.succ_eq_add_one, Nat.mul_add, pow_add]
    rw [Nat.add_assoc i 1 j, Nat.add_comm 1 j]
    ring

end Sys2Proof.Machine
end

