-- ==== Sys2Proof/Laws/Bus.lean ====
section
/-! SUPPORT. What a bus access can do: what each offset reaches, and the cases of a read and of a write. -/

namespace Sys2Proof.Machine

theorem AccessSize.bytes_dvd_eight (n : AccessSize) : 8 % n.bytes = 0 := by
  cases n <;> rfl

theorem AccessSize.bytes_pos (n : AccessSize) : 0 < n.bytes := by
  cases n <;> decide

/-- An offset below 0x68 holds a register exactly when it is a multiple of 8 (`10_state.md` R28). -/
theorem BusReg.atOffset_isSome {off : Nat} (h : off < 0x68) :
    (BusReg.atOffset off).isSome = true ↔ off % 8 = 0 := by
  have : ∀ k : Fin 0x68, (BusReg.atOffset k.val).isSome = true ↔ k.val % 8 = 0 := by decide
  exact this ⟨off, h⟩

theorem busTarget_eq_reg {c : Config} {off : BitVec 16} {size : AccessSize} {x : BusReg} :
    busTarget c off size = some (.reg x) ↔
      off.toNat < 0x68 ∧ size = .b8 ∧ BusReg.atOffset off.toNat = some x := by
  unfold busTarget
  split
  · split
    · simp_all
    · simp_all
  · split <;> simp_all

theorem busTarget_eq_text {c : Config} {off : BitVec 16} {size : AccessSize} {i : Nat} :
    busTarget c off size = some (.text i) ↔
      0x1000 ≤ off.toNat ∧ off.toNat < 0x1000 + c.lmax ∧ (off.toNat - 0x1000) % size.bytes = 0 ∧
        i = off.toNat - 0x1000 := by
  unfold busTarget tbufBase
  split
  · rename_i h
    constructor
    · split <;> simp
    · rintro ⟨h1, -⟩
      omega
  · split
    · rename_i h
      simp [h.1, h.2.1, h.2.2, eq_comm]
    · rename_i h
      constructor
      · intro h'
        cases h'
      · rintro ⟨h1, h2, h3, -⟩
        exact absurd ⟨h1, h2, h3⟩ h

theorem busTarget_eq_none {c : Config} {off : BitVec 16} {size : AccessSize} :
    busTarget c off size = none ↔
      (off.toNat < 0x68 ∧ (size ≠ .b8 ∨ off.toNat % 8 ≠ 0)) ∨
      (0x68 ≤ off.toNat ∧ off.toNat < 0x1000) ∨ 0x1000 + c.lmax ≤ off.toNat ∨
      (0x1000 ≤ off.toNat ∧ (off.toNat - 0x1000) % size.bytes ≠ 0) := by
  match h : busTarget c off size with
  | some (.reg x) =>
    have ⟨h1, h2, h3⟩ := busTarget_eq_reg.1 h
    have := (BusReg.atOffset_isSome h1).1 (by simp [h3])
    simp only [reduceCtorEq, false_iff, not_or, not_and]
    refine ⟨fun _ => ?_, ?_, ?_, ?_⟩
    · simp [h2, this]
    all_goals omega
  | some (.text i) =>
    have ⟨h1, h2, h3, h4⟩ := busTarget_eq_text.1 h
    simp only [reduceCtorEq, false_iff, not_or, not_and]
    refine ⟨?_, ?_, ?_, ?_⟩
    all_goals omega
  | none =>
    simp only [true_iff]
    by_contra hcon
    simp only [not_or, not_and, not_lt, ne_eq, Decidable.not_not] at hcon
    obtain ⟨h1, h2, h3, h4⟩ := hcon
    rcases Nat.lt_or_ge off.toNat 0x68 with hlt | hge
    · obtain ⟨hs, h8⟩ := h1 hlt
      obtain ⟨x, hx⟩ := Option.isSome_iff_exists.1 ((BusReg.atOffset_isSome hlt).2 h8)
      have := (busTarget_eq_reg (c := c)).2 ⟨hlt, hs, hx⟩
      rw [h] at this
      cases this
    · have h5 := h2 hge
      have := (busTarget_eq_text (c := c) (size := size) (i := off.toNat - 0x1000)).2
        ⟨h5, by omega, h4 h5, rfl⟩
      rw [h] at this
      cases this

/-- An access that reaches TBUF lies inside it (`20_memory.md` R64). -/
theorem busTarget_text_in_range {c : Config} {off : BitVec 16} {size : AccessSize} {i : Nat}
    (h : busTarget c off size = some (.text i)) : i + size.bytes ≤ c.lmax := by
  have ⟨h1, h2, h3, h4⟩ := busTarget_eq_text.1 h
  have h8 := c.eight_dvd_lmax
  cases size <;> simp only [AccessSize.bytes] at h3 ⊢ <;> omega

/-- All that a read can do: answer, and count an unspecified read (`20_memory.md` R65). -/
theorem State.hostRead_cases (s : State) (off : BitVec 16) (size : AccessSize) :
    ∃ x n, s.hostRead off size = { s with bus := x, busyReads := n } := by
  unfold State.hostRead
  split
  · exact ⟨_, _, rfl⟩
  · split <;> exact ⟨_, _, rfl⟩
  · split <;> exact ⟨_, _, rfl⟩

/-- All that a write of a busy block can do: `CTRL`, the clear bits of `STATUS`, or `WERR`
(`70_reset_and_hazards.md` R257). -/
theorem State.hostWrite_busy (s : State) (h : s.status.busy = true) (off : BitVec 16) (size : AccessSize)
    (v : Word) :
    ∃ ie done werr x, (done = true → s.status.done = true) ∧
      s.hostWrite off size v =
        { s with ie := ie, status := { s.status with done := done, werr := werr }, bus := x } := by
  unfold State.hostWrite
  split
  · exact ⟨s.ie, s.status.done, s.status.werr, .error, id, rfl⟩
  · rename_i x _
    rw [h]
    cases x <;>
      simp only [BusReg.lockedWhileBusy, Bool.and_true, Bool.and_false, if_true, Bool.false_eq_true, if_false,
        State.writeReg, State.flagWriteError, State.answer, Status.clearBits]
    case ctrl => exact ⟨v.getLsbD 0, s.status.done, s.status.werr, .written, id, rfl⟩
    case status => exact ⟨s.ie, _, _, .written, fun hd => (Bool.and_eq_true _ _ ▸ hd).1, rfl⟩
    all_goals first
      | exact ⟨s.ie, s.status.done, s.status.werr, .written, id, rfl⟩
      | exact ⟨s.ie, s.status.done, true, .written, id, rfl⟩
  · rw [if_pos h]
    exact ⟨s.ie, s.status.done, true, .written, id, rfl⟩

/-- All that an access of a busy block can do: the operands, the text, the results and the command keep
their values. -/
theorem State.busAccess_busy (s : State) (h : s.status.busy = true) (x : BusAccess) :
    ∃ ie done werr y n, (done = true → s.status.done = true) ∧
      s.busAccess x =
        { s with ie := ie, status := { s.status with done := done, werr := werr }, bus := y, busyReads := n } := by
  unfold State.busAccess
  split
  · match x with
    | .read off size =>
      obtain ⟨y, n, hr⟩ := s.hostRead_cases off size
      exact ⟨s.ie, s.status.done, s.status.werr, y, n, id, hr⟩
    | .write off size v =>
      obtain ⟨ie, done, werr, y, hd, hw⟩ := s.hostWrite_busy h off size v
      exact ⟨ie, done, werr, y, s.busyReads, hd, hw⟩
  · exact ⟨s.ie, s.status.done, s.status.werr, .unanswered, s.busyReads, id, rfl⟩

end Sys2Proof.Machine
end

