-- ==== Sys2Proof/Laws/Ops.lean ====
section
/-! SUPPORT. What each shared operation can do, said once: 128-bit values and their halves, the ROM, the
end of a command, the completion. -/

namespace Sys2Proof.Machine

/-! ## DoubleWidth -/

theorem DoubleWidth.toNat_value (d : DoubleWidth) : d.value.toNat = d.hi.toNat * 2 ^ 64 + d.lo.toNat := by
  have h := d.lo.isLt
  simp only [DoubleWidth.value, BitVec.toNat_append]
  rw [← Nat.shiftLeft_add_eq_or_of_lt h, Nat.shiftLeft_eq]

@[simp] theorem DoubleWidth.lo_ofValue (v : DWord) : (DoubleWidth.ofValue v).lo = v.extractLsb' 0 64 := rfl

@[simp] theorem DoubleWidth.hi_ofValue (v : DWord) : (DoubleWidth.ofValue v).hi = v.extractLsb' 64 64 := rfl

theorem DoubleWidth.lo_ofValue_toNat (v : DWord) : (DoubleWidth.ofValue v).lo.toNat = v.toNat % 2 ^ 64 := by
  simp [BitVec.extractLsb'_toNat]

theorem DoubleWidth.hi_ofValue_toNat (v : DWord) : (DoubleWidth.ofValue v).hi.toNat = v.toNat / 2 ^ 64 := by
  have := v.isLt
  simp only [DoubleWidth.hi_ofValue, BitVec.extractLsb'_toNat, Nat.shiftRight_eq_div_pow]
  omega

@[simp] theorem DoubleWidth.value_ofValue (v : DWord) : (DoubleWidth.ofValue v).value = v := by
  apply BitVec.eq_of_toNat_eq
  rw [DoubleWidth.toNat_value, DoubleWidth.lo_ofValue_toNat, DoubleWidth.hi_ofValue_toNat]
  omega

theorem DoubleWidth.value_injective {d e : DoubleWidth} (h : d.value = e.value) : d = e := by
  obtain ⟨dl, dh⟩ := d
  obtain ⟨el, eh⟩ := e
  have h := congrArg BitVec.toNat h
  simp only [DoubleWidth.toNat_value] at h
  have h1 := dl.isLt
  have h2 := el.isLt
  congr <;> exact BitVec.eq_of_toNat_eq (by omega)

@[simp] theorem DoubleWidth.ofValue_value (d : DoubleWidth) : DoubleWidth.ofValue d.value = d :=
  DoubleWidth.value_injective (by simp)

/-! ## The ROM -/

theorem romRead_of_le {bank : RomBank} {i : Nat} (h : i ≤ bank.kmax) : romRead bank i = some (10 ^ i) := by
  simp [romRead, h]

theorem romRead_of_lt {bank : RomBank} {i : Nat} (h : bank.kmax < i) : romRead bank i = none := by
  simp [romRead, h]

end Sys2Proof.Machine

namespace Sys2Proof

@[simp] theorem CodecWidth.kmax_bank (w : CodecWidth) : w.bank.kmax = w.pmax := by
  cases w <;> rfl

/-- `10^PMAX(W) < 2^(W-1)`: every legal result fits (`42_decoder.md` R175). -/
theorem CodecWidth.pow_pmax_lt (w : CodecWidth) : 10 ^ w.pmax < 2 ^ (w.bits - 1) := by
  cases w <;> decide

theorem CodecWidth.two_mul_half (w : CodecWidth) : 2 * 2 ^ (w.bits - 1) = w.modulus := by
  cases w <;> decide

theorem CodecWidth.modulus_pos (w : CodecWidth) : 0 < w.modulus := by
  cases w <;> decide

/-- A magnitude has at most D digits (`43_encoder.md` R197). -/
theorem CodecWidth.modulus_le_pow (w : CodecWidth) : w.modulus ≤ 10 ^ w.maxDigits := by
  cases w <;> decide

theorem CodecWidth.operand_lt (w : CodecWidth) (a : Machine.DoubleWidth) : w.operand a < w.modulus :=
  Nat.mod_lt _ w.modulus_pos

end Sys2Proof

namespace Sys2Proof.Machine

/-! ## The end of a command -/

theorem State.finish_ok (s t : State) : s.finish (.ok t) = .next (t.publish .ok ErrInfo.zero) := rfl

theorem State.finish_raise (s : State) (e : Raised) : s.finish (.error (.raise e)) = .next (s.raise e) := rfl

theorem State.finish_fault (s : State) (f : Fault) : s.finish (.error (.fault f)) = .fault f := rfl

/-- All that the end of a command can answer. -/
theorem State.finish_next {s t : State} {x : Except Stop State} (h : s.finish x = .next t) :
    (∃ u, x = .ok u ∧ t = u.publish .ok ErrInfo.zero) ∨ (∃ e, x = .error (.raise e) ∧ t = s.raise e) := by
  match x, h with
  | .ok u, h => exact .inl ⟨u, rfl, by simpa [State.finish] using h.symm⟩
  | .error (.raise e), h => exact .inr ⟨e, rfl, by simpa [State.finish] using h.symm⟩

/-- The completion of a word that is a command. -/
theorem complete_ok {s : State} {i : Instr} (h : decode s.cmd = .ok i) : complete s = exec i s := by
  simp [complete, h]

/-- The completion of a word that is no command (`60_exceptions.md` R216). -/
theorem complete_error {s : State} {e : DecodeError} (h : decode s.cmd = .error e) :
    complete s = .next (s.raise illegalCommand) := by
  simp [complete, h]

theorem ErrCode.code_injective {c d : ErrCode} (h : c.code = d.code) : c = d := by
  cases c <;> cases d <;> first | rfl | (exact absurd h (by decide))

end Sys2Proof.Machine
end

