-- ==== Sys2Proof/Laws/Dec.lean ====
section
/-! SUPPORT. What the two scans of the decoder can do, said once each: what a finished scan has read and
computed, and what a raised error says of the byte that raised it. -/

namespace Sys2Proof.Machine

theorem digitOf_eq_some {c : Byte} {d : Nat} :
    digitOf c = some d ↔ 0x30 ≤ c.toNat ∧ c.toNat ≤ 0x39 ∧ d = c.toNat - 0x30 := by
  unfold digitOf
  split
  · rename_i h
    simp [h.1, h.2, eq_comm]
  · rename_i h
    constructor
    · intro h'
      cases h'
    · intro h'
      exact absurd ⟨h'.1, h'.2.1⟩ h

theorem digitOf_eq_none {c : Byte} : digitOf c = none ↔ ¬(0x30 ≤ c.toNat ∧ c.toNat ≤ 0x39) := by
  unfold digitOf
  split <;> simp_all

theorem digitOf_dot : digitOf dotByte = none := by decide

theorem digitOf_zero_iff {c : Byte} : digitOf c = some 0 ↔ c = 0x30 := by
  rw [digitOf_eq_some]
  constructor
  · intro h
    exact BitVec.eq_of_toNat_eq (by simp; omega)
  · rintro rfl
    decide

/-! ## The integral scan -/

/-- The bytes of the integral part that are counted, once `icount` have been: leading zeros are not,
until the first non-zero digit. -/
def countedFrom (icount : Nat) (l : List Byte) : List Byte :=
  if icount = 0 then l.dropWhile (fun c => c == 0x30) else l

/-- One accumulation step of line 16. -/
def accumulate (w : CodecWidth) (n : Nat) (c : Byte) : Nat := (n * 10 + (c.toNat - 0x30)) % w.modulus

theorem countedFrom_pos {n : Nat} (h : n ≠ 0) (l : List Byte) : countedFrom n l = l := by
  simp [countedFrom, h]

/-- The scan of a text whose integral part is all digits within the budget: it stops behind the first
`'.'`, or at the end. -/
theorem scanIntegral_ok (w : CodecWidth) (budget : Nat) (body : List Byte) (st : IntegralScan)
    (hd : ∀ c ∈ body.takeWhile (fun c => c != dotByte), (digitOf c).isSome = true)
    (hb : st.icount ≤ budget)
    (hc : st.icount + (countedFrom st.icount (body.takeWhile (fun c => c != dotByte))).length ≤ budget) :
    ∃ pos, scanIntegral w budget body st =
      .ok (⟨pos, st.icount + (countedFrom st.icount (body.takeWhile (fun c => c != dotByte))).length,
        (countedFrom st.icount (body.takeWhile (fun c => c != dotByte))).foldl (accumulate w) st.integral⟩,
        (body.dropWhile (fun c => c != dotByte)).tail) := by
  induction body generalizing st with
  | nil => exact ⟨st.pos, by simp [scanIntegral, countedFrom]⟩
  | cons c cs ih =>
    unfold scanIntegral
    by_cases hdot : c = dotByte
    · exact ⟨st.pos + 1, by simp [hdot, countedFrom]⟩
    · have hne : (c != dotByte) = true := by simpa using hdot
      simp only [List.takeWhile_cons, hne, if_true, List.dropWhile_cons] at hd hc ⊢
      obtain ⟨d, hcd⟩ := Option.isSome_iff_exists.1 (hd c List.mem_cons_self)
      have hd' : ∀ c ∈ cs.takeWhile (fun c => c != dotByte), (digitOf c).isSome = true :=
        fun x hx => hd x (List.mem_cons_of_mem _ hx)
      rw [if_neg hdot, hcd]
      simp only
      by_cases hz : d = 0 ∧ st.icount = 0
      · rw [if_pos hz]
        have hc0 : c = 0x30 := digitOf_zero_iff.1 (hz.1 ▸ hcd)
        have hsame : countedFrom st.icount (c :: cs.takeWhile (fun c => c != dotByte)) =
            countedFrom st.icount (cs.takeWhile (fun c => c != dotByte)) := by
          simp [countedFrom, hz.2, hc0]
        rw [hsame] at hc ⊢
        exact ih { st with pos := st.pos + 1 } hd' hb hc
      · have hstep : countedFrom st.icount (c :: cs.takeWhile (fun c => c != dotByte)) =
            c :: cs.takeWhile (fun c => c != dotByte) := by
          by_cases h0 : st.icount = 0
          · have : (c == (0x30 : Byte)) = false := by
              simp only [beq_eq_false_iff_ne]
              rintro rfl
              exact hz ⟨by simpa using (digitOf_zero_iff.2 rfl).symm.trans hcd |>.symm, h0⟩
            simp only [countedFrom, h0, if_true, List.dropWhile_cons, this]
            simp
          · exact countedFrom_pos h0 _
        rw [hstep] at hc ⊢
        simp only [List.length_cons, List.foldl_cons] at hc ⊢
        rw [if_neg hz, if_neg (by omega)]
        have hacc : (st.integral * 10 + d) % w.modulus = accumulate w st.integral c := by
          rw [accumulate, (digitOf_eq_some.1 hcd).2.2]
        have hcf := countedFrom_pos (n := st.icount + 1) (by omega)
          (cs.takeWhile (fun c => c != dotByte))
        obtain ⟨pos, h⟩ := ih ⟨st.pos + 1, st.icount + 1, (st.integral * 10 + d) % w.modulus⟩ hd'
          (by simp only; omega) (by simp only [hcf]; omega)
        refine ⟨pos, ?_⟩
        rw [h]
        simp only [hcf, hacc]
        have : st.icount + 1 + (cs.takeWhile (fun c => c != dotByte)).length =
          st.icount + ((cs.takeWhile (fun c => c != dotByte)).length + 1) := by omega
        rw [this]

/-- A scan that goes through has read digits only, within the budget. -/
theorem scanIntegral_ok_inv {w : CodecWidth} {budget : Nat} {body : List Byte} {st : IntegralScan}
    {x : IntegralScan × List Byte} (h : scanIntegral w budget body st = .ok x) (hb : st.icount ≤ budget) :
    (∀ c ∈ body.takeWhile (fun c => c != dotByte), (digitOf c).isSome = true) ∧
    st.icount + (countedFrom st.icount (body.takeWhile (fun c => c != dotByte))).length ≤ budget := by
  induction body generalizing st with
  | nil => simpa [countedFrom] using hb
  | cons c cs ih =>
    unfold scanIntegral at h
    by_cases hdot : c = dotByte
    · simpa [hdot, countedFrom] using hb
    · have hne : (c != dotByte) = true := by simpa using hdot
      simp only [List.takeWhile_cons, hne, if_true]
      rw [if_neg hdot] at h
      match hcd : digitOf c, h with
      | none, h => cases h
      | some d, h =>
        simp only at h
        by_cases hz : d = 0 ∧ st.icount = 0
        · rw [if_pos hz] at h
          have ⟨h1, h2⟩ := ih h hb
          have hc0 : c = 0x30 := digitOf_zero_iff.1 (hz.1 ▸ hcd)
          refine ⟨fun y hy => ?_, by simpa [countedFrom, hz.2, hc0] using h2⟩
          rcases List.mem_cons.1 hy with rfl | hy
          · simp [hcd]
          · exact h1 y hy
        · rw [if_neg hz] at h
          split at h
          · cases h
          · rename_i hlt
            have ⟨h1, h2⟩ := ih h (by simp only; omega)
            rw [countedFrom_pos (by simp)] at h2
            refine ⟨fun y hy => ?_, ?_⟩
            · rcases List.mem_cons.1 hy with rfl | hy
              · simp [hcd]
              · exact h1 y hy
            · have hle : (countedFrom st.icount (c :: cs.takeWhile (fun c => c != dotByte))).length ≤
                  (cs.takeWhile (fun c => c != dotByte)).length + 1 := by
                unfold countedFrom
                split
                · exact (List.dropWhile_suffix _).length_le
                · simp
              simp only at h2
              omega

/-- What an error of the integral scan says: the error is the one of the byte at its position, all bytes
before it were scanned, and the bytes after it do not matter. -/
theorem scanIntegral_raise {w : CodecWidth} {budget : Nat} {body : List Byte} {st : IntegralScan}
    {e : Raised} (h : scanIntegral w budget body st = .error (.raise e)) (hb : st.icount ≤ budget) :
    ∃ k c, body[k]? = some c ∧ e.pos = st.pos + k ∧ dotByte ∉ body.take k ∧ c ≠ dotByte ∧
      (∃ x, scanIntegral w budget (body.take k) st = .ok (x, []) ∧
        ((digitOf c = none ∧ e = ⟨.invalidCharacter, e.pos, 0, 0⟩) ∨
          ((digitOf c).isSome = true ∧ x.icount = budget ∧
            e = ⟨.integralOverflow, e.pos, budget + 1, budget⟩))) ∧
      ∀ more, scanIntegral w budget (body.take (k + 1) ++ more) st = .error (.raise e) := by
  induction body generalizing st with
  | nil => cases h
  | cons c cs ih =>
    unfold scanIntegral at h
    by_cases hdot : c = dotByte
    · rw [if_pos hdot] at h
      cases h
    · rw [if_neg hdot] at h
      match hcd : digitOf c, h with
      | none, h =>
        have he : (⟨.invalidCharacter, st.pos, 0, 0⟩ : Raised) = e := by simpa using h
        subst he
        refine ⟨0, c, rfl, rfl, by simp, hdot, ⟨st, rfl, .inl ⟨hcd, rfl⟩⟩, fun more => ?_⟩
        simp [scanIntegral, hdot, hcd]
      | some d, h =>
        simp only at h
        by_cases hz : d = 0 ∧ st.icount = 0
        · rw [if_pos hz] at h
          obtain ⟨k, c', hk, hp, hnd, hcd', ⟨x, hx, hw⟩, hmore⟩ := ih h hb
          refine ⟨k + 1, c', by simpa using hk, by simp only at hp; omega, ?_, hcd', ⟨x, ?_, hw⟩, fun more => ?_⟩
          · simpa [List.take_succ_cons, Ne.symm hdot] using hnd
          · simp only [List.take_succ_cons, scanIntegral, if_neg hdot, hcd, if_pos hz, hx]
          · simp only [List.take_succ_cons, List.cons_append, scanIntegral, if_neg hdot, hcd, if_pos hz]
            exact hmore more
        · rw [if_neg hz] at h
          split at h
          · rename_i hlt
            have he : (⟨.integralOverflow, st.pos, st.icount + 1, budget⟩ : Raised) = e := by simpa using h
            subst he
            refine ⟨0, c, rfl, rfl, by simp, hdot,
              ⟨st, rfl, .inr ⟨by simp [hcd], by omega, ?_⟩⟩, fun more => ?_⟩
            · simp only [Raised.mk.injEq, true_and, and_true]
              omega
            · simp only [List.take_succ_cons, List.cons_append, scanIntegral, if_neg hdot, hcd, if_neg hz,
                if_pos hlt]
          · rename_i hlt
            obtain ⟨k, c', hk, hp, hnd, hcd', ⟨x, hx, hw⟩, hmore⟩ := ih h (by simp only; omega)
            refine ⟨k + 1, c', by simpa using hk, by simp only at hp; omega, ?_, hcd', ⟨x, ?_, hw⟩,
              fun more => ?_⟩
            · simpa [List.take_succ_cons, Ne.symm hdot] using hnd
            · simp only [List.take_succ_cons, scanIntegral, if_neg hdot, hcd, if_neg hz, if_neg hlt, hx]
            · simp only [List.take_succ_cons, List.cons_append, scanIntegral, if_neg hdot, hcd, if_neg hz,
                if_neg hlt]
              exact hmore more

/-- The integral scan never stops with a fault of the model. -/
theorem scanIntegral_no_fault {w : CodecWidth} {budget : Nat} {body : List Byte} {st : IntegralScan}
    {f : Fault} : scanIntegral w budget body st ≠ .error (.fault f) := by
  induction body generalizing st with
  | nil => simp [scanIntegral]
  | cons c cs ih =>
    unfold scanIntegral
    split
    · simp
    · split
      · simp
      · split
        · exact ih
        · split
          · simp
          · exact ih

/-! ## The fractional scan -/

/-- The position, from 1, of the last byte that is not `'0'`; 0 if there is none. -/
def lastNonZeroPos (l : List Byte) : Nat := (l.reverse.dropWhile (fun c => c == 0x30)).length

/-- A digit string read as a decimal number. -/
def digitsValue (l : List Byte) : Nat := l.foldl (fun n c => n * 10 + (c.toNat - 0x30)) 0

@[simp] theorem lastNonZeroPos_nil : lastNonZeroPos [] = 0 := rfl

theorem lastNonZeroPos_cons (c : Byte) (cs : List Byte) :
    lastNonZeroPos (c :: cs) =
      if lastNonZeroPos cs = 0 then (if c = 0x30 then 0 else 1) else lastNonZeroPos cs + 1 := by
  simp only [lastNonZeroPos, List.reverse_cons, List.dropWhile_append, List.isEmpty_iff,
    List.length_eq_zero_iff]
  split
  · simp only [List.dropWhile_cons, List.dropWhile_nil, beq_iff_eq]
    split <;> rfl
  · simp

theorem lastNonZeroPos_le (l : List Byte) : lastNonZeroPos l ≤ l.length := by
  simpa [lastNonZeroPos] using (List.dropWhile_suffix (l := l.reverse) (fun c => c == (0x30 : Byte))).length_le

theorem foldl_digits (l : List Byte) (n : Nat) :
    l.foldl (fun n c => n * 10 + (c.toNat - 0x30)) n = n * 10 ^ l.length + digitsValue l := by
  induction l generalizing n with
  | nil => simp [digitsValue]
  | cons c cs ih =>
    have h0 : digitsValue (c :: cs) = (0 * 10 + (c.toNat - 0x30)) * 10 ^ cs.length + digitsValue cs := by
      rw [← ih]
      rfl
    rw [List.foldl_cons, ih, h0, List.length_cons, pow_succ]
    ring

theorem digitsValue_cons (c : Byte) (cs : List Byte) :
    digitsValue (c :: cs) = (c.toNat - 0x30) * 10 ^ cs.length + digitsValue cs := by
  rw [digitsValue, List.foldl_cons, foldl_digits]
  ring

theorem digitsValue_lt {l : List Byte} (h : ∀ c ∈ l, (digitOf c).isSome = true) :
    digitsValue l < 10 ^ l.length := by
  induction l with
  | nil => simp [digitsValue]
  | cons c cs ih =>
    have h1 := ih fun x hx => h x (List.mem_cons_of_mem _ hx)
    obtain ⟨d, hd⟩ := Option.isSome_iff_exists.1 (h c List.mem_cons_self)
    have h2 := digitOf_eq_some.1 hd
    rw [digitsValue_cons, List.length_cons, pow_succ]
    have : (c.toNat - 0x30) * 10 ^ cs.length ≤ 9 * 10 ^ cs.length := Nat.mul_le_mul_right _ (by omega)
    omega

/-- Reduction at every step gives the number reduced once. -/
theorem foldl_accumulate (w : CodecWidth) (l : List Byte) (n : Nat) (hn : n < w.modulus) :
    l.foldl (accumulate w) n = (n * 10 ^ l.length + digitsValue l) % w.modulus := by
  induction l generalizing n with
  | nil => simp [digitsValue, Nat.mod_eq_of_lt hn]
  | cons c cs ih =>
    rw [List.foldl_cons, ih (accumulate w n c) (Nat.mod_lt _ w.modulus_pos), accumulate, digitsValue_cons]
    rw [Nat.add_mod, Nat.mul_mod, Nat.mod_mod, ← Nat.mul_mod, ← Nat.add_mod, List.length_cons, pow_succ]
    congr 1
    ring

/-- The result of the fractional scan on digits `F` from registers `st`: `scount` moves to the last
non-zero digit, and `frac` takes in the digits up to it and the zeros that were pending. -/
def fractionAfter (w : CodecWidth) (st : FractionScan) (l : List Byte) : Nat × Nat :=
  if lastNonZeroPos l = 0 then (st.frac, st.scount)
  else
    ((st.frac * 10 ^ (st.meaningful - 1 + lastNonZeroPos l) + digitsValue (l.take (lastNonZeroPos l))) %
        w.modulus,
      st.scount + (st.meaningful - 1) + lastNonZeroPos l)

/-- The scan of fractional digits whose last non-zero one is within the scale. -/
theorem scanFraction_ok (w : CodecWidth) (scale : Nat) (hs : scale ≤ w.pmax) (l : List Byte)
    (st : FractionScan) (hm : 1 ≤ st.meaningful) (hd : ∀ c ∈ l, (digitOf c).isSome = true)
    (hc : (fractionAfter w st l).2 ≤ scale) :
    ∃ f, scanFraction w scale l st = .ok f ∧ f.frac = (fractionAfter w st l).1 ∧
      f.scount = (fractionAfter w st l).2 := by
  induction l generalizing st with
  | nil => exact ⟨st, rfl, by simp [fractionAfter], by simp [fractionAfter]⟩
  | cons c cs ih =>
    obtain ⟨d, hcd⟩ := Option.isSome_iff_exists.1 (hd c List.mem_cons_self)
    have hd' : ∀ c ∈ cs, (digitOf c).isSome = true := fun x hx => hd x (List.mem_cons_of_mem _ hx)
    unfold scanFraction
    rw [hcd]
    simp only
    by_cases hz : d = 0
    · rw [if_pos hz]
      have hc0 : c = 0x30 := digitOf_zero_iff.1 (hz ▸ hcd)
      have hsame : fractionAfter w { st with pos := st.pos + 1, meaningful := st.meaningful + 1 } cs =
          fractionAfter w st (c :: cs) := by
        unfold fractionAfter
        rw [lastNonZeroPos_cons]
        by_cases h0 : lastNonZeroPos cs = 0
        · simp [h0, hc0]
        · simp only [h0, if_false, Nat.add_eq_zero_iff, one_ne_zero, and_false, List.take_succ_cons]
          rw [digitsValue_cons, hc0]
          have e1 : st.meaningful + 1 - 1 + lastNonZeroPos cs =
              st.meaningful - 1 + (lastNonZeroPos cs + 1) := by omega
          have e2 : st.scount + (st.meaningful + 1 - 1) + lastNonZeroPos cs =
              st.scount + (st.meaningful - 1) + (lastNonZeroPos cs + 1) := by omega
          rw [e1, e2]
          simp
      rw [← hsame] at hc ⊢
      exact ih _ (by simp) hd' hc
    · have hne : c ≠ 0x30 := fun h0 => hz (by
        have := digitOf_zero_iff.2 h0
        rw [hcd] at this
        simpa using this)
      have hj : lastNonZeroPos (c :: cs) = lastNonZeroPos cs + 1 := by
        rw [lastNonZeroPos_cons, if_neg hne]
        split
        · omega
        · rfl
      have hstep : fractionAfter w
          ⟨st.pos + 1, (st.frac * 10 ^ st.meaningful + d) % w.modulus, st.scount + st.meaningful, 1⟩ cs =
          fractionAfter w st (c :: cs) := by
        unfold fractionAfter
        rw [hj, if_neg (Nat.succ_ne_zero _)]
        have hd2 := (digitOf_eq_some.1 hcd).2.2
        by_cases h0 : lastNonZeroPos cs = 0
        · simp only [h0]
          have e1 : st.meaningful - 1 + (0 + 1) = st.meaningful := by omega
          have e2 : st.scount + (st.meaningful - 1) + (0 + 1) = st.scount + st.meaningful := by omega
          rw [e1, e2]
          simp [digitsValue, hd2]
        · simp only [h0, if_false, List.take_succ_cons]
          rw [digitsValue_cons, List.length_take, Nat.min_eq_left (lastNonZeroPos_le cs)]
          have e2 : st.scount + st.meaningful + (1 - 1) + lastNonZeroPos cs =
              st.scount + (st.meaningful - 1) + (lastNonZeroPos cs + 1) := by omega
          have e3 : st.meaningful - 1 + (lastNonZeroPos cs + 1) = st.meaningful + lastNonZeroPos cs := by
            omega
          rw [e2, e3, Nat.add_mod, Nat.mul_mod, Nat.mod_mod, ← Nat.mul_mod, ← Nat.add_mod, hd2]
          congr 2
          simp only [Nat.sub_self, Nat.zero_add, pow_add]
          ring
      have hle : st.scount + st.meaningful ≤ scale := by
        have : (fractionAfter w st (c :: cs)).2 = st.scount + (st.meaningful - 1) + (lastNonZeroPos cs + 1) := by
          simp [fractionAfter, hj]
        omega
      rw [if_neg hz, if_neg (by omega),
        romRead_of_le (bank := w.bank) (i := st.meaningful) (by rw [CodecWidth.kmax_bank]; omega)]
      simp only
      rw [← hstep] at hc ⊢
      exact ih _ (by simp) hd' hc

/-- A fractional scan that goes through has read digits only, the last non-zero one within the scale. -/
theorem scanFraction_ok_inv {w : CodecWidth} {scale : Nat} {l : List Byte} {st f : FractionScan}
    (h : scanFraction w scale l st = .ok f) (hm : 1 ≤ st.meaningful) (hb : st.scount ≤ scale) :
    (∀ c ∈ l, (digitOf c).isSome = true) ∧ (fractionAfter w st l).2 ≤ scale := by
  induction l generalizing st with
  | nil => simpa [fractionAfter] using hb
  | cons c cs ih =>
    unfold scanFraction at h
    match hcd : digitOf c, h with
    | none, h => cases h
    | some d, h =>
      simp only at h
      have hall : (∀ y ∈ cs, (digitOf y).isSome = true) → ∀ y ∈ c :: cs, (digitOf y).isSome = true := by
        intro hh y hy
        rcases List.mem_cons.1 hy with rfl | hy
        · simp [hcd]
        · exact hh y hy
      by_cases hz : d = 0
      · rw [if_pos hz] at h
        have hc0 : c = 0x30 := digitOf_zero_iff.1 (hz ▸ hcd)
        have ⟨h1, h2⟩ := ih h (by simp) hb
        refine ⟨hall h1, ?_⟩
        unfold fractionAfter at h2 ⊢
        rw [lastNonZeroPos_cons]
        by_cases h0 : lastNonZeroPos cs = 0
        · simpa [h0, hc0] using hb
        · simp only [h0, if_false, Nat.add_eq_zero_iff, one_ne_zero, and_false] at h2 ⊢
          omega
      · rw [if_neg hz] at h
        split at h
        · cases h
        · rename_i hlt
          split at h
          · cases h
          · have ⟨h1, h2⟩ := ih h (by simp) (by simp only; omega)
            refine ⟨hall h1, ?_⟩
            have hne : c ≠ 0x30 := fun h0 => hz (by
              have := digitOf_zero_iff.2 h0
              rw [hcd] at this
              simpa using this)
            unfold fractionAfter at h2 ⊢
            rw [lastNonZeroPos_cons]
            by_cases h0 : lastNonZeroPos cs = 0
            · rw [if_pos h0, if_neg hne, if_neg (by omega)]
              simp only
              omega
            · simp only [h0, if_false, Nat.add_eq_zero_iff, one_ne_zero, and_false] at h2 ⊢
              omega

/-- What an error of the fractional scan says. -/
theorem scanFraction_raise {w : CodecWidth} {scale : Nat} {l : List Byte} {st : FractionScan} {e : Raised}
    (h : scanFraction w scale l st = .error (.raise e)) :
    ∃ k c, l[k]? = some c ∧ e.pos = st.pos + k ∧
      (∃ f, scanFraction w scale (l.take k) st = .ok f ∧
        ((digitOf c = none ∧ e = ⟨.invalidCharacter, e.pos, 0, 0⟩) ∨
          ((digitOf c).isSome = true ∧ c ≠ 0x30 ∧
            scale < f.scount + f.meaningful ∧ f.scount + f.meaningful = st.scount + st.meaningful + k ∧
            e = ⟨.fractionOverflow, e.pos, st.scount + st.meaningful + k, scale⟩))) ∧
      ∀ more, scanFraction w scale (l.take (k + 1) ++ more) st = .error (.raise e) := by
  induction l generalizing st with
  | nil => cases h
  | cons c cs ih =>
    unfold scanFraction at h
    match hcd : digitOf c, h with
    | none, h =>
      have he : (⟨.invalidCharacter, st.pos, 0, 0⟩ : Raised) = e := by simpa using h
      subst he
      refine ⟨0, c, rfl, rfl, ⟨st, rfl, .inl ⟨hcd, rfl⟩⟩, fun more => ?_⟩
      simp [scanFraction, hcd]
    | some d, h =>
      simp only at h
      by_cases hz : d = 0
      · rw [if_pos hz] at h
        obtain ⟨k, c', hk, hp, ⟨f, hf, hw⟩, hmore⟩ := ih h
        refine ⟨k + 1, c', by simpa using hk, by simp only at hp; omega, ⟨f, ?_, ?_⟩, fun more => ?_⟩
        · simp only [List.take_succ_cons, scanFraction, hcd, if_pos hz, hf]
        · have e1 : st.scount + (st.meaningful + 1) + k = st.scount + st.meaningful + (k + 1) := by omega
          simpa only [e1] using hw
        · simp only [List.take_succ_cons, List.cons_append, scanFraction, hcd, if_pos hz]
          exact hmore more
      · rw [if_neg hz] at h
        split at h
        · rename_i hlt
          have he : (⟨.fractionOverflow, st.pos, st.scount + st.meaningful, scale⟩ : Raised) = e := by
            simpa using h
          subst he
          have hne : c ≠ 0x30 := fun h0 => hz (by
            have := digitOf_zero_iff.2 h0
            rw [hcd] at this
            simpa using this)
          refine ⟨0, c, rfl, rfl, ⟨st, rfl, .inr ⟨by simp [hcd], hne, hlt, rfl, rfl⟩⟩, fun more => ?_⟩
          simp only [List.take_succ_cons, List.cons_append, scanFraction, hcd, if_neg hz, if_pos hlt]
        · rename_i hlt
          split at h
          · cases h
          · rename_i p hp'
            obtain ⟨k, c', hk, hp, ⟨f, hf, hw⟩, hmore⟩ := ih h
            refine ⟨k + 1, c', by simpa using hk, by simp only at hp; omega, ⟨f, ?_, ?_⟩, fun more => ?_⟩
            · simp only [List.take_succ_cons, scanFraction, hcd, if_neg hz, if_neg hlt, hp', hf]
            · have e1 : st.scount + st.meaningful + 1 + k = st.scount + st.meaningful + (k + 1) := by omega
              simpa only [e1] using hw
            · simp only [List.take_succ_cons, List.cons_append, scanFraction, hcd, if_neg hz, if_neg hlt, hp']
              exact hmore more

/-- Within the domain the fractional scan never asks the ROM for an entry that does not exist
(`40_power_table.md` R125). -/
theorem scanFraction_no_fault {w : CodecWidth} {scale : Nat} (hs : scale ≤ w.pmax) {l : List Byte}
    {st : FractionScan} {f : Fault} : scanFraction w scale l st ≠ .error (.fault f) := by
  induction l generalizing st with
  | nil => simp [scanFraction]
  | cons c cs ih =>
    unfold scanFraction
    split
    · simp
    · split
      · exact ih
      · split
        · simp
        · rw [romRead_of_le (by rw [CodecWidth.kmax_bank]; omega)]
          exact ih

/-- The fractional scan keeps `scount` within the scale. -/
theorem scanFraction_scount_le {w : CodecWidth} {scale : Nat} {l : List Byte} {st f : FractionScan}
    (h : scanFraction w scale l st = .ok f) (hb : st.scount ≤ scale) : f.scount ≤ scale := by
  induction l generalizing st with
  | nil =>
    cases h
    exact hb
  | cons c cs ih =>
    unfold scanFraction at h
    split at h
    · cases h
    · split at h
      · exact ih h hb
      · split at h
        · cases h
        · split at h
          · cases h
          · exact ih h (by simp only; omega)

/-! ## The whole decode -/

/-- In the domain, the composition reads two entries that exist. -/
theorem composeResult_eq {w : CodecWidth} {scale : Nat} (hs : scale ≤ w.pmax) (neg : Bool)
    (integral : Nat) (f : FractionScan) :
    composeResult w scale neg integral f =
      .ok (if neg then
          (w.modulus - (integral * 10 ^ scale + f.frac * 10 ^ (scale - f.scount)) % w.modulus) % w.modulus
        else (integral * 10 ^ scale + f.frac * 10 ^ (scale - f.scount)) % w.modulus) := by
  unfold composeResult
  rw [romRead_of_le (by rw [CodecWidth.kmax_bank]; omega), romRead_of_le (by rw [CodecWidth.kmax_bank]; omega)]

/-- In the domain a decode never stops with a fault of the model. -/
theorem decodeText_no_fault {w : CodecWidth} {precision scale : Nat} (hs : scale ≤ w.pmax)
    {t : List Byte} {f : Fault} : decodeText w precision scale t ≠ .error (.fault f) := by
  have hbody : ∀ neg pos body, decodeBody w precision scale neg pos body ≠ .error (.fault f) := by
    intro neg pos body h
    unfold decodeBody at h
    split at h
    · rename_i e he
      cases h
      exact scanIntegral_no_fault he
    · split at h
      · rename_i e he
        cases h
        exact scanFraction_no_fault hs he
      · rw [composeResult_eq hs] at h
        cases h
  cases t with
  | nil => simp [decodeText]
  | cons c cs =>
    rw [decodeText]
    split
    · exact hbody _ _ _
    · exact hbody _ _ _

/-- All that a DEC command can answer: `ParamFault`, an error of its text, or a result. -/
theorem decCommand_cases (w : CodecWidth) (precision scale : Nat) (s : State) :
    ((precision < scale ∨ w.pmax < precision ∨ s.cfg.lmax < s.tlen.toNat) ∧
      decCommand w precision scale s = .error paramFault) ∨
    (scale ≤ precision ∧ precision ≤ w.pmax ∧ s.tlen.toNat ≤ s.cfg.lmax ∧
      ((∃ e, decodeText w precision scale ((List.range s.tlen.toNat).map s.tbuf.byte) = .error (.raise e) ∧
          decCommand w precision scale s = .error (.raise e)) ∨
        (∃ n, decodeText w precision scale ((List.range s.tlen.toNat).map s.tbuf.byte) = .ok n ∧
          decCommand w precision scale s = .ok (s.setR (w.sext128 n))))) := by
  unfold decCommand
  by_cases h : precision < scale ∨ w.pmax < precision ∨ s.cfg.lmax < s.tlen.toNat
  · exact .inl ⟨h, by rw [if_pos h]⟩
  · refine .inr ⟨by omega, by omega, by omega, ?_⟩
    rw [if_neg h, s.readText_eq _ _ (by omega), ← List.range_eq_range']
    simp only
    match hd : decodeText w precision scale ((List.range s.tlen.toNat).map s.tbuf.byte) with
    | .ok n => exact .inr ⟨n, rfl, rfl⟩
    | .error (.raise e) => exact .inl ⟨e, rfl, rfl⟩
    | .error (.fault f) => exact absurd hd (decodeText_no_fault (by omega))

end Sys2Proof.Machine
end

