-- ==== Sys2Proof/Laws/Decode.lean ====
section
/-! SUPPORT. The command word by its fields: the word is its four fields side by side, a row selects by
fields, and what the fields of an encoded command are. -/

namespace Sys2Proof

theorem append_eq_append_iff {m n : Nat} {a c : BitVec m} {b d : BitVec n} :
    a ++ b = c ++ d ↔ a = c ∧ b = d := by
  constructor
  · intro h
    have h1 := congrArg (BitVec.extractLsb' n m) h
    have h2 := congrArg (BitVec.extractLsb' 0 n) h
    rw [BitVec.extractLsb'_append_eq_left, BitVec.extractLsb'_append_eq_left] at h1
    rw [BitVec.extractLsb'_append_eq_right, BitVec.extractLsb'_append_eq_right] at h2
    exact ⟨h1, h2⟩
  · rintro ⟨rfl, rfl⟩
    rfl

/-- Four fields side by side (`30_encoding.md` R91). -/
def wordOfFields (reserved : BitVec 40) (p s op : Byte) : Word := reserved ++ (p ++ (s ++ op))

theorem toNat_wordOfFields (reserved : BitVec 40) (p s op : Byte) :
    (wordOfFields reserved p s op).toNat =
      reserved.toNat * 2 ^ 24 + p.toNat * 2 ^ 16 + s.toNat * 2 ^ 8 + op.toNat := by
  have h1 := op.isLt
  have h2 := s.isLt
  have h3 := p.isLt
  have e1 : (s ++ op).toNat = s.toNat * 2 ^ 8 + op.toNat := by
    rw [BitVec.toNat_append, ← Nat.shiftLeft_add_eq_or_of_lt h1, Nat.shiftLeft_eq]
  have e2 : (p ++ (s ++ op)).toNat = p.toNat * 2 ^ 16 + (s.toNat * 2 ^ 8 + op.toNat) := by
    rw [BitVec.toNat_append, ← Nat.shiftLeft_add_eq_or_of_lt (s ++ op).isLt, Nat.shiftLeft_eq, e1]
  unfold wordOfFields
  rw [BitVec.toNat_append, ← Nat.shiftLeft_add_eq_or_of_lt (p ++ (s ++ op)).isLt, Nat.shiftLeft_eq, e2]
  omega

theorem toNat_fieldOP (w : Word) : (fieldOP w).toNat = w.toNat % 2 ^ 8 := by
  simp [fieldOP, BitVec.extractLsb'_toNat]

theorem toNat_fieldS (w : Word) : (fieldS w).toNat = w.toNat / 2 ^ 8 % 2 ^ 8 := by
  simp [fieldS, BitVec.extractLsb'_toNat, Nat.shiftRight_eq_div_pow]

theorem toNat_fieldP (w : Word) : (fieldP w).toNat = w.toNat / 2 ^ 16 % 2 ^ 8 := by
  simp [fieldP, BitVec.extractLsb'_toNat, Nat.shiftRight_eq_div_pow]

theorem toNat_fieldReserved (w : Word) : (fieldReserved w).toNat = w.toNat / 2 ^ 24 := by
  have := w.isLt
  simp only [fieldReserved, BitVec.extractLsb'_toNat, Nat.shiftRight_eq_div_pow]
  omega

/-- The word is its fields. -/
theorem wordOfFields_fields (w : Word) :
    wordOfFields (fieldReserved w) (fieldP w) (fieldS w) (fieldOP w) = w := by
  apply BitVec.eq_of_toNat_eq
  rw [toNat_wordOfFields, toNat_fieldOP, toNat_fieldS, toNat_fieldP, toNat_fieldReserved]
  omega

@[simp] theorem fieldOP_wordOfFields (r : BitVec 40) (p s op : Byte) :
    fieldOP (wordOfFields r p s op) = op := by
  apply BitVec.eq_of_toNat_eq
  rw [toNat_fieldOP, toNat_wordOfFields]
  have := op.isLt
  omega

@[simp] theorem fieldS_wordOfFields (r : BitVec 40) (p s op : Byte) :
    fieldS (wordOfFields r p s op) = s := by
  apply BitVec.eq_of_toNat_eq
  rw [toNat_fieldS, toNat_wordOfFields]
  have := op.isLt
  have := s.isLt
  omega

@[simp] theorem fieldP_wordOfFields (r : BitVec 40) (p s op : Byte) :
    fieldP (wordOfFields r p s op) = p := by
  apply BitVec.eq_of_toNat_eq
  rw [toNat_fieldP, toNat_wordOfFields]
  have := op.isLt
  have := s.isLt
  have := p.isLt
  omega

@[simp] theorem fieldReserved_wordOfFields (r : BitVec 40) (p s op : Byte) :
    fieldReserved (wordOfFields r p s op) = r := by
  apply BitVec.eq_of_toNat_eq
  rw [toNat_fieldReserved, toNat_wordOfFields]
  have := op.isLt
  have := s.isLt
  have := p.isLt
  omega

/-! ## Selection by fields -/

/-- A row of format Z selects the word of its opcode with every other field 0. -/
theorem and_maskZ (r : BitVec 40) (p s op o : Byte) :
    wordOfFields r p s op &&& maskZ = wordOfFields 0 0 0 o ↔ r = 0 ∧ p = 0 ∧ s = 0 ∧ op = o := by
  have hm : maskZ = BitVec.allOnes 40 ++ (BitVec.allOnes 8 ++ (BitVec.allOnes 8 ++ BitVec.allOnes 8)) := by
    decide
  rw [hm]
  unfold wordOfFields
  rw [BitVec.and_append, BitVec.and_append, BitVec.and_append]
  rw [BitVec.and_allOnes, BitVec.and_allOnes, BitVec.and_allOnes, BitVec.and_allOnes]
  exact append_eq_append_iff.trans (and_congr Iff.rfl (append_eq_append_iff.trans
    (and_congr Iff.rfl append_eq_append_iff)))

/-- A row of format S selects by the opcode, the field S being any. -/
theorem and_maskS (r : BitVec 40) (p s op o : Byte) :
    wordOfFields r p s op &&& maskS = wordOfFields 0 0 0 o ↔ r = 0 ∧ p = 0 ∧ op = o := by
  have hm : maskS = BitVec.allOnes 40 ++ (BitVec.allOnes 8 ++ ((0 : BitVec 8) ++ BitVec.allOnes 8)) := by
    decide
  rw [hm]
  unfold wordOfFields
  rw [BitVec.and_append, BitVec.and_append, BitVec.and_append]
  rw [BitVec.and_allOnes, BitVec.and_allOnes, BitVec.and_allOnes, (show s &&& (0 : BitVec 8) = 0 from BitVec.and_zero)]
  exact append_eq_append_iff.trans (and_congr Iff.rfl (append_eq_append_iff.trans
    (and_congr Iff.rfl (append_eq_append_iff.trans (and_iff_right rfl)))))

/-- A row of format PS selects by the opcode, the fields S and P being any. -/
theorem and_maskPS (r : BitVec 40) (p s op o : Byte) :
    wordOfFields r p s op &&& maskPS = wordOfFields 0 0 0 o ↔ r = 0 ∧ op = o := by
  have hm : maskPS = BitVec.allOnes 40 ++ ((0 : BitVec 8) ++ ((0 : BitVec 8) ++ BitVec.allOnes 8)) := by
    decide
  rw [hm]
  unfold wordOfFields
  rw [BitVec.and_append, BitVec.and_append, BitVec.and_append]
  rw [BitVec.and_allOnes, BitVec.and_allOnes, (show s &&& (0 : BitVec 8) = 0 from BitVec.and_zero),
    (show p &&& (0 : BitVec 8) = 0 from BitVec.and_zero)]
  exact append_eq_append_iff.trans (and_congr Iff.rfl (append_eq_append_iff.trans
    ((and_iff_right rfl).trans (append_eq_append_iff.trans (and_iff_right rfl)))))

/-- The word `(p << 16) OR (s << 8) OR op` has those fields. -/
theorem commandWord_eq {op p s : Nat} (ho : op < 256) (hp : p < 256) (hs : s < 256) :
    commandWord op p s = wordOfFields 0 (BitVec.ofNat 8 p) (BitVec.ofNat 8 s) (BitVec.ofNat 8 op) := by
  apply BitVec.eq_of_toNat_eq
  rw [toNat_wordOfFields]
  have h1 : (s <<< 8 ||| op) = s * 2 ^ 8 + op := by
    rw [← Nat.shiftLeft_add_eq_or_of_lt (by omega), Nat.shiftLeft_eq]
  have h2 : (p <<< 16 ||| (s * 2 ^ 8 + op)) = p * 2 ^ 16 + (s * 2 ^ 8 + op) := by
    rw [← Nat.shiftLeft_add_eq_or_of_lt (by omega), Nat.shiftLeft_eq]
  have h3 : (commandWord op p s).toNat = p * 2 ^ 16 + (s * 2 ^ 8 + op) := by
    unfold commandWord
    rw [BitVec.toNat_or, BitVec.toNat_or, BitVec.toNat_shiftLeft, BitVec.toNat_shiftLeft,
      BitVec.toNat_ofNat, BitVec.toNat_ofNat, BitVec.toNat_ofNat, Nat.mod_eq_of_lt (by omega : p < 2 ^ 64),
      Nat.mod_eq_of_lt (by omega : s < 2 ^ 64), Nat.mod_eq_of_lt (by omega : op < 2 ^ 64),
      Nat.mod_eq_of_lt (by rw [Nat.shiftLeft_eq]; omega), Nat.mod_eq_of_lt (by rw [Nat.shiftLeft_eq]; omega),
      Nat.or_assoc, h1, h2]
  rw [h3, BitVec.toNat_ofNat, BitVec.toNat_ofNat, BitVec.toNat_ofNat]
  have h0 : (0 : BitVec 40).toNat = 0 := rfl
  omega

end Sys2Proof
end

