-- ==== Sys2Proof/Laws/Enc.lean ====
section
/-! SUPPORT. What the encoder's digit operations compute, and all that an ENC command can answer. -/

namespace Sys2Proof.Machine

/-! ## Digits -/

@[simp] theorem length_paddedDigits (count n : Nat) : (paddedDigits count n).length = count := by
  induction count generalizing n with
  | zero => rfl
  | succ k ih => simp [paddedDigits, ih]

theorem paddedDigits_lt {count n d : Nat} (h : d ∈ paddedDigits count n) : d < 10 := by
  induction count generalizing n with
  | zero => simp [paddedDigits] at h
  | succ k ih =>
    rcases List.mem_append.1 h with h | h
    · exact ih h
    · have : d = n % 10 := by simpa using h
      omega

/-- Padded digits are the digits of the number behind zeros, when the number fits. -/
theorem paddedDigits_eq (count n : Nat) (h : n < 10 ^ count) :
    paddedDigits count n =
      List.replicate (count - (Nat.digits 10 n).length) 0 ++ (Nat.digits 10 n).reverse := by
  induction count generalizing n with
  | zero =>
    have : n = 0 := by simpa using h
    subst this
    simp [paddedDigits]
  | succ k ih =>
    rw [paddedDigits, ih (n / 10) (by rw [pow_succ] at h; omega)]
    by_cases h0 : n = 0
    · subst h0
      simp only [Nat.zero_div, Nat.digits_zero, List.length_nil, Nat.sub_zero, List.reverse_nil,
        List.append_nil, Nat.zero_mod, List.replicate_succ']
    · rw [Nat.digits_def' (by omega) (by omega : 0 < n)]
      rw [List.length_cons, List.reverse_cons, Nat.add_sub_add_right, List.append_assoc]

theorem dropLeadingZeros_eq (l : List Nat) :
    dropLeadingZeros l =
      if l.dropWhile (fun d => d == 0) = [] then [0] else l.dropWhile (fun d => d == 0) := by
  induction l with
  | nil => rfl
  | cons d ds ih =>
    unfold dropLeadingZeros
    by_cases h : d = 0
    · simpa [h] using ih
    · simp [h]

theorem dropTrailingZeros_eq (l : List Nat) :
    dropTrailingZeros l = (l.reverse.dropWhile (fun d => d == 0)).reverse := by
  induction l with
  | nil => rfl
  | cons d ds ih =>
    unfold dropTrailingZeros
    rw [List.reverse_cons, List.dropWhile_append, ih]
    by_cases h : ds.reverse.dropWhile (fun d => d == 0) = []
    · by_cases hd : d = 0 <;> simp [h, hd]
    · have hne : (ds.reverse.dropWhile (fun d => d == 0)).reverse ≠ [] := by simpa using h
      obtain ⟨e, es, he⟩ := List.exists_cons_of_ne_nil hne
      simp only [List.isEmpty_iff, h, if_false, List.reverse_append, he]
      rfl

theorem length_dropTrailingZeros_le (l : List Nat) : (dropTrailingZeros l).length ≤ l.length := by
  rw [dropTrailingZeros_eq, List.length_reverse, ← List.length_reverse (as := l)]
  exact (List.dropWhile_suffix _).length_le

theorem reverse_digits_head {n d : Nat} {ds : List Nat} (h : (Nat.digits 10 n).reverse = d :: ds) : d ≠ 0 := by
  have hne : Nat.digits 10 n ≠ [] := by
    intro h0
    simp [h0] at h
  have h0 : n ≠ 0 := by
    rintro rfl
    simp at hne
  have := Nat.getLast_digit_ne_zero 10 h0
  have hl : Nat.digits 10 n = ds.reverse ++ [d] := by
    rw [← List.reverse_reverse (Nat.digits 10 n), h, List.reverse_cons]
  simp only [hl, List.getLast_append, List.getLast_singleton] at this
  simpa using this

/-- The integral digits are the digits of the quotient, one `0` for zero. -/
theorem integralDigits_eq (w : CodecWidth) {q : Nat} (h : q < w.modulus) :
    integralDigits w q = if q = 0 then [0] else (Nat.digits 10 q).reverse := by
  have hrep : ∀ (k : Nat) (l : List Nat),
      (List.replicate k 0 ++ l).dropWhile (fun d => d == 0) = l.dropWhile (fun d => d == 0) := by
    intro k l
    induction k with
    | zero => simp
    | succ k ih => simp [List.replicate_succ, ih]
  rw [integralDigits, paddedDigits_eq _ _ (h.trans_le w.modulus_le_pow), dropLeadingZeros_eq, hrep]
  by_cases h0 : q = 0
  · simp [h0]
  · rw [if_neg h0]
    match hd : (Nat.digits 10 q).reverse with
    | [] => exact absurd (by simpa using hd) (Nat.digits_ne_nil_iff_ne_zero.2 h0)
    | d :: ds => simp [reverse_digits_head hd]

/-- The quotient has no more digits than its bound allows. -/
theorem length_integralDigits_le (w : CodecWidth) {q k : Nat} (hq : q < w.modulus) (hk : q < 10 ^ k)
    (h1 : 1 ≤ k) : (integralDigits w q).length ≤ k := by
  rw [integralDigits_eq w hq]
  split
  · simpa using h1
  · rw [List.length_reverse]
    exact (Nat.digits_length_le_iff (by omega) q).2 hk

theorem integralDigits_ne_nil (w : CodecWidth) (q : Nat) : integralDigits w q ≠ [] := by
  rw [integralDigits, dropLeadingZeros_eq]
  split
  · simp
  · assumption

/-! ## The text -/

/-- The sign bit of a W-bit number, as a comparison (`43_encoder.md` R193). -/
theorem isNegative_iff {w : CodecWidth} {v : Nat} (hv : v < w.modulus) :
    isNegative w v = true ↔ 2 ^ (w.bits - 1) ≤ v := by
  have h2 := w.two_mul_half
  constructor
  · intro h
    exact Nat.ge_two_pow_of_testBit h
  · intro h
    rw [isNegative, Nat.testBit_eq_decide_div_mod_eq]
    have : v / 2 ^ (w.bits - 1) = 1 := by
      have hpos : 0 < 2 ^ (w.bits - 1) := Nat.two_pow_pos _
      rw [Nat.div_eq_iff hpos]
      omega
    simp [this]

/-- The magnitude is at most `2^(W-1)` (`43_encoder.md` R193, R200). -/
theorem magnitude_le {w : CodecWidth} {v : Nat} (hv : v < w.modulus) : magnitude w v ≤ 2 ^ (w.bits - 1) := by
  have h2 := w.two_mul_half
  have hpos : 0 < 2 ^ (w.bits - 1) := Nat.two_pow_pos _
  unfold magnitude
  split
  · rename_i h
    rw [isNegative_iff hv] at h
    rw [Nat.mod_eq_of_lt (by omega)]
    omega
  · rename_i h
    rw [isNegative_iff hv] at h
    omega

theorem magnitude_lt {w : CodecWidth} {v : Nat} (hv : v < w.modulus) : magnitude w v < w.modulus := by
  have h1 := magnitude_le hv
  have h2 := w.two_mul_half
  have hpos : 0 < 2 ^ (w.bits - 1) := Nat.two_pow_pos _
  omega

/-- In the domain an encoder produces a text of 1 to D + 2 bytes (`43_encoder.md` R197). -/
theorem encodeText_ok (w : CodecWidth) {scale v : Nat} (hs : scale ≤ w.pmax) (hv : v < w.modulus) :
    ∃ text, encodeText w scale v = .ok text ∧ 1 ≤ text.length ∧ text.length ≤ w.maxDigits + 2 ∧
      text = (if isNegative w v then [minusByte] else []) ++
        (integralDigits w (magnitude w v / 10 ^ scale)).map digitByte ++
        fractionText scale (magnitude w v % 10 ^ scale) := by
  have hm := magnitude_lt hv
  have hD : w.maxDigits = w.pmax + 1 := by cases w <;> rfl
  have hq : magnitude w v / 10 ^ scale < 10 ^ (w.maxDigits - scale) := by
    rw [Nat.div_lt_iff_lt_mul (by positivity), ← pow_add, Nat.sub_add_cancel (by omega)]
    exact hm.trans_le w.modulus_le_pow
  have hi := length_integralDigits_le w ((Nat.div_le_self _ (10 ^ scale)).trans_lt hm) hq (by omega)
  have hn := List.length_pos_of_ne_nil (integralDigits_ne_nil w (magnitude w v / 10 ^ scale))
  have hf : (fractionText scale (magnitude w v % 10 ^ scale)).length ≤ (if scale = 0 then 0 else scale + 1) := by
    unfold fractionText
    split
    · rename_i h
      have := length_dropTrailingZeros_le (paddedDigits scale (magnitude w v % 10 ^ scale))
      simp only [length_paddedDigits] at this
      simp [h.1, fractionDigits, this]
    · simp
  have hneg : (if isNegative w v then [minusByte] else []).length ≤ 1 := by split <;> simp
  refine ⟨_, by rw [encodeText, romRead_of_le (by rw [CodecWidth.kmax_bank]; exact hs)], ?_, ?_, rfl⟩
  · simp only [List.length_append, List.length_map]
    omega
  · simp only [List.length_append, List.length_map]
    split at hf <;> omega

/-- An encoder's text always fits TBUF (`43_encoder.md` R197, `20_memory.md` R69). -/
theorem encoderText_le_lmax (w : CodecWidth) (c : Config) : w.maxDigits + 2 ≤ c.lmax := by
  have := c.lmax_ge
  have : w.maxDigits ≤ 39 := by cases w <;> decide
  omega

/-- All that an ENC command can answer: `ParamFault`, or the text in TBUF and TLEN. -/
theorem encCommand_cases (w : CodecWidth) (scale : Nat) (s : State) :
    (w.pmax < scale ∧ encCommand w scale s = .error paramFault) ∨
    (scale ≤ w.pmax ∧ ∃ text m, encodeText w scale (w.operand s.a) = .ok text ∧
      1 ≤ text.length ∧ text.length ≤ w.maxDigits + 2 ∧
      encCommand w scale s = .ok { s with tbuf := m, tlen := BitVec.ofNat 16 text.length } ∧
      m.epoch = s.tbuf.epoch + 1 ∧ m.wf s.cfg.lmax ∧
      (∀ (i : Nat) (hi : i < text.length), m.byte i = text[i]) ∧
      (∀ i, text.length ≤ i → m.byte i = Config.freeTbufByte (s.tbuf.epoch + 1) i)) := by
  unfold encCommand
  rw [CodecWidth.kmax_bank]
  by_cases h : w.pmax < scale
  · exact .inl ⟨h, by rw [if_pos h]⟩
  · refine .inr ⟨by omega, ?_⟩
    obtain ⟨text, ht, h1, h2, -⟩ := encodeText_ok w (scale := scale) (by omega) (w.operand_lt s.a)
    obtain ⟨m, hm, hrest⟩ := s.writeText_spec text (h2.trans (encoderText_le_lmax w s.cfg))
    exact ⟨text, m, ht, h1, h2, by rw [if_neg h, ht]; exact hm, hrest⟩

end Sys2Proof.Machine
end

