-- ==== Sys2Proof/Laws/PerInstr.lean ====
section
/-! SUPPORT. Statements made per instruction. EncodeFields: the word of a well-formed command holds its
opcode and its fields, and 0 everywhere else (`30_encoding.md` R91, R95). -/

namespace Sys2Proof.Laws.EncodeFields

/-- The opcode of a command (`30_encoding.md` R95). -/
def opcodeOf : Instr → Nat
  | .pow32 _ => 0x01
  | .pow64 _ => 0x02
  | .pow128 _ => 0x03
  | .add => 0x10
  | .neg => 0x11
  | .muls => 0x12
  | .mul => 0x13
  | .dec32 _ _ => 0x20
  | .dec128 _ _ => 0x21
  | .enc32 _ => 0x30
  | .enc128 _ => 0x31

/-- The field S of a command, 0 where its format has none. -/
def scaleOf : Instr → Nat
  | .pow32 s => s
  | .pow64 s => s
  | .pow128 s => s
  | .add => 0
  | .neg => 0
  | .muls => 0
  | .mul => 0
  | .dec32 _ s => s
  | .dec128 _ s => s
  | .enc32 s => s
  | .enc128 s => s

/-- The field P of a command, 0 where its format has none. -/
def precisionOf : Instr → Nat
  | .pow32 _ => 0
  | .pow64 _ => 0
  | .pow128 _ => 0
  | .add => 0
  | .neg => 0
  | .muls => 0
  | .mul => 0
  | .dec32 p _ => p
  | .dec128 p _ => p
  | .enc32 _ => 0
  | .enc128 _ => 0

/-- The encoded word has the command's fields and no other bit. -/
def Statement (i : Instr) : Prop :=
  i.wellFormed = true →
    (fieldOP (encode i)).toNat = opcodeOf i ∧ (fieldS (encode i)).toNat = scaleOf i ∧
      (fieldP (encode i)).toNat = precisionOf i ∧ fieldReserved (encode i) = 0

theorem commandWord_fields {op p s : Nat} (ho : op < 256) (hp : p < 256) (hs : s < 256) :
    (fieldOP (commandWord op p s)).toNat = op ∧ (fieldS (commandWord op p s)).toNat = s ∧
      (fieldP (commandWord op p s)).toNat = p ∧ fieldReserved (commandWord op p s) = 0 := by
  rw [commandWord_eq ho hp hs]
  simp only [fieldOP_wordOfFields, fieldS_wordOfFields, fieldP_wordOfFields, fieldReserved_wordOfFields,
    BitVec.toNat_ofNat, and_true]
  omega

theorem fits {n : Nat} (h : fitsField n = true) : n < 256 := of_decide_eq_true h

theorem fits_both {p s : Nat} (h : (fitsField p && fitsField s) = true) : p < 256 ∧ s < 256 := by
  rw [Bool.and_eq_true] at h
  exact ⟨fits h.1, fits h.2⟩

theorem pow32 (i : Nat) : Statement (.pow32 i) := fun h =>
  commandWord_fields (by omega) (by omega) (fits h)
theorem pow64 (i : Nat) : Statement (.pow64 i) := fun h =>
  commandWord_fields (by omega) (by omega) (fits h)
theorem pow128 (i : Nat) : Statement (.pow128 i) := fun h =>
  commandWord_fields (by omega) (by omega) (fits h)
theorem add : Statement .add := fun _ => commandWord_fields (by omega) (by omega) (by omega)
theorem neg : Statement .neg := fun _ => commandWord_fields (by omega) (by omega) (by omega)
theorem muls : Statement .muls := fun _ => commandWord_fields (by omega) (by omega) (by omega)
theorem mul : Statement .mul := fun _ => commandWord_fields (by omega) (by omega) (by omega)
theorem dec32 (p s : Nat) : Statement (.dec32 p s) := fun h =>
  commandWord_fields (by omega) (fits_both h).1 (fits_both h).2
theorem dec128 (p s : Nat) : Statement (.dec128 p s) := fun h =>
  commandWord_fields (by omega) (fits_both h).1 (fits_both h).2
theorem enc32 (s : Nat) : Statement (.enc32 s) := fun h =>
  commandWord_fields (by omega) (by omega) (fits h)
theorem enc128 (s : Nat) : Statement (.enc128 s) := fun h =>
  commandWord_fields (by omega) (by omega) (fits h)

end Sys2Proof.Laws.EncodeFields
end

