-- ==== Sys2Proof/Laws/Step.lean ====
section
/-! SUPPORT. What a step can do, said once: every completion of a command, and every turn. -/

namespace Sys2Proof.Machine

/-- The end of a successful command whose destination is `R`. -/
def State.deliver (s : State) (r : DoubleWidth) : State := (s.setR r).publish .ok ErrInfo.zero

/-- The end of a successful ENC command. -/
def State.deliverText (s : State) (m : Memory) (n : Nat) : State :=
  { s with tbuf := m, tlen := BitVec.ofNat 16 n }.publish .ok ErrInfo.zero

theorem powCommand_cases (bank : RomBank) (index : Nat) (s : State) :
    (bank.kmax < index ∧ s.finish (powCommand bank index s) = .next (s.raise ⟨.paramFault, 0, 0, 0⟩)) ∨
    (index ≤ bank.kmax ∧ s.finish (powCommand bank index s) = .next (s.deliver (zext128 (10 ^ index)))) := by
  unfold powCommand
  by_cases h : bank.kmax < index
  · exact .inl ⟨h, by rw [if_pos h]; rfl⟩
  · exact .inr ⟨by omega, by rw [if_neg h, romRead_of_le (by omega)]; rfl⟩

/-- All that the completion of a command can do: deliver a result in `R`, deliver a text, or raise an
error. -/
theorem exec_cases (i : Instr) (s : State) :
    (∃ r, exec i s = .next (s.deliver r)) ∨
    (∃ w scale text m, ((w = .w32 ∧ i = .enc32 scale) ∨ (w = .w128 ∧ i = .enc128 scale)) ∧
      encodeText w scale (w.operand s.a) = .ok text ∧ text.length ≤ w.maxDigits + 2 ∧
      m.wf s.cfg.lmax ∧ exec i s = .next (s.deliverText m text.length)) ∨
    (∃ e, exec i s = .next (s.raise e)) := by
  have hpow : ∀ bank index, (∃ r, s.finish (powCommand bank index s) = .next (s.deliver r)) ∨
      (∃ e, s.finish (powCommand bank index s) = .next (s.raise e)) := fun bank index => by
    rcases powCommand_cases bank index s with ⟨-, h⟩ | ⟨-, h⟩
    · exact .inr ⟨_, h⟩
    · exact .inl ⟨_, h⟩
  have hdec : ∀ w p sc, (∃ r, s.finish (decCommand w p sc s) = .next (s.deliver r)) ∨
      (∃ e, s.finish (decCommand w p sc s) = .next (s.raise e)) := fun w p sc => by
    rcases decCommand_cases w p sc s with ⟨-, h⟩ | ⟨-, -, -, ⟨e, -, h⟩ | ⟨n, -, h⟩⟩
    · exact .inr ⟨_, by rw [h]; rfl⟩
    · exact .inr ⟨e, by rw [h]; rfl⟩
    · exact .inl ⟨w.sext128 n, by rw [h]; rfl⟩
  have henc : ∀ w sc, (∃ text m, encodeText w sc (w.operand s.a) = .ok text ∧
      text.length ≤ w.maxDigits + 2 ∧ m.wf s.cfg.lmax ∧
      s.finish (encCommand w sc s) = .next (s.deliverText m text.length)) ∨
      (∃ e, s.finish (encCommand w sc s) = .next (s.raise e)) := fun w sc => by
    rcases encCommand_cases w sc s with ⟨-, h⟩ | ⟨-, text, m, ht, -, hl, h, -, hm, -⟩
    · exact .inr ⟨_, by rw [h]; rfl⟩
    · exact .inl ⟨text, m, ht, hl, hm, by rw [h]; rfl⟩
  cases i with
  | pow32 i => exact (hpow .w32 i).imp id .inr
  | pow64 i => exact (hpow .w64 i).imp id .inr
  | pow128 i => exact (hpow .w128 i).imp id .inr
  | add => exact .inl ⟨_, rfl⟩
  | neg => exact .inl ⟨_, rfl⟩
  | muls => exact .inl ⟨_, rfl⟩
  | mul => exact .inl ⟨_, rfl⟩
  | dec32 p sc => exact (hdec .w32 p sc).imp id .inr
  | dec128 p sc => exact (hdec .w128 p sc).imp id .inr
  | enc32 sc =>
    refine .inr ((henc .w32 sc).imp ?_ id)
    rintro ⟨text, m, h1, h2, h3, h4⟩
    exact ⟨.w32, sc, text, m, .inl ⟨rfl, rfl⟩, h1, h2, h3, h4⟩
  | enc128 sc =>
    refine .inr ((henc .w128 sc).imp ?_ id)
    rintro ⟨text, m, h1, h2, h3, h4⟩
    exact ⟨.w128, sc, text, m, .inr ⟨rfl, rfl⟩, h1, h2, h3, h4⟩

/-- What a step answers is what the turn it takes answers. -/
theorem step_cons {s : State} {t : Turn} {rest : List Turn} (h : s.schedule = t :: rest) :
    step s = takeTurn t (s.withSchedule rest) := by
  unfold step
  rw [h]

theorem step_nil {s : State} (h : s.schedule = []) : step s = engineTurn s := by
  unfold step
  rw [h]

/-- A run takes its first step, then the others. -/
theorem core_run_succ {s t : State} (n : Nat) (h : step s = .next t) :
    Host.Core.run Sys2Proof.core (n + 1) s = Host.Core.run Sys2Proof.core n t := by
  have hs : Sys2Proof.core.step s = .next t := h
  simp only [Host.Core.run, hs]

/-- A completion always answers a next state: an idle block with `DONE` set, the turns to come as before. -/
theorem complete_next (s : State) :
    ∃ t, complete s = .next t ∧ t.status.busy = false ∧ t.status.done = true ∧ t.schedule = s.schedule := by
  unfold complete
  split
  · rename_i i _
    rcases exec_cases i s with ⟨r, h⟩ | ⟨w, sc, text, m, -, -, -, -, h⟩ | ⟨e, h⟩ <;> exact ⟨_, h, rfl, rfl, rfl⟩
  · exact ⟨_, rfl, rfl, rfl, rfl⟩

/-- The engine's turn always answers a next state: an idle block, the turns to come as before. -/
theorem engineTurn_next (s : State) :
    ∃ t, engineTurn s = .next t ∧ t.status.busy = false ∧ t.schedule = s.schedule := by
  unfold engineTurn
  split
  · obtain ⟨t, h, hb, -, hs⟩ := complete_next s
    exact ⟨t, h, hb, hs⟩
  · rename_i h
    exact ⟨s, rfl, by simpa using h, rfl⟩

end Sys2Proof.Machine
end

