-- ==== Sys2Proof/Tests/Slice0.lean ====
section
/-! SUPPORT. Tests of one decoding, one access or one step each, with expected values from the spec's
vectors (`95_test_vectors.md`), and for each obligation with hypotheses a witness that meets them all. -/

namespace Sys2Proof.Tests

open Sys2Proof.Machine Sys2Proof.Spec

/-! ## Helpers -/

/-- The outcome is a next state that passes a check. -/
def nextAnd (o : Host.Outcome State Fault Refusal) (check : State → Bool) : Bool :=
  match o with
  | .next t => check t
  | .fault _ => false
  | .refused _ => false

theorem exists_of_nextAnd {o : Host.Outcome State Fault Refusal} {check : State → Bool}
    (h : nextAnd o check = true) : ∃ t, o = .next t ∧ check t = true := by
  match o, h with
  | .next t, h => exact ⟨t, rfl, h⟩

/-- The text `TEXT t` leaves in a block just out of reset (`30_encoding.md` R102). -/
def withText (t : List Byte) : State :=
  { State.reset with tlen := BitVec.ofNat 16 t.length, tbuf := ⟨0, (List.range t.length).zip t⟩ }

/-- Operands in a block just out of reset. -/
def withOperands (a b : DoubleWidth) (k : Word) : State := { State.reset with a := a, b := b, k := k }

/-- One step that runs a command word. -/
def runWord (w : Nat) (s : State) : Host.Outcome State Fault Refusal := step (s.withFetchWord 64 w)

/-- `R` and `STATUS` are these. -/
def gives (hi lo status : Word) (t : State) : Bool :=
  t.r.hi == hi && t.r.lo == lo && t.status.word == status

/-- The text `"-0007.50"`. -/
def text0007 : List Byte := [0x2D, 0x30, 0x30, 0x30, 0x37, 0x2E, 0x35, 0x30]

/-- The text `"1234.1234"`. -/
def text1234 : List Byte := [0x31, 0x32, 0x33, 0x34, 0x2E, 0x31, 0x32, 0x33, 0x34]

/-- The text `"1A2.3"`. -/
def text1A2 : List Byte := [0x31, 0x41, 0x32, 0x2E, 0x33]

/-- The text `"-7.5"`. -/
def text75 : List Byte := [0x2D, 0x37, 0x2E, 0x35]

/-- A block with a command in flight. -/
def busyWith (w : Word) (s : State) : State := { s.accept w with schedule := [] }

/-! ## Which terms are well formed: one ill-formed term for each check -/

theorem test_refuses_pow32_index : Instr.wellFormed (.pow32 256) = false := by decide
theorem test_refuses_pow64_index : Instr.wellFormed (.pow64 256) = false := by decide
theorem test_refuses_pow128_index : Instr.wellFormed (.pow128 256) = false := by decide
theorem test_refuses_dec32_precision : Instr.wellFormed (.dec32 256 0) = false := by decide
theorem test_refuses_dec32_scale : Instr.wellFormed (.dec32 0 256) = false := by decide
theorem test_refuses_dec128_precision : Instr.wellFormed (.dec128 256 0) = false := by decide
theorem test_refuses_dec128_scale : Instr.wellFormed (.dec128 0 256) = false := by decide
theorem test_refuses_enc32_scale : Instr.wellFormed (.enc32 256) = false := by decide
theorem test_refuses_enc128_scale : Instr.wellFormed (.enc128 256) = false := by decide

/-! ## Decoding: words written out as reserved, P, S, OP (`30_encoding.md` R91, R95) -/

/-- `POW32 9`, V3. -/
theorem test_decode_pow32 :
    decode ((0 : BitVec 40) ++ (0b00000000 : Byte) ++ (0b00001001 : Byte) ++ (0b00000001 : Byte)) =
      .ok (.pow32 9) := by decide

/-- `POW64 19`, V7. -/
theorem test_decode_pow64 :
    decode ((0 : BitVec 40) ++ (0b00000000 : Byte) ++ (0b00010011 : Byte) ++ (0b00000010 : Byte)) =
      .ok (.pow64 19) := by decide

/-- `POW128 38`, R96. -/
theorem test_decode_pow128 :
    decode ((0 : BitVec 40) ++ (0b00000000 : Byte) ++ (0b00100110 : Byte) ++ (0b00000011 : Byte)) =
      .ok (.pow128 38) := by decide

theorem test_decode_add :
    decode ((0 : BitVec 40) ++ (0 : Byte) ++ (0 : Byte) ++ (0b00010000 : Byte)) = .ok .add := by decide

theorem test_decode_neg :
    decode ((0 : BitVec 40) ++ (0 : Byte) ++ (0 : Byte) ++ (0b00010001 : Byte)) = .ok .neg := by decide

theorem test_decode_muls :
    decode ((0 : BitVec 40) ++ (0 : Byte) ++ (0 : Byte) ++ (0b00010010 : Byte)) = .ok .muls := by decide

theorem test_decode_mul :
    decode ((0 : BitVec 40) ++ (0 : Byte) ++ (0 : Byte) ++ (0b00010011 : Byte)) = .ok .mul := by decide

/-- `DEC32 9, 6`, R96: `P` above `S`. -/
theorem test_decode_dec32 :
    decode ((0 : BitVec 40) ++ (0b00001001 : Byte) ++ (0b00000110 : Byte) ++ (0b00100000 : Byte)) =
      .ok (.dec32 9 6) := by decide

/-- `DEC128 38, 2`, R96. -/
theorem test_decode_dec128 :
    decode ((0 : BitVec 40) ++ (0b00100110 : Byte) ++ (0b00000010 : Byte) ++ (0b00100001 : Byte)) =
      .ok (.dec128 38 2) := by decide

/-- `ENC32 4`, P3. -/
theorem test_decode_enc32 :
    decode ((0 : BitVec 40) ++ (0b00000000 : Byte) ++ (0b00000100 : Byte) ++ (0b00110000 : Byte)) =
      .ok (.enc32 4) := by decide

/-- `ENC128 2`, R96. -/
theorem test_decode_enc128 :
    decode ((0 : BitVec 40) ++ (0b00000000 : Byte) ++ (0b00000010 : Byte) ++ (0b00110001 : Byte)) =
      .ok (.enc128 2) := by decide

/-- V220, V221, V222: unassigned opcodes. -/
theorem test_decode_unassigned :
    decode 0x00 = .error .unassignedOpcode ∧ decode 0x22 = .error .unassignedOpcode ∧
      decode 0x32 = .error .unassignedOpcode ∧ decode 0xFF = .error .unassignedOpcode := by decide

/-- V225, V226: reserved bits. -/
theorem test_decode_reserved :
    decode 0x1000010 = .error .reservedBits ∧ decode 0x8000000000000021 = .error .reservedBits := by decide

/-- V13, V223, V224: fields that the format does not have. -/
theorem test_decode_unused :
    decode 0x10301 = .error .unusedP ∧ decode 0x10030 = .error .unusedP ∧
      decode 0x111 = .error .unusedS := by decide

theorem test_decodeTableWord : decodeTableWord 64 0x260221 = some (.dec128 38 2) := by decide

/-! ## Commands -/

/-- V3. -/
theorem test_pow32_last : nextAnd (runWord 0x901 State.reset) (gives 0 0x3B9ACA00 0x02) = true := by decide

/-- V4. -/
theorem test_pow32_beyond : nextAnd (runWord 0xA01 State.reset) (gives 0 0 0x92) = true := by decide

/-- V7. -/
theorem test_pow64_last :
    nextAnd (runWord 0x1302 State.reset) (gives 0 0x8AC7230489E80000 0x02) = true := by decide

/-- V11. -/
theorem test_pow128_last :
    nextAnd (runWord 0x2603 State.reset) (gives 0x4B3B4CA85A86C47A 0x098A224000000000 0x02) = true := by
  decide

/-- V12. -/
theorem test_pow128_beyond : nextAnd (runWord 0x2703 State.reset) (gives 0 0 0x92) = true := by decide

/-- V20: a carry from the low to the high half. -/
theorem test_add_carries :
    nextAnd (runWord 0x10 (withOperands ⟨0xFEDCBA9876543210, 0x0123456789ABCDEF⟩
      ⟨0x123456789ABCDEF0, 0x0FEDCBA987654321⟩ 0))
      (gives 0x1111111111111111 0x1111111111111100 0x02) = true := by decide

/-- V26. -/
theorem test_neg :
    nextAnd (runWord 0x11 (withOperands ⟨0xFEDCBA9876543210, 0x0123456789ABCDEF⟩ ⟨0, 0⟩ 0))
      (gives 0xFEDCBA9876543210 0x0123456789ABCDF0 0x02) = true := by decide

/-- V32: the low half is 0. -/
theorem test_neg_carries :
    nextAnd (runWord 0x11 (withOperands ⟨0, 1⟩ ⟨0, 0⟩ 0)) (gives 0xFFFFFFFFFFFFFFFF 0 0x02) = true := by
  decide

/-- V41: `K` is unsigned. -/
theorem test_muls_unsigned_k :
    nextAnd (runWord 0x12 (withOperands ⟨0xFFFFFFFFFFFFFFFF, 0xFFFFFFFFFFFFFFFF⟩ ⟨9, 9⟩ 0xFFFFFFFFFFFFFFFF))
      (gives 0xFFFFFFFFFFFFFFFF 1 0x02) = true := by decide

/-- V42. -/
theorem test_mul_truncates :
    nextAnd (runWord 0x13 (withOperands ⟨0xFEDCBA9876543210, 0x0123456789ABCDEF⟩
      ⟨0x123456789ABCDEF0, 0x0FEDCBA987654321⟩ 7))
      (gives 0xAA6C876160EC6A42 0x236D88FE5618CF00 0x02) = true := by decide

/-- V61: `DEC32 9, 3 "-0007.50"`, sign-extended. -/
theorem test_dec32_negative :
    nextAnd (runWord 0x90320 (withText text0007)) (gives 0xFFFFFFFFFFFFFFFF 0xFFFFFFFFFFFFE2B4 0x02) = true := by
  decide

/-- S6: `DEC32 9, 3 "1234.1234"`. -/
theorem test_dec32_fraction_overflow :
    nextAnd (runWord 0x90320 (withText text1234))
      (fun t => gives 0 0 0x42 t && t.errInfo.word == 0x0000000300040008) = true := by decide

/-- S10: `DEC128 38, 2 "295147905179352825855.25"`. -/
theorem test_dec128_exact :
    nextAnd (runWord 0x260221 (withText [0x32, 0x39, 0x35, 0x31, 0x34, 0x37, 0x39, 0x30, 0x35, 0x31, 0x37,
      0x39, 0x33, 0x35, 0x32, 0x38, 0x32, 0x35, 0x38, 0x35, 0x35, 0x2E, 0x32, 0x35]))
      (gives 0x63F 0xFFFFFFFFFFFFFFB5 0x02) = true := by decide

/-- S5 at width 128: `DEC128 9, 6 "1234.12"`. -/
theorem test_dec128_integral_overflow :
    nextAnd (runWord 0x90621 (withText [0x31, 0x32, 0x33, 0x34, 0x2E, 0x31, 0x32]))
      (fun t => gives 0 0 0x32 t && t.errInfo.word == 0x0000000300040003) = true := by decide

/-- V165: `ENC32 2` of -5 prints `"-0.05"`. -/
theorem test_enc32_negative :
    nextAnd (runWord 0x230 (withOperands ⟨0xFFFFFFFB, 0⟩ ⟨0, 0⟩ 0))
      (fun t => textOf t == [0x2D, 0x30, 0x2E, 0x30, 0x35]) = true := by decide

/-- V185: bits 127:32 of `A` are ignored. -/
theorem test_enc32_ignores_high_bits :
    nextAnd (runWord 0x930 (withOperands ⟨0xFFFFFFFF00000005, 0xFFFFFFFFFFFFFFFF⟩ ⟨0, 0⟩ 0))
      (fun t => textOf t == [0x30, 0x2E, 0x30, 0x30, 0x30, 0x30, 0x30, 0x30, 0x30, 0x30, 0x35]) = true := by
  decide

/-- V192: the longest text. -/
theorem test_enc128_longest :
    nextAnd (runWord 0x2631 (withOperands ⟨0, 0x8000000000000000⟩ ⟨0, 0⟩ 0))
      (fun t => t.tlen == 41 && t.tbuf.byte 0 == 0x2D && t.tbuf.byte 2 == 0x2E && t.tbuf.byte 40 == 0x38) =
      true := by decide

/-- V204: trailing zeros are not printed. -/
theorem test_enc128_strips_zeros :
    nextAnd (runWord 0x131 (withOperands ⟨0xFFFFFFFFFFFFFFF6, 0xFFFFFFFFFFFFFFFF⟩ ⟨0, 0⟩ 0))
      (fun t => textOf t == [0x2D, 0x31]) = true := by decide

/-- V223: a word that is no command zeroes `R`. -/
theorem test_illegal_word :
    nextAnd (runWord 0x111 { State.reset with r := ⟨5, 6⟩ }) (gives 0 0 0x82) = true := by decide

/-- V228: the domain check passes before `TLEN = 0` is looked at (`42_decoder.md` R161). -/
theorem test_dec32_empty_after_reset : nextAnd (runWord 0x20 State.reset) (gives 0 0 0x12) = true := by decide

/-! ## The bus -/

/-- V240. -/
theorem test_read_id : (State.reset.busAccess (readAt 0)).bus = .data 0x0001010044434E56 := by decide

/-- V246: `STATUS` is 0x46 and bits 1 and 2 are written as 0. -/
theorem test_status_write_clears_nothing :
    ({ State.reset with status := ⟨false, true, true, 4⟩ }.busAccess (writeAt 0x10 0xF1)).status.word = 0x46 := by
  decide

/-- V249. -/
theorem test_tlen_reserved_bits :
    ((State.reset.busAccess (writeAt 0x58 0x12345)).busAccess (readAt 0x58)).bus = .data 0x2345 := by decide

/-- V250: the lowest address is the least significant byte. -/
theorem test_tbuf_byte_order :
    (State.reset.busAccess (.write 0x1000 .b4 0x352E3730)).tbuf.cells =
      [(0, 0x30), (1, 0x37), (2, 0x2E), (3, 0x35)] := by decide

/-- V243: a second command while busy is dropped. -/
theorem test_command_while_busy :
    (busyWith 0x10 State.reset).busAccess (writeAt 0x18 0x11) =
      { busyWith 0x10 State.reset with status := ⟨true, false, true, 0⟩, bus := .written } := by decide

/-- V241: `STATUS` of a busy block, the previous code still there. -/
theorem test_status_while_busy :
    ((busyWith 0x10 { State.reset with status := ⟨false, true, false, 4⟩ }).busAccess (readAt 0x10)).bus =
      .data 0x41 := by decide

/-- V251: the text `"0007.5"` and two bytes behind it, read as one word. -/
theorem test_text_reads_little_endian :
    ((withText [0x30, 0x30, 0x30, 0x37, 0x2E, 0x35, 0x61, 0x62]).busAccess (.read 0x1000 .b8)).bus =
      .data 0x6261352E37303030 := by decide

/-- V253: a turn that drives `rst_n` low reaches the block through the step. -/
theorem test_reset_turn :
    nextAnd (step { busyWith 0x10 (withText text75) with schedule := [.resetPin false, .resetPin true] })
      (fun t => !t.rstN && t.tlen == 0 && t.status.word == 0 && t.schedule == [.resetPin true]) = true := by
  decide

/-- V252. -/
theorem test_bus_errors :
    (State.reset.busAccess (.read 0x20 .b4)).bus = .error ∧
      (State.reset.busAccess (.read 0x24 .b8)).bus = .error ∧
      (State.reset.busAccess (.write 0x1001 .b2 1)).bus = .error ∧
      (State.reset.busAccess (.read 0x68 .b8)).bus = .error ∧
      (State.reset.busAccess (.read 0x1100 .b1)).bus = .error := by decide

/-! ## Witnesses: the hypotheses of the obligations can be met -/

theorem witness_DecodeOfEncodedCommandIsTheCommand :
    Instr.wellFormed (.dec128 255 255) = true ∧ decode (encode (.dec128 255 255)) = .ok (.dec128 255 255) := by
  decide

theorem witness_EncodeOfDecodedWordIsTheWord : decode 0xFFFF20 = .ok (.dec32 255 255) := by decide

/-- One word of each kind that R99 lists. -/
theorem witness_DecoderRejectsExactlyTheIllegalWords :
    IllegalWord 0x22 ∧ IllegalWord 0x1000010 ∧ IllegalWord 0x10301 ∧ IllegalWord 0x110 ∧
      ¬ IllegalWord 0xFFFF20 := by
  unfold IllegalWord
  refine ⟨?_, ?_, ?_, ?_, ?_⟩ <;> decide

theorem witness_StepRunsTheDecodedCommand :
    (busyWith 0x10 State.reset).status.busy = true ∧ decode (busyWith 0x10 State.reset).cmd = .ok .add ∧
      (busyWith 0x10 State.reset).schedule = [] ∧
      { busyWith 0x10 State.reset with schedule := [.engine] }.schedule = [.engine] ∧
      { State.reset with schedule := [.host (writeAt 0x20 5)] }.schedule = [.host (writeAt 0x20 5)] ∧
      { State.reset with schedule := [.resetPin false, .resetPin true] }.schedule =
        .resetPin false :: [.resetPin true] := by decide

theorem witness_HostCommandIsExecuted :
    Instr.wellFormed (.enc32 4) = true ∧ State.reset.rstN = true ∧ State.reset.status.busy = false ∧
      { State.reset with schedule := [.host (writeAt 0x18 (encode (.enc32 4)))] }.schedule =
        [.host (writeAt 0x18 0x430)] := by decide

theorem witness_IllegalWordCompletesWithIllegalCommand :
    (busyWith 0x22 State.reset).schedule = [] ∧ (busyWith 0x22 State.reset).status.busy = true ∧
      { busyWith 0x22 State.reset with schedule := [.engine] }.schedule = [.engine] ∧
      IllegalWord (busyWith 0x22 State.reset).cmd := by
  unfold IllegalWord
  decide

theorem witness_IdleBlockKeepsAllItsState :
    State.reset.schedule = [] ∧ State.reset.status.busy = false ∧
      { State.reset with schedule := [.engine] }.schedule = [.engine] := by decide

/-- The last index of each bank and the first beyond it. -/
theorem witness_Pow32DeliversTheEntry :
    nextAnd (exec (.pow32 9) State.reset) (gives 0 1000000000 0x02) = true ∧
      nextAnd (exec (.pow32 10) State.reset) (gives 0 0 0x92) = true := by decide

theorem witness_Pow64DeliversTheEntry :
    nextAnd (exec (.pow64 19) State.reset) (gives 0 10000000000000000000 0x02) = true ∧
      nextAnd (exec (.pow64 20) State.reset) (gives 0 0 0x92) = true := by decide

theorem witness_Pow128DeliversTheEntry :
    nextAnd (exec (.pow128 38) State.reset) (gives 0x4B3B4CA85A86C47A 0x098A224000000000 0x02) = true ∧
      nextAnd (exec (.pow128 39) State.reset) (gives 0 0 0x92) = true := by decide

/-- The premises of the two exactness clauses. -/
theorem witness_DoubleWidthLaws :
    valueOf ⟨0xFFFFFFFFFFFFFFFF, 0xFFFFFFFFFFFFFFFE⟩ + valueOf ⟨0, 1⟩ < 2 ^ 128 ∧
      valueOf ⟨0xFFFFFFFFFFFFFFFF, 0⟩ * valueOf ⟨0xFFFFFFFFFFFFFFFF, 0⟩ < 2 ^ 128 := by decide

/-- An accepted text at scale 3, and one at scale 3 that is not: the fault is at index 8. -/
theorem witness_DecHasTheClosedForm :
    (withText text75).tlen.toNat ≤ (withText text75).cfg.lmax ∧ (withText text75).tlen ≠ 0 ∧
      Accepted 9 3 (textOf (withText text75)) ∧ ¬ Accepted 9 3 (textOf (withText text1234)) ∧
      scaledValue 3 (textOf (withText text75)) = -7500 ∧
      nextAnd (exec (.dec32 9 3) (withText text1234))
        (fun t => t == faultAt (withText text1234) 9 3 8 0x34) = true := by
  unfold Accepted
  decide

theorem witness_DecHasTheClosedForm_wide :
    Accepted 38 4 (textOf (withText text1234)) ∧ ¬ Accepted 5 3 (textOf (withText text1234)) ∧
      nextAnd (exec (.dec128 5 3) (withText text1234))
        (fun t => t == faultAt (withText text1234) 5 3 2 0x33) = true := by
  unfold Accepted
  decide

theorem witness_DecCompletesAndKeepsEverythingElse :
    isDec (.dec32 9 3) 9 3 ∧ isDec (.dec128 38 38) 38 38 := by
  unfold isDec
  decide

theorem witness_Dec32AgreesWithDec128 :
    nextAnd (exec (.dec32 9 3) (withText text75)) (gives 0xFFFFFFFFFFFFFFFF 0xFFFFFFFFFFFFE2B4 0x02) = true ∧
      nextAnd (exec (.dec128 9 3) (withText text75)) (gives 0xFFFFFFFFFFFFFFFF 0xFFFFFFFFFFFFE2B4 0x02) =
        true := by decide

theorem witness_EmptyInputExactlyOnEmptyText :
    isDec (.dec32 9 3) 9 3 ∧ ¬ OutOfDomain (.dec32 9 3) State.reset ∧ State.reset.tlen = 0 ∧
      ∃ t, exec (.dec32 9 3) State.reset = .next t ∧ t.status.err = 1 :=
  ⟨.inl rfl, by unfold OutOfDomain; decide, by decide,
    (exists_of_nextAnd (check := fun t => t.status.err == 1) (by decide)).imp fun _ h =>
      ⟨h.1, by simpa using h.2⟩⟩

theorem witness_InvalidCharacterIsTheFirstStrayByte :
    isDec (.dec32 9 3) 9 3 ∧ ∃ t, exec (.dec32 9 3) (withText text1A2) = .next t ∧ t.status.err = 2 :=
  ⟨.inl rfl, (exists_of_nextAnd (check := fun t => t.status.err == 2) (by decide)).imp fun _ h =>
      ⟨h.1, by simpa using h.2⟩⟩

theorem witness_IntegralOverflowIsTheDigitBeyondTheBudget :
    isDec (.dec128 5 2) 5 2 ∧ ∃ t, exec (.dec128 5 2) (withText text1234) = .next t ∧ t.status.err = 3 :=
  ⟨.inr rfl, (exists_of_nextAnd (check := fun t => t.status.err == 3) (by decide)).imp fun _ h =>
      ⟨h.1, by simpa using h.2⟩⟩

theorem witness_FractionOverflowIsTheFirstDigitBeyondTheScale :
    isDec (.dec32 9 3) 9 3 ∧ ∃ t, exec (.dec32 9 3) (withText text1234) = .next t ∧ t.status.err = 4 :=
  ⟨.inl rfl, (exists_of_nextAnd (check := fun t => t.status.err == 4) (by decide)).imp fun _ h =>
      ⟨h.1, by simpa using h.2⟩⟩

/-- A text with a `'.'`; a text that does not begin with `'-'`; one that does. -/
theorem witness_RedundantZerosAreFree :
    ((0x2E : Byte) ∈ text75 ∧ decodeText .w32 9 3 text75 = .ok 4294959796) ∧
      (text1234.head? ≠ some 0x2D ∧ decodeText .w128 9 4 text1234 = .ok 12341234) ∧
      decodeText .w32 9 3 (0x2D :: [0x37, 0x2E, 0x35]) = .ok 4294959796 := by decide

/-- A fault at an inner byte, and one at the last byte. -/
theorem witness_BytesAfterTheFaultDoNotMatter :
    decodeText .w32 9 3 text1A2 = .error (.raise ⟨.invalidCharacter, 1, 0, 0⟩) ∧
      decodeText .w128 9 3 text1234 = .error (.raise ⟨.fractionOverflow, 8, 4, 3⟩) := by decide

/-- The smallest and the largest scale of ENC32. -/
theorem witness_Enc32PrintsTheValue :
    nextAnd (exec (.enc32 0) (withOperands ⟨0x80000000, 0⟩ ⟨0, 0⟩ 0)) (fun t => t.tlen == 11) = true ∧
      nextAnd (exec (.enc32 9) (withOperands ⟨0x80000000, 0⟩ ⟨0, 0⟩ 0)) (fun t => t.tlen == 12) = true ∧
      nextAnd (exec (.enc32 10) State.reset) (gives 0 0 0x92) = true := by decide

/-- The smallest and the largest scale of ENC128. -/
theorem witness_Enc128PrintsTheValue :
    nextAnd (exec (.enc128 0) (withOperands ⟨0, 0x8000000000000000⟩ ⟨0, 0⟩ 0)) (fun t => t.tlen == 40) = true ∧
      nextAnd (exec (.enc128 38) (withOperands ⟨0, 0x8000000000000000⟩ ⟨0, 0⟩ 0)) (fun t => t.tlen == 41) =
        true ∧
      nextAnd (exec (.enc128 39) State.reset) (gives 0 0 0x92) = true := by decide

theorem witness_EncodedTextIsCanonical :
    (∃ t, exec (.enc32 9) State.reset = .next t) ∧ ∃ t, exec (.enc128 38) State.reset = .next t :=
  ⟨(exists_of_nextAnd (check := fun _ => true) (by decide)).imp fun _ h => h.1,
    (exists_of_nextAnd (check := fun _ => true) (by decide)).imp fun _ h => h.1⟩

theorem witness_EncodedLengthIsBounded :
    (∃ t, exec (.enc32 9) (withOperands ⟨0x80000000, 0⟩ ⟨0, 0⟩ 0) = .next t ∧ t.tlen = 12) ∧
      ∃ t, exec (.enc128 38) (withOperands ⟨0, 0x8000000000000000⟩ ⟨0, 0⟩ 0) = .next t ∧ t.tlen = 41 :=
  ⟨(exists_of_nextAnd (check := fun t => t.tlen == 12) (by decide)).imp fun _ h => ⟨h.1, by simpa using h.2⟩,
    (exists_of_nextAnd (check := fun t => t.tlen == 41) (by decide)).imp fun _ h => ⟨h.1, by simpa using h.2⟩⟩

theorem witness_MostNegativeValuePrintsExactly :
    (withOperands ⟨0xFFFFFFFF80000000, 5⟩ ⟨0, 0⟩ 0).a.lo.toNat % 2 ^ 32 = 2 ^ 31 ∧
      (withOperands ⟨0, 0x8000000000000000⟩ ⟨0, 0⟩ 0).a = ⟨0, 0x8000000000000000⟩ := by decide

/-- The largest precision at each width, with a value of that many digits. -/
theorem witness_DecodeOfEncodedValueIsTheValue :
    (signedOf 32 (valueOf (withOperands ⟨0xC4653601, 0⟩ ⟨0, 0⟩ 0).a % 2 ^ 32)).natAbs < 10 ^ 9 ∧
      (signedOf 128 (valueOf (withOperands ⟨0x098A223FFFFFFFFF, 0x4B3B4CA85A86C47A⟩ ⟨0, 0⟩ 0).a)).natAbs <
        10 ^ 38 := by decide

theorem witness_EncodeOfDecodedTextIsTheText :
    Canonical (textOf (withText text75)) ∧
      (∃ t, exec (.dec32 9 3) (withText text75) = .next t ∧ t.status.err = 0) ∧
      ∃ t, exec (.dec128 38 38) (withText [0x30]) = .next t ∧ t.status.err = 0 :=
  ⟨⟨true, [0x37], [0x35], by decide⟩,
    (exists_of_nextAnd (check := fun t => t.status.err == 0) (by decide)).imp fun _ h =>
      ⟨h.1, by simpa using h.2⟩,
    (exists_of_nextAnd (check := fun t => t.status.err == 0) (by decide)).imp fun _ h =>
      ⟨h.1, by simpa using h.2⟩⟩

/-- The second clauses of the three: the offending byte, behind an accepted text. -/
theorem witness_offending_bytes :
    (¬ OutOfDomain (.dec32 9 3) (withText text1A2) ∧ Stray (textOf (withText text1A2)) 1 ∧
      Accepted 9 3 ((textOf (withText text1A2)).take 1)) ∧
    (¬ OutOfDomain (.dec128 5 2) (withText text1234) ∧ BeyondBudget 5 2 (textOf (withText text1234)) 3 ∧
      Accepted 5 2 ((textOf (withText text1234)).take 3)) ∧
    ¬ OutOfDomain (.dec32 9 3) (withText text1234) ∧ BeyondScale 3 (textOf (withText text1234)) 8 ∧
      Accepted 9 3 ((textOf (withText text1234)).take 8) := by
  refine ⟨⟨?_, ⟨0x41, ?_⟩, ?_⟩, ⟨?_, ⟨0x34, ?_⟩, ?_⟩, ?_, ⟨0x34, ?_⟩, ?_⟩
  all_goals first | (unfold OutOfDomain; decide) | (unfold Accepted; decide) | decide

/-- Two states that differ outside the operand print the same text. -/
theorem witness_EncodingIsInjective :
    ∃ t t', exec (.enc32 9) (withOperands ⟨5, 0⟩ ⟨0, 0⟩ 0) = .next t ∧
      exec (.enc32 9) (withOperands ⟨0x100000005, 7⟩ ⟨1, 0⟩ 0) = .next t' ∧ textOf t = textOf t' := by
  obtain ⟨t, h1, h2⟩ := exists_of_nextAnd (o := exec (.enc32 9) (withOperands ⟨5, 0⟩ ⟨0, 0⟩ 0))
    (check := fun t => textOf t == [0x30, 0x2E, 0x30, 0x30, 0x30, 0x30, 0x30, 0x30, 0x30, 0x30, 0x35]) (by decide)
  obtain ⟨t', h1', h2'⟩ := exists_of_nextAnd (o := exec (.enc32 9) (withOperands ⟨0x100000005, 7⟩ ⟨1, 0⟩ 0))
    (check := fun t => textOf t == [0x30, 0x2E, 0x30, 0x30, 0x30, 0x30, 0x30, 0x30, 0x30, 0x30, 0x35]) (by decide)
  exact ⟨t, t', h1, h1', (eq_of_beq h2).trans (eq_of_beq h2').symm⟩

/-- `ENC128` the same, on equal operands. -/
theorem witness_EncodingIsInjective_wide :
    ∃ t, exec (.enc128 38) (withOperands ⟨5, 0⟩ ⟨0, 0⟩ 0) = .next t :=
  (exists_of_nextAnd (check := fun _ => true) (by decide)).imp fun _ h => h.1

/-- Both sides of the domain, at its edge. -/
theorem witness_ParamFaultExactlyOutOfDomain :
    OutOfDomain (.pow64 20) State.reset ∧ ¬ OutOfDomain (.pow64 19) State.reset ∧
      OutOfDomain (.dec32 10 3) State.reset ∧ OutOfDomain (.dec128 5 6) State.reset ∧
      OutOfDomain (.dec32 9 3) { State.reset with tlen := 257 } ∧
      ¬ OutOfDomain (.dec32 9 9) { State.reset with tlen := 256 } ∧ OutOfDomain (.enc128 39) State.reset ∧
      nextAnd (exec (.dec32 9 9) { withText text75 with tlen := 4 }) (fun t => t.status.err != 9) = true := by
  unfold OutOfDomain
  decide

/-- A completion of each kind that R215 has a row for. -/
theorem witness_FaultCompletionWritesExactlyItsRow :
    nextAnd (complete (busyWith 0x90320 (withText text75))) (fun t => t.status.err == 0) = true ∧
      nextAnd (complete (busyWith 0x90320 State.reset)) (fun t => t.status.err == 1) = true ∧
      nextAnd (complete (busyWith 0x90320 (withText text1A2))) (fun t => t.status.err == 2) = true ∧
      nextAnd (complete (busyWith 0x50220 (withText text1234))) (fun t => t.status.err == 3) = true ∧
      nextAnd (complete (busyWith 0x90320 (withText text1234))) (fun t => t.status.err == 4) = true := by
  decide

/-- A word that is a command and one that is none. -/
theorem witness_EachCommandHasItsCodes :
    decode (busyWith 0x10 State.reset).cmd = .ok .add ∧
      decode (busyWith 0x22 State.reset).cmd = .error .unassignedOpcode ∧
      nextAnd (complete (busyWith 0x10 State.reset)) (fun t => t.status.err == 0) = true ∧
      nextAnd (complete (busyWith 0x22 State.reset)) (fun t => t.status.err == 8) = true := by decide

theorem witness_InterruptIsEnableAndDone :
    nextAnd (complete { busyWith 0x10 State.reset with ie := true }) (fun t => t.irq) = true ∧
      (State.reset.rstN = true ∧ State.reset.status.busy = false) ∧ (2 : Word).getLsbD 1 = true := by decide

/-- Bus errors at the edges of the map, and accesses just inside it. -/
theorem witness_BusErrorsAreExactlyTheseAndChangeNothing :
    State.reset.rstN = true ∧ IsBusError State.reset.cfg (.read 0x68 .b8) ∧
      IsBusError State.reset.cfg (.read 0xFFF .b1) ∧ IsBusError State.reset.cfg (.write 0x1100 .b1 0) ∧
      IsBusError State.reset.cfg (.read 0x64 .b4) ∧ IsBusError State.reset.cfg (.read 0x1001 .b2) ∧
      ¬ IsBusError State.reset.cfg (.read 0x60 .b8) ∧ ¬ IsBusError State.reset.cfg (.read 0x1000 .b8) ∧
      ¬ IsBusError State.reset.cfg (.write 0x10FF .b1 0) := by
  unfold IsBusError
  refine ⟨?_, ?_, ?_, ?_, ?_, ?_, ?_, ?_, ?_⟩ <;> decide

theorem witness_CommandWriteWhenIdleIsAccepted :
    State.reset.rstN = true ∧ State.reset.status.busy = false ∧
      (busyWith 0x10 State.reset).status.busy = true := by decide

/-- A busy block out of reset, and accesses to the first and the last byte of TBUF. -/
theorem witness_WritesWhileBusyAreDropped :
    (busyWith 0x10 State.reset).rstN = true ∧ (busyWith 0x10 State.reset).status.busy = true ∧
      (0x1000 ≤ (0x1000 : BitVec 16).toNat ∧ ¬ IsBusError State.reset.cfg (.write 0x1000 .b8 1)) ∧
      0x1000 ≤ (0x10FF : BitVec 16).toNat ∧ ¬ IsBusError State.reset.cfg (.write 0x10FF .b1 1) := by
  unfold IsBusError
  decide

theorem witness_ReadsWhileBusy :
    (busyWith 0x10 State.reset).rstN = true ∧ (busyWith 0x10 State.reset).status.busy = true ∧
      (0x1000 ≤ (0x1000 : BitVec 16).toNat ∧ ¬ IsBusError State.reset.cfg (.read 0x1000 .b8)) ∧
      0x1000 ≤ (0x10FF : BitVec 16).toNat ∧ ¬ IsBusError State.reset.cfg (.read 0x10FF .b1) := by
  unfold IsBusError
  decide

theorem witness_ReadsChangeNothingAndWritesAreIdempotent :
    State.reset.status.busy = false ∧ (0x10 : BitVec 16) ≠ 0x18 := by decide

/-- The last eight bytes and the last byte of TBUF. -/
theorem witness_TextWriteStoresItsBytesAndReadsBack :
    State.reset.rstN = true ∧ State.reset.status.busy = false ∧
      (0x1000 ≤ (0x10F8 : BitVec 16).toNat ∧ ¬ IsBusError State.reset.cfg (.read 0x10F8 .b8)) ∧
      0x1000 ≤ (0x10FF : BitVec 16).toNat ∧ ¬ IsBusError State.reset.cfg (.read 0x10FF .b1) := by
  unfold IsBusError
  decide

theorem witness_ReservedBitsReadZeroAndIgnoreWrites :
    State.reset.rstN = true ∧ State.reset.status.busy = false ∧ (0x1000000 : Word).toNat / 2 ^ 24 ≠ 0 := by
  decide

theorem witness_IdRegisterIsTheConstant : State.reset.rstN = true ∧ State.reset.cfg.lmax = 256 := by decide

theorem witness_RegistersReadBackWhatTheyHold :
    (withOperands ⟨1, 2⟩ ⟨3, 4⟩ 5).rstN = true ∧ (withOperands ⟨1, 2⟩ ⟨3, 4⟩ 5).status.busy = false := by decide

theorem witness_ResetAbandonsTheCommandInFlight :
    ((busyWith 0x10 (withText text75)).drivePin false).rstN = false ∧
      ((busyWith 0x10 (withText text75)).drivePin false).status.busy = false := by decide

/-- A state with the invariants and a step from it. -/
theorem witness_EveryStepKeepsTheInvariants :
    State.reset.Inv ∧ ∃ t, step State.reset = .next t :=
  ⟨{ busy_not_done := by decide
     err_code := ⟨.ok, rfl⟩
     fault_zeroes_r := by decide
     info_zero := by decide
     info_invalid := by decide
     info_integral := by decide
     info_fraction := by decide
     info_pos := by decide
     tbuf_wf := by decide
     held_in_reset := fun h => absurd h (by decide) }, ⟨_, rfl⟩⟩

/-- A busy block with a host access to come and no reset. -/
theorem witness_EveryCommandCompletes :
    { busyWith 0x10 State.reset with schedule := [.host (writeAt 0x20 5)] }.status.busy = true ∧
      Turn.resetPin false ∉ { busyWith 0x10 State.reset with schedule := [.host (writeAt 0x20 5)] }.schedule := by
  decide

/-- The completion, and reset, each clear `BUSY`. -/
theorem witness_BusyClearsOnlyByCompletionOrReset :
    (busyWith 0x10 State.reset).status.busy = true ∧
      nextAnd (step (busyWith 0x10 State.reset)) (fun t => !t.status.busy) = true ∧
      nextAnd (step { busyWith 0x10 State.reset with schedule := [.engine] }) (fun t => !t.status.busy) = true ∧
      nextAnd (step { busyWith 0x10 State.reset with schedule := [.resetPin false] })
        (fun t => !t.status.busy) = true := by decide

theorem witness_CompletionKeepsOperands :
    nextAnd (complete (busyWith 0x90320 (withText text75))) (fun t => t.tlen == 4) = true ∧
      nextAnd (complete (busyWith 0x30 (withText text75))) (fun t => t.tlen == 1) = true := by decide

theorem witness_HostAccessesWhileBusyDoNotDisturbTheCommand :
    (busyWith 0x13 (withOperands ⟨3, 0⟩ ⟨7, 0⟩ 0)).status.busy = true ∧
      nextAnd (Host.Core.run Sys2Proof.core 3
        { busyWith 0x13 (withOperands ⟨3, 0⟩ ⟨7, 0⟩ 0) with
          schedule := [.host (writeAt 0x20 100), .host (writeAt 0x18 0x10), .engine] })
        (gives 0 21 0x06) = true := by decide

end Sys2Proof.Tests
end

section
/-! SUPPORT. The host's register accesses: what a 64-bit read and a 64-bit write of a register do, and the
fields that hold something as the numbers a read returns (`10_state.md` R28 to R35). -/

namespace Sys2Proof.Machine

open Sys2Proof.Spec

/-! ## The access of a register -/

theorem BusReg.lt_of_atOffset {off : Nat} {x : BusReg} (h : BusReg.atOffset off = some x) : off < 0x68 := by
  unfold BusReg.atOffset at h
  split at h
  case h_14 => cases h
  all_goals omega

theorem busTarget_of_atOffset (c : Config) {off : Nat} {x : BusReg} (h : BusReg.atOffset off = some x) :
    busTarget c (BitVec.ofNat 16 off) .b8 = some (.reg x) := by
  have hlt := BusReg.lt_of_atOffset h
  have hoff : (BitVec.ofNat 16 off).toNat = off := by
    rw [BitVec.toNat_ofNat]
    omega
  exact busTarget_eq_reg.2 ⟨by omega, rfl, by rw [hoff, h]⟩

/-- A read of a register answers its value, unless the block is busy and the register unspecified then. -/
theorem State.busAccess_readAt {s : State} {off : Nat} {x : BusReg} (hr : s.rstN = true)
    (ht : BusReg.atOffset off = some x) (hb : (s.status.busy && x.unspecifiedWhileBusy) = false) :
    s.busAccess (readAt off) = s.answer (.data (s.readReg x)) := by
  simp [State.busAccess, readAt, State.hostRead, hr, busTarget_of_atOffset s.cfg ht, hb]

/-- A write of a register stores into it, unless the block is busy and the register locked then. -/
theorem State.busAccess_writeAt {s : State} {off : Nat} {x : BusReg} (v : Word) (hr : s.rstN = true)
    (ht : BusReg.atOffset off = some x) (hb : (s.status.busy && x.lockedWhileBusy) = false) :
    s.busAccess (writeAt off v) = (s.writeReg x v).answer .written := by
  simp [State.busAccess, writeAt, State.hostWrite, hr, busTarget_of_atOffset s.cfg ht, hb]

@[simp] theorem State.writeReg_rstN (s : State) (x : BusReg) (v : Word) : (s.writeReg x v).rstN = s.rstN := by
  cases x <;> rfl

/-- A write of a register of an idle block, then a read of it, answers what was stored. The last hypothesis
is about `CMD`, whose write makes the block busy (`70_reset_and_hazards.md` R258). -/
theorem State.busAccess_writeAt_readAt {s : State} {off : Nat} {x : BusReg} (v : Word) (hr : s.rstN = true)
    (hidle : s.status.busy = false) (ht : BusReg.atOffset off = some x)
    (hb : ((s.writeReg x v).status.busy && x.unspecifiedWhileBusy) = false) :
    ((s.busAccess (writeAt off v)).busAccess (readAt off)).bus = .data ((s.writeReg x v).readReg x) := by
  have hw := s.busAccess_writeAt v hr ht (by simp [hidle])
  rw [hw, State.busAccess_readAt (by simpa using hr) ht (by simpa using hb), State.answer_bus]
  cases x <;> rfl

/-! ## The read value of each register with fields -/

theorem toNat_append_eq_add {m n : Nat} (a : BitVec m) (b : BitVec n) :
    (a ++ b).toNat = a.toNat * 2 ^ n + b.toNat := by
  rw [BitVec.toNat_append, ← Nat.shiftLeft_add_eq_or_of_lt b.isLt, Nat.shiftLeft_eq]

theorem toNat_ctrlWord (ie : Bool) : (ctrlWord ie).toNat = ie.toNat := by
  simp only [ctrlWord, toNat_append_eq_add, BitVec.ofNat_eq_ofNat, BitVec.toNat_ofNat,
    BitVec.toNat_ofBool]
  omega

theorem toNat_tlenWord (n : BitVec 16) : (tlenWord n).toNat = n.toNat := by
  simp only [tlenWord, toNat_append_eq_add, BitVec.ofNat_eq_ofNat, BitVec.toNat_ofNat]
  omega

theorem toNat_statusWord (f : Status) :
    f.word.toNat = f.busy.toNat + 2 * f.done.toNat + 4 * f.werr.toNat + 16 * f.err.toNat := by
  simp only [Status.word, toNat_append_eq_add, BitVec.ofNat_eq_ofNat, BitVec.toNat_ofNat,
    BitVec.toNat_ofBool]
  omega

theorem toNat_errInfoWord (e : ErrInfo) :
    e.word.toNat = e.pos.toNat + 2 ^ 16 * e.ord.toNat + 2 ^ 32 * e.lim.toNat := by
  simp only [ErrInfo.word, toNat_append_eq_add, BitVec.ofNat_eq_ofNat, BitVec.toNat_ofNat]
  omega

theorem toNat_idWord (c : Config) :
    (idWord c).toNat = 1 * 2 ^ 48 + c.lmax * 2 ^ 32 + 0x44434E56 := by
  have hle : c.lmax ≤ 4096 := c.lmax_le
  simp only [idWord, toNat_append_eq_add, BitVec.ofNat_eq_ofNat, BitVec.toNat_ofNat]
  omega

/-- A 64-bit value is determined by its number. -/
theorem eq_ofNat_of_toNat {w : Word} {n : Nat} (h : w.toNat = n) : w = BitVec.ofNat 64 n := by
  rw [← h, BitVec.ofNat_toNat, BitVec.setWidth_eq]

/-- Bits 63:8 of `STATUS` read 0 (`10_state.md` R29, R32). -/
theorem statusWord_lt (f : Status) : f.word.toNat < 2 ^ 8 := by
  have hbusy := f.busy.toNat_le
  have hdone := f.done.toNat_le
  have hwerr := f.werr.toNat_le
  have herr := f.err.isLt
  rw [toNat_statusWord]
  omega

/-- Bit 3 of `STATUS` reads 0 (`10_state.md` R29, R32). -/
theorem statusWord_bit3 (f : Status) : f.word.getLsbD 3 = false := by
  have hbusy := f.busy.toNat_le
  have hdone := f.done.toNat_le
  have hwerr := f.werr.toNat_le
  rw [← BitVec.testBit_toNat, toNat_statusWord, Nat.testBit_eq_decide_div_mod_eq, decide_eq_false_iff_not]
  omega

/-- Bits 63:40 of `ERRINFO` read 0 (`10_state.md` R29, R35). -/
theorem errInfoWord_lt (e : ErrInfo) : e.word.toNat < 2 ^ 40 := by
  have hpos := e.pos.isLt
  have hord := e.ord.isLt
  have hlim := e.lim.isLt
  rw [toNat_errInfoWord]
  omega

/-- What `CTRL` reads after a write: bit 0 of the written word. -/
theorem ctrlWord_of_written (v : Word) : ctrlWord (v.getLsbD 0) = BitVec.ofNat 64 (v.toNat % 2) := by
  apply eq_ofNat_of_toNat
  rw [toNat_ctrlWord, ← BitVec.testBit_toNat, Nat.toNat_testBit, pow_zero, Nat.div_one]

/-- What `TLEN` reads after a write: the low 16 bits of the written word. -/
theorem tlenWord_of_written (v : Word) :
    tlenWord (v.extractLsb' 0 16) = BitVec.ofNat 64 (v.toNat % 2 ^ 16) := by
  apply eq_ofNat_of_toNat
  rw [toNat_tlenWord, BitVec.extractLsb'_toNat, Nat.shiftRight_zero]

end Sys2Proof.Machine

namespace Sys2Proof

/-! ## Words with a reserved bit -/

/-- Every row of the opcode map asks for 0 in every bit of 63:24 (`30_encoding.md` R91). -/
theorem opcodeRows_reserved :
    ∀ r ∈ opcodeRows, fieldReserved r.mask = BitVec.allOnes 40 ∧ fieldReserved r.pattern = 0 := by
  decide

theorem OpcodeRow.reserved_of_selects {r : OpcodeRow} {w : Word} (hr : r ∈ opcodeRows)
    (h : r.selects w = true) : fieldReserved w = 0 := by
  obtain ⟨hmask, hpattern⟩ := opcodeRows_reserved r hr
  have hand : w &&& r.mask = r.pattern := by simpa [OpcodeRow.selects] using h
  calc fieldReserved w
      = fieldReserved w &&& fieldReserved r.mask := by rw [hmask, BitVec.and_allOnes]
    _ = fieldReserved (w &&& r.mask) := BitVec.extractLsb'_and.symm
    _ = 0 := by rw [hand, hpattern]

/-- A word with a bit of 63:24 set is no command (`30_encoding.md` R99). -/
theorem decode_error_of_reserved {w : Word} (h : fieldReserved w ≠ 0) : ∃ e, decode w = .error e := by
  have hnone : opcodeRows.find? (fun r => r.selects w) = none :=
    List.find?_eq_none.2 fun _ hr hsel => h (OpcodeRow.reserved_of_selects hr hsel)
  exact ⟨rejection w, by rw [decode, hnone]⟩

end Sys2Proof
end

section
/-! SUPPORT. The reset values of `10_state.md` R48, in the reset state and while `rst_n` is low. -/

namespace Sys2Proof.Machine

theorem State.registersReset_reset : State.reset.RegistersReset := by
  constructor <;> rfl

theorem State.registersReset_assertReset (s : State) : s.assertReset.RegistersReset := by
  constructor <;> simp

@[simp] theorem State.drivePin_false (s : State) : s.drivePin false = s.assertReset := rfl

/-- With the registers reset no interrupt is raised (`60_exceptions.md` R220). -/
theorem State.RegistersReset.irq_eq_false {s : State} (h : s.RegistersReset) : s.irq = false := by
  rw [State.irq, h.ie, Bool.false_and]

/-- A byte that TBUF does not list is the free value of the draw. -/
theorem Memory.byte_of_cells_nil {m : Memory} (h : m.cells = []) (i : Nat) :
    m.byte i = Config.freeTbufByte m.epoch i := by
  rw [Memory.byte, h, lookupCell, Option.getD_none]

end Sys2Proof.Machine
end

section
/-! The statements on the registers and their reset values (`10_state.md`). -/

namespace Sys2Proof.Machine

open Sys2Proof.Spec

/-- Settles O41: an idle block accepts every word by the rule of a register write; a busy one keeps the
command and the operands by `State.busAccess_busy`. -/
theorem commandWriteWhenIdleIsAccepted : Obligations.CommandWriteWhenIdleIsAccepted := by
  refine ⟨fun s w hr hidle => ?_, fun s x hbusy => ?_⟩
  · rw [State.busAccess_writeAt (x := .cmd) w hr rfl (by simp [hidle])]
    rfl
  · obtain ⟨ie, done, werr, y, n, -, h⟩ := s.busAccess_busy hbusy x
    simp [h, hbusy]

/-- Settles O46: each clause is the rule of a register write or read, with the read value as a number. -/
theorem reservedBitsReadZeroAndIgnoreWrites : Obligations.ReservedBitsReadZeroAndIgnoreWrites := by
  intro s v hr hidle
  have hwrite : ∀ {off x}, BusReg.atOffset off = some x →
      s.busAccess (writeAt off v) = (s.writeReg x v).answer .written := fun ht =>
    State.busAccess_writeAt v hr ht (by simp [hidle])
  have hread : ∀ {off x}, BusReg.atOffset off = some x →
      (s.busAccess (readAt off)).bus = .data (s.readReg x) := fun ht => by
    rw [State.busAccess_readAt hr ht (by simp [hidle]), State.answer_bus]
  refine ⟨?ctrl, ?tlen, ?cmd, ?reserved, ?status, ?statusRead, ?errInfoRead, ?readOnly⟩
  case ctrl =>
    rw [State.busAccess_writeAt_readAt (x := .ctrl) v hr hidle rfl (Bool.and_false _)]
    exact congrArg BusAnswer.data (ctrlWord_of_written v)
  case tlen =>
    rw [State.busAccess_writeAt_readAt (x := .tlen) v hr hidle rfl (by simp [State.writeReg, hidle])]
    exact congrArg BusAnswer.data (tlenWord_of_written v)
  case cmd =>
    exact State.busAccess_writeAt_readAt (x := .cmd) v hr hidle rfl (Bool.and_false _)
  case reserved =>
    intro hbits
    refine decode_error_of_reserved fun hzero => hbits ?_
    rw [← toNat_fieldReserved, hzero]
    rfl
  case status =>
    exact hwrite (x := .status) rfl
  case statusRead =>
    exact ⟨_, hread (x := .status) rfl, statusWord_lt _, statusWord_bit3 _⟩
  case errInfoRead =>
    exact ⟨_, hread (x := .errInfo) rfl, errInfoWord_lt _⟩
  case readOnly =>
    simp only [List.forall_mem_cons]
    exact ⟨hwrite (x := .id) rfl, hwrite (x := .rLo) rfl, hwrite (x := .rHi) rfl,
      hwrite (x := .errInfo) rfl, List.forall_mem_nil _⟩

/-- Settles O47: `ID` is specified in a busy block too, and its fields do not overlap. -/
theorem idRegisterIsTheConstant : Obligations.IdRegisterIsTheConstant := by
  have hread : ∀ s : State, s.rstN = true → s.busAccess (readAt 0x00) =
      { s with bus := .data (BitVec.ofNat 64 (1 * 2 ^ 48 + s.cfg.lmax * 2 ^ 32 + 0x44434E56)) } := by
    intro s hr
    rw [State.busAccess_readAt (x := .id) hr rfl (Bool.and_false _), ← eq_ofNat_of_toNat (toNat_idWord s.cfg)]
    rfl
  refine ⟨hread, fun s hr hlmax => ?_⟩
  rw [hread s hr, hlmax]
  rfl

/-- Settles O49: `assertReset` and the reset state have the same registers and list no byte of TBUF. -/
theorem resetStateHasTheResetValues : Obligations.ResetStateHasTheResetValues := by
  refine ⟨fun s => rfl, fun s t ht => ?_⟩
  rw [State.drivePin_false, List.mem_pair] at ht
  have hregs : t.RegistersReset := by
    rcases ht with rfl | rfl
    · exact State.registersReset_reset
    · exact s.registersReset_assertReset
  have hcells : t.tbuf.cells = [] := by
    rcases ht with rfl | rfl <;> rfl
  exact ⟨hregs, hregs.irq_eq_false, Memory.byte_of_cells_nil hcells⟩

end Sys2Proof.Machine
end

section
/-! SUPPORT. Which accesses reach nothing, in the model's terms and in those of `20_memory.md` R66, and how
the port answers them. -/

namespace Sys2Proof.Machine

open Sys2Proof.Spec

/-! ## Accesses that reach nothing -/

/-- What an access of the host reaches; `none` is a bus error (`20_memory.md` R63, R64, R66). -/
def BusAccess.target (c : Config) : BusAccess → Option BusTarget
  | .read off size => busTarget c off size
  | .write off size _ => busTarget c off size

@[simp] theorem accessBytes_read (off : BitVec 16) (size : AccessSize) :
    accessBytes (.read off size) = size.bytes := by
  cases size <;> rfl

@[simp] theorem accessBytes_write (off : BitVec 16) (size : AccessSize) (v : Word) :
    accessBytes (.write off size v) = size.bytes := by
  cases size <;> rfl

theorem AccessSize.bytes_eq_eight {size : AccessSize} : size.bytes = 8 ↔ size = .b8 := by
  cases size <;> decide

/-- `busTarget_eq_none` in the words of `20_memory.md` R66, whose conditions come in another order and
compare the size in bytes. -/
theorem busTarget_eq_none_iff_isBusError {c : Config} {off : BitVec 16} {size : AccessSize} {x : BusAccess}
    (hoff : offsetOf x = off.toNat) (hsize : accessBytes x = size.bytes) :
    busTarget c off size = none ↔ IsBusError c x := by
  rw [busTarget_eq_none, IsBusError, hoff, hsize, AccessSize.bytes_eq_eight.ne, or_left_comm]
  exact or_congr_right or_left_comm

theorem BusAccess.target_eq_none {c : Config} {x : BusAccess} : x.target c = none ↔ IsBusError c x := by
  cases x with
  | read off size => exact busTarget_eq_none_iff_isBusError rfl (accessBytes_read off size)
  | write off size v => exact busTarget_eq_none_iff_isBusError rfl (accessBytes_write off size v)

/-! ## The answer of the port -/

theorem State.busAccess_read {s : State} (off : BitVec 16) (size : AccessSize) (hr : s.rstN = true) :
    s.busAccess (.read off size) = s.hostRead off size :=
  if_pos hr

theorem State.busAccess_write {s : State} (off : BitVec 16) (size : AccessSize) (v : Word)
    (hr : s.rstN = true) : s.busAccess (.write off size v) = s.hostWrite off size v :=
  if_pos hr

theorem State.busAccess_of_target_eq_none {s : State} {x : BusAccess} (hr : s.rstN = true)
    (hx : x.target s.cfg = none) : s.busAccess x = s.answer .error := by
  cases x with
  | read off size =>
    rw [BusAccess.target] at hx
    rw [State.busAccess_read off size hr, State.hostRead, hx]
  | write off size v =>
    rw [BusAccess.target] at hx
    rw [State.busAccess_write off size v hr, State.hostWrite, hx]

/-- A read that reaches something is answered with data, whether it is specified or not. -/
theorem State.hostRead_err_of_busTarget_eq_some {s : State} {off : BitVec 16} {size : AccessSize} {y : BusTarget}
    (h : busTarget s.cfg off size = some y) : (s.hostRead off size).bus.err = false := by
  rw [State.hostRead, h]
  cases y <;> dsimp only <;> split <;> rfl

/-- A write that reaches something is answered as a write, also where it is dropped
(`70_reset_and_hazards.md` R257). -/
theorem State.hostWrite_err_of_busTarget_eq_some {s : State} {off : BitVec 16} {size : AccessSize} {v : Word}
    {y : BusTarget} (h : busTarget s.cfg off size = some y) : (s.hostWrite off size v).bus.err = false := by
  rw [State.hostWrite, h]
  cases y <;> dsimp only <;> split <;> rfl

theorem State.busAccess_err_iff {s : State} {x : BusAccess} (hr : s.rstN = true) :
    (s.busAccess x).bus.err = true ↔ x.target s.cfg = none := by
  refine ⟨fun herr => ?_, fun hx => ?_⟩
  · by_contra hx
    obtain ⟨y, hy⟩ := Option.ne_none_iff_exists'.1 hx
    have hok : (s.busAccess x).bus.err = false := by
      cases x with
      | read off size =>
        rw [State.busAccess_read off size hr]
        exact State.hostRead_err_of_busTarget_eq_some hy
      | write off size v =>
        rw [State.busAccess_write off size v hr]
        exact State.hostWrite_err_of_busTarget_eq_some hy
    exact Bool.false_ne_true (hok.symm.trans herr)
  · rw [State.busAccess_of_target_eq_none hr hx, State.answer_bus, BusAnswer.err]

end Sys2Proof.Machine
end

section
/-! The statement on bus errors (`20_memory.md` R66). -/

namespace Sys2Proof.Machine

/-- Settles O40: R66 names the accesses that reach nothing, and only those are answered with an error. -/
theorem busErrorsAreExactlyTheseAndChangeNothing : Obligations.BusErrorsAreExactlyTheseAndChangeNothing := by
  intro s x hr
  refine ⟨(State.busAccess_err_iff hr).trans BusAccess.target_eq_none, fun hx => ?_⟩
  rw [State.busAccess_of_target_eq_none hr (BusAccess.target_eq_none.2 hx)]
  exact ⟨rfl, rfl⟩

end Sys2Proof.Machine
end

section
/-! The statement on the example encodings (`30_encoding.md` R96). -/

namespace Sys2Proof

/-- A word that selects a row is the command the row builds from the word's fields
(`30_encoding.md` R91, R93). -/
theorem decode_of_find_eq_some {w : Word} {r : OpcodeRow}
    (h : opcodeRows.find? (fun r => r.selects w) = some r) :
    decode w = .ok (r.build (fieldP w).toNat (fieldS w).toNat) := by
  rw [decode, h]

/-- Settles O4, word by word: the row each word selects builds its command, and the command's fields make
the word. -/
theorem exampleEncodingsDecodeAndEncode : Obligations.ExampleEncodingsDecodeAndEncode := by
  simp only [Obligations.ExampleEncodingsDecodeAndEncode, List.forall_mem_cons]
  have hdec128 : decode 0x260221 = .ok (.dec128 38 2) :=
    decode_of_find_eq_some (r := ⟨"DEC128", maskPS, 0x21, fun p s => .dec128 p s⟩) rfl
  have hdec32 : decode 0x090620 = .ok (.dec32 9 6) :=
    decode_of_find_eq_some (r := ⟨"DEC32", maskPS, 0x20, fun p s => .dec32 p s⟩) rfl
  have hdec32' : decode 0x090320 = .ok (.dec32 9 3) :=
    decode_of_find_eq_some (r := ⟨"DEC32", maskPS, 0x20, fun p s => .dec32 p s⟩) rfl
  have henc128 : decode 0x0231 = .ok (.enc128 2) :=
    decode_of_find_eq_some (r := ⟨"ENC128", maskS, 0x31, fun _ s => .enc128 s⟩) rfl
  have henc32 : decode 0x30 = .ok (.enc32 0) :=
    decode_of_find_eq_some (r := ⟨"ENC32", maskS, 0x30, fun _ s => .enc32 s⟩) rfl
  have hpow128 : decode 0x2603 = .ok (.pow128 38) :=
    decode_of_find_eq_some (r := ⟨"POW128", maskS, 0x03, fun _ s => .pow128 s⟩) rfl
  have hmuls : decode 0x12 = .ok .muls :=
    decode_of_find_eq_some (r := ⟨"MULS", maskZ, 0x12, fun _ _ => .muls⟩) rfl
  exact ⟨⟨hdec128, rfl⟩, ⟨hdec32, rfl⟩, ⟨hdec32', rfl⟩, ⟨henc128, rfl⟩, ⟨henc32, rfl⟩, ⟨hpow128, rfl⟩,
    ⟨hmuls, rfl⟩, fun _ h => absurd h List.not_mem_nil⟩

end Sys2Proof
end

section
/-! SUPPORT. A row that selects a word is the only one that does; the words of format S. -/

namespace Sys2Proof

/-! ## The row of a word -/

/-- Every row of the opcode map asks for its own opcode in bits 7:0 (`30_encoding.md` R91). -/
theorem opcodeRows_fieldOP_mask : ∀ r ∈ opcodeRows, fieldOP r.mask = BitVec.allOnes 8 := by
  decide

/-- No two rows of the opcode map have the same opcode (`30_encoding.md` R95). -/
theorem opcodeRows_fieldOP_nodup : (opcodeRows.map fun r => fieldOP r.pattern).Nodup := by
  decide

theorem OpcodeRow.fieldOP_of_selects {r : OpcodeRow} {w : Word} (hr : r ∈ opcodeRows)
    (h : r.selects w = true) : fieldOP w = fieldOP r.pattern := by
  have hand : w &&& r.mask = r.pattern := by simpa [OpcodeRow.selects] using h
  calc fieldOP w
      = fieldOP w &&& fieldOP r.mask := by rw [opcodeRows_fieldOP_mask r hr, BitVec.and_allOnes]
    _ = fieldOP (w &&& r.mask) := BitVec.extractLsb'_and.symm
    _ = fieldOP r.pattern := by rw [hand]

/-- At most one row selects a word, because a row asks for its own opcode. -/
theorem OpcodeRow.eq_of_selects {r r' : OpcodeRow} {w : Word} (hr : r ∈ opcodeRows) (hr' : r' ∈ opcodeRows)
    (h : r.selects w = true) (h' : r'.selects w = true) : r = r' :=
  List.inj_on_of_nodup_map opcodeRows_fieldOP_nodup hr hr'
    ((OpcodeRow.fieldOP_of_selects hr h).symm.trans (OpcodeRow.fieldOP_of_selects hr' h'))

/-- A word that some row selects is that row's command, wherever the row stands in the map. -/
theorem decode_of_selects {r : OpcodeRow} {w : Word} (hr : r ∈ opcodeRows) (h : r.selects w = true) :
    decode w = .ok (r.build (fieldP w).toNat (fieldS w).toNat) := by
  have hsome : (opcodeRows.find? fun r => r.selects w).isSome = true := List.find?_isSome.2 ⟨r, hr, h⟩
  obtain ⟨r', hfind⟩ := Option.isSome_iff_exists.1 hsome
  have hselects : r'.selects w = true := List.find?_some (p := (OpcodeRow.selects · w)) hfind
  rw [OpcodeRow.eq_of_selects hr (List.mem_of_find?_eq_some hfind) h hselects]
  exact decode_of_find_eq_some hfind

/-! ## Words of format S -/

theorem ofNat_eq_wordOfFields {op s : Nat} (ho : op < 256) (hs : s < 256) :
    BitVec.ofNat 64 (s * 2 ^ 8 + op) = wordOfFields 0 0 (BitVec.ofNat 8 s) (BitVec.ofNat 8 op) := by
  apply BitVec.eq_of_toNat_eq
  simp only [toNat_wordOfFields, BitVec.ofNat_eq_ofNat, BitVec.toNat_ofNat]
  omega

/-- The word of a row of format S, with its scale written as a number (`30_encoding.md` R91, R101). -/
theorem decode_formatS {r : OpcodeRow} {op s : Nat} (hr : r ∈ opcodeRows) (hmask : r.mask = maskS)
    (hpattern : r.pattern = BitVec.ofNat 64 op) (ho : op < 256) (hs : s < 256) :
    decode (BitVec.ofNat 64 (s * 2 ^ 8 + op)) = .ok (r.build 0 s) := by
  have hpat : r.pattern = wordOfFields 0 0 0 (BitVec.ofNat 8 op) := by
    rw [hpattern]
    simpa using ofNat_eq_wordOfFields (s := 0) ho (by omega)
  have hsel : r.selects (wordOfFields 0 0 (BitVec.ofNat 8 s) (BitVec.ofNat 8 op)) = true := by
    rw [OpcodeRow.selects, hmask, hpat, beq_iff_eq, and_maskS]
    exact ⟨rfl, rfl, rfl⟩
  rw [ofNat_eq_wordOfFields ho hs, decode_of_selects hr hsel, fieldP_wordOfFields, fieldS_wordOfFields,
    BitVec.toNat_ofNat, Nat.mod_eq_of_lt hs]
  rfl

end Sys2Proof
end

section
/-! SUPPORT. Which powers of ten a bank holds, their halves, and the completion of a POW command as a whole
state (`40_power_table.md`). -/

namespace Sys2Proof

/-! ## The powers that fit a bank -/

theorem RomBank.pow_kmax_lt (bank : RomBank) : 10 ^ bank.kmax < 2 ^ bank.bits := by
  cases bank <;> decide

theorem RomBank.two_pow_le_pow_kmax_succ (bank : RomBank) : 2 ^ bank.bits ≤ 10 ^ (bank.kmax + 1) := by
  cases bank <;> decide

/-- `KMAX(W)` is the last index whose power of ten fits `W` bits (`40_power_table.md` R120). -/
theorem RomBank.pow_lt_iff {bank : RomBank} {i : Nat} : 10 ^ i < 2 ^ bank.bits ↔ i ≤ bank.kmax := by
  constructor
  · intro hfits
    have hlt : 10 ^ i < 10 ^ (bank.kmax + 1) := hfits.trans_le bank.two_pow_le_pow_kmax_succ
    exact Nat.lt_succ_iff.1 ((Nat.pow_lt_pow_iff_right (by omega)).1 hlt)
  · intro hi
    exact (Nat.pow_le_pow_right (by omega) hi).trans_lt bank.pow_kmax_lt

end Sys2Proof

namespace Sys2Proof.Machine

open Sys2Proof.Spec

theorem romRead_isSome {bank : RomBank} {i : Nat} : (romRead bank i).isSome = true ↔ i ≤ bank.kmax := by
  rcases Nat.lt_or_ge bank.kmax i with hi | hi
  · simp [romRead_of_lt hi, hi]
  · simp [romRead_of_le hi, hi]

/-! ## The halves of a number -/

theorem zext128_eq_halves (n : Nat) :
    zext128 n = ⟨BitVec.ofNat 64 (n % 2 ^ 64), BitVec.ofNat 64 (n / 2 ^ 64)⟩ := by
  have hlo : (zext128 n).lo = BitVec.ofNat 64 (n % 2 ^ 64) := by
    apply BitVec.eq_of_toNat_eq
    rw [zext128, DoubleWidth.lo_ofValue_toNat, BitVec.toNat_ofNat, BitVec.toNat_ofNat]
    omega
  have hhi : (zext128 n).hi = BitVec.ofNat 64 (n / 2 ^ 64) := by
    apply BitVec.eq_of_toNat_eq
    rw [zext128, DoubleWidth.hi_ofValue_toNat, BitVec.toNat_ofNat, BitVec.toNat_ofNat]
    omega
  rw [← hlo, ← hhi]

/-- A number of at most 64 bits has the high half 0, whatever its bit 63 is (`40_power_table.md` R127). -/
theorem zext128_of_lt {n : Nat} (h : n < 2 ^ 64) : zext128 n = ⟨BitVec.ofNat 64 n, 0⟩ := by
  rw [zext128_eq_halves, Nat.mod_eq_of_lt h, Nat.div_eq_of_lt h]
  rfl

/-- An entry of a bank of at most 64 bits fits `R_LO`. -/
theorem zext128_pow_of_le_kmax {bank : RomBank} {i : Nat} (hbits : bank.bits ≤ 64) (hi : i ≤ bank.kmax) :
    zext128 (10 ^ i) = ⟨BitVec.ofNat 64 (10 ^ i), 0⟩ :=
  zext128_of_lt ((RomBank.pow_lt_iff.2 hi).trans_le (Nat.pow_le_pow_right (by omega) hbits))

/-! ## The completion of a POW command -/

theorem State.deliver_eq_succeeded (s : State) (r : DoubleWidth) : s.deliver r = succeeded s r := rfl

/-- The fault completion with `ParamFault(0,0,0)` (`60_exceptions.md` R217). -/
theorem State.raise_paramFault (s : State) : s.raise ⟨.paramFault, 0, 0, 0⟩ = faulted s 9 0 0 0 := rfl

theorem finish_powCommand_of_le {bank : RomBank} {index : Nat} (s : State) (h : index ≤ bank.kmax) :
    s.finish (powCommand bank index s) = .next (succeeded s (zext128 (10 ^ index))) := by
  rcases powCommand_cases bank index s with ⟨hlt, -⟩ | ⟨-, hdone⟩
  · omega
  · rw [hdone, State.deliver_eq_succeeded]

theorem finish_powCommand_of_lt {bank : RomBank} {index : Nat} (s : State) (h : bank.kmax < index) :
    s.finish (powCommand bank index s) = .next (faulted s 9 0 0 0) := by
  rcases powCommand_cases bank index s with ⟨-, hfault⟩ | ⟨hle, -⟩
  · rw [hfault, State.raise_paramFault]
  · omega

theorem exec_pow32 (index : Nat) (s : State) : exec (.pow32 index) s = s.finish (powCommand .w32 index s) :=
  rfl

theorem exec_pow64 (index : Nat) (s : State) : exec (.pow64 index) s = s.finish (powCommand .w64 index s) :=
  rfl

theorem exec_pow128 (index : Nat) (s : State) :
    exec (.pow128 index) s = s.finish (powCommand .w128 index s) := rfl

end Sys2Proof.Machine
end

section
/-! The statements on the power-of-ten ROM and the POW commands (`40_power_table.md`). -/

namespace Sys2Proof.Machine

open Sys2Proof.Spec

/-- Settles O9: `KMAX` is the last index whose power fits the bank, so the bound that `romRead` checks is
the one on the value. -/
theorem romHoldsExactlyThePowersThatFit : Obligations.RomHoldsExactlyThePowersThatFit := by
  refine ⟨fun bank i => ?_, fun _ => romRead_isSome, fun _ => romRead_isSome, fun _ => romRead_isSome,
    fun i _ => zext128_eq_halves (10 ^ i)⟩
  simp only [romRead, RomBank.pow_lt_iff]

/-- Settles O10: the first row of format S, and the two completions of `powCommand`; an entry of bank 32
fits `R_LO`. -/
theorem pow32DeliversTheEntry : Obligations.Pow32DeliversTheEntry := by
  refine ⟨fun i hi => ?_, fun s i => ⟨fun hi => ?_, fun hi => ?_⟩⟩
  · exact decode_formatS (r := ⟨"POW32", maskS, 0x01, fun _ s => .pow32 s⟩) (.head _) rfl rfl (by omega) hi
  · rw [exec_pow32, finish_powCommand_of_le s hi, zext128_pow_of_le_kmax (bank := .w32) (by decide) hi]
  · rw [exec_pow32, finish_powCommand_of_lt s hi]

/-- Settles O11: as O10, with bank 64, whose entries still fit `R_LO`: the last one sets bit 63, and the
high half stays 0. -/
theorem pow64DeliversTheEntry : Obligations.Pow64DeliversTheEntry := by
  refine ⟨fun i hi => ?_, fun s i => ⟨fun hi => ?_, fun hi => ?_⟩⟩
  · exact decode_formatS (r := ⟨"POW64", maskS, 0x02, fun _ s => .pow64 s⟩) (.tail _ (.head _)) rfl rfl
      (by omega) hi
  · rw [exec_pow64, finish_powCommand_of_le s hi, zext128_pow_of_le_kmax (bank := .w64) (by decide) hi]
  · rw [exec_pow64, finish_powCommand_of_lt s hi]

/-- Settles O12: as O10, with bank 128, whose entries take both halves. -/
theorem pow128DeliversTheEntry : Obligations.Pow128DeliversTheEntry := by
  refine ⟨fun i hi => ?_, fun s i => ⟨fun hi => ?_, fun hi => ?_⟩⟩
  · exact decode_formatS (r := ⟨"POW128", maskS, 0x03, fun _ s => .pow128 s⟩) (.tail _ (.tail _ (.head _)))
      rfl rfl (by omega) hi
  · rw [exec_pow128, finish_powCommand_of_le s hi, zext128_eq_halves]
  · rw [exec_pow128, finish_powCommand_of_lt s hi]

end Sys2Proof.Machine
end

section
/-! SUPPORT. The value of a double-width number; the value of each command of unit DWA and of its
half-by-half form (`41_double_width_arith.md` R142 to R147). -/

namespace Sys2Proof.Machine

open Sys2Proof.Spec

/-! ## The value of a double-width number -/

theorem valueOf_eq_toNat_value (d : DoubleWidth) : valueOf d = d.value.toNat :=
  d.toNat_value.symm

theorem valueOf_injective {d e : DoubleWidth} (h : valueOf d = valueOf e) : d = e := by
  rw [valueOf_eq_toNat_value, valueOf_eq_toNat_value] at h
  exact DoubleWidth.value_injective (BitVec.eq_of_toNat_eq h)

@[simp] theorem valueOf_ofValue (v : DWord) : valueOf (DoubleWidth.ofValue v) = v.toNat := by
  rw [valueOf_eq_toNat_value, DoubleWidth.value_ofValue]

/-- A carry that leaves the high half has the weight `2^128`. -/
theorem valueOf_halves (lo hi : Nat) :
    valueOf ⟨BitVec.ofNat 64 (lo % 2 ^ 64), BitVec.ofNat 64 (hi % 2 ^ 64)⟩ =
      (hi * 2 ^ 64 + lo % 2 ^ 64) % 2 ^ 128 := by
  simp only [valueOf, BitVec.toNat_ofNat]
  omega

/-- What the low half cannot hold of `p` goes into the high half as a carry. -/
theorem valueOf_halves_carry (p q : Nat) :
    valueOf ⟨BitVec.ofNat 64 (p % 2 ^ 64), BitVec.ofNat 64 ((p / 2 ^ 64 + q) % 2 ^ 64)⟩ =
      (q * 2 ^ 64 + p) % 2 ^ 128 := by
  have hcarry : (p / 2 ^ 64 + q) * 2 ^ 64 + p % 2 ^ 64 = q * 2 ^ 64 + p := by omega
  rw [valueOf_halves, hcarry]

/-! ## The commands -/

theorem valueOf_dwAdd (a b : DoubleWidth) : valueOf (dwAdd a b) = (valueOf a + valueOf b) % 2 ^ 128 := by
  rw [dwAdd, valueOf_ofValue, BitVec.toNat_add, valueOf_eq_toNat_value, valueOf_eq_toNat_value]

theorem valueOf_dwNeg (a : DoubleWidth) : valueOf (dwNeg a) = (2 ^ 128 - valueOf a) % 2 ^ 128 := by
  have hneg : ~~~a.value + 1 = -a.value := (BitVec.neg_eq_not_add a.value).symm
  rw [dwNeg, valueOf_ofValue, hneg, BitVec.toNat_neg, valueOf_eq_toNat_value]

theorem valueOf_dwMul (a b : DoubleWidth) : valueOf (dwMul a b) = valueOf a * valueOf b % 2 ^ 128 := by
  rw [dwMul, valueOf_ofValue, BitVec.toNat_mul, valueOf_eq_toNat_value, valueOf_eq_toNat_value]

theorem valueOf_dwMulSmall (a : DoubleWidth) (k : Word) :
    valueOf (dwMulSmall a k) = valueOf a * k.toNat % 2 ^ 128 := by
  rw [dwMulSmall, valueOf_ofValue, BitVec.toNat_mul, BitVec.toNat_setWidth_of_le (by omega),
    valueOf_eq_toNat_value]

/-! ## The half-by-half form -/

theorem valueOf_halvesAdd (a b : DoubleWidth) :
    valueOf (halvesAdd a b) = (valueOf a + valueOf b) % 2 ^ 128 := by
  have hsum : valueOf a + valueOf b =
      (a.hi.toNat + b.hi.toNat) * 2 ^ 64 + (a.lo.toNat + b.lo.toNat) := by
    simp only [valueOf]
    omega
  rw [halvesAdd, Nat.add_comm (a.hi.toNat + b.hi.toNat), valueOf_halves_carry, hsum]

/-- The high half takes a carry exactly when the low half is 0, because only then does `2^64 - lo` not fit
the low half. -/
theorem valueOf_halvesNeg (a : DoubleWidth) :
    valueOf (halvesNeg a) = (2 ^ 128 - valueOf a) % 2 ^ 128 := by
  have hlo : a.lo.toNat < 2 ^ 64 := a.lo.isLt
  have hhi : a.hi.toNat < 2 ^ 64 := a.hi.isLt
  rw [halvesNeg, valueOf_halves, valueOf]
  split <;> omega

/-- The product of the high halves has the weight `2^128` and vanishes. -/
theorem valueOf_halvesMul (a b : DoubleWidth) :
    valueOf (halvesMul a b) = valueOf a * valueOf b % 2 ^ 128 := by
  have hproduct : valueOf a * valueOf b = 2 ^ 128 * (a.hi.toNat * b.hi.toNat) +
      ((a.hi.toNat * b.lo.toNat + a.lo.toNat * b.hi.toNat) * 2 ^ 64 + a.lo.toNat * b.lo.toNat) := by
    simp only [valueOf]
    ring
  rw [halvesMul, Nat.add_assoc, valueOf_halves_carry, hproduct, Nat.mul_add_mod]

/-- MULS by halves is MUL by halves with a second operand whose high half is 0. -/
theorem halvesMulSmall_eq_halvesMul (a : DoubleWidth) (k : Word) : halvesMulSmall a k = halvesMul a ⟨k, 0⟩ :=
  rfl

theorem valueOf_halvesMulSmall (a : DoubleWidth) (k : Word) :
    valueOf (halvesMulSmall a k) = valueOf a * k.toNat % 2 ^ 128 := by
  have hk : valueOf ⟨k, 0⟩ = k.toNat := by simp [valueOf]
  rw [halvesMulSmall_eq_halvesMul, valueOf_halvesMul, hk]

/-! ## The completion of a DWA command -/

theorem exec_add (s : State) : exec .add s = .next (succeeded s (dwAdd s.a s.b)) := rfl

theorem exec_neg (s : State) : exec .neg s = .next (succeeded s (dwNeg s.a)) := rfl

theorem exec_muls (s : State) : exec .muls s = .next (succeeded s (dwMulSmall s.a s.k)) := rfl

theorem exec_mul (s : State) : exec .mul s = .next (succeeded s (dwMul s.a s.b)) := rfl

end Sys2Proof.Machine
end

section
/-! The statements on the double-width arithmetic (`41_double_width_arith.md`). -/

namespace Sys2Proof.Machine

/-- Settles O17: each operation and its half-by-half form have the same value, and the value determines the
halves. -/
theorem halfByHalfFormAgrees : Obligations.HalfByHalfFormAgrees := by
  refine fun a b k => ⟨valueOf_injective ?add, valueOf_injective ?neg, valueOf_injective ?muls,
    valueOf_injective ?mul⟩
  case add => rw [valueOf_dwAdd, valueOf_halvesAdd]
  case neg => rw [valueOf_dwNeg, valueOf_halvesNeg]
  case muls => rw [valueOf_dwMulSmall, valueOf_halvesMulSmall]
  case mul => rw [valueOf_dwMul, valueOf_halvesMul]

/-- Settles O13: the row ADD selects its word, and the result is `dwAdd` of the operands. -/
theorem addIsAdditionModulo : Obligations.AddIsAdditionModulo :=
  ⟨decode_of_find_eq_some (r := ⟨"ADD", maskZ, 0x10, fun _ _ => .add⟩) rfl,
    fun s => ⟨dwAdd s.a s.b, exec_add s, valueOf_dwAdd s.a s.b⟩⟩

/-- Settles O14: as O13, with `dwNeg`, where `~a + 1` is the negation of the 128-bit word. -/
theorem negIsNegationModulo : Obligations.NegIsNegationModulo :=
  ⟨decode_of_find_eq_some (r := ⟨"NEG", maskZ, 0x11, fun _ _ => .neg⟩) rfl,
    fun s => ⟨dwNeg s.a, exec_neg s, valueOf_dwNeg s.a⟩⟩

/-- Settles O15: as O13, with `dwMulSmall`, where `K` is zero-extended and so keeps its unsigned value. -/
theorem mulsIsSmallMultiplicationModulo : Obligations.MulsIsSmallMultiplicationModulo :=
  ⟨decode_of_find_eq_some (r := ⟨"MULS", maskZ, 0x12, fun _ _ => .muls⟩) rfl,
    fun s => ⟨dwMulSmall s.a s.k, exec_muls s, valueOf_dwMulSmall s.a s.k⟩⟩

/-- Settles O16: as O13, with `dwMul`. -/
theorem mulIsMultiplicationModulo : Obligations.MulIsMultiplicationModulo :=
  ⟨decode_of_find_eq_some (r := ⟨"MUL", maskZ, 0x13, fun _ _ => .mul⟩) rfl,
    fun s => ⟨dwMul s.a s.b, exec_mul s, valueOf_dwMul s.a s.b⟩⟩

end Sys2Proof.Machine
end

section
/-! SUPPORT. The closed form of `42_decoder.md` R174 beside the scans of R165: a text is accepted exactly
when both scans go through, the result is then the scaled value at the width W, and a scan that stops names
the byte that ends the shortest beginning of the text that is not accepted. -/

namespace Sys2Proof.Machine

open Sys2Proof.Spec

/-! ## Two's complement and sign extension -/

theorem signedOf_toNat {k : Nat} (hk : 0 < k) (v : BitVec k) : signedOf k v.toNat = v.toInt := by
  have hpow : 2 ^ k = 2 * 2 ^ (k - 1) := by rw [← pow_succ', Nat.sub_add_cancel hk]
  rw [signedOf, BitVec.toInt_eq_toNat_cond]
  by_cases hneg : 2 ^ (k - 1) ≤ v.toNat
  · rw [if_pos hneg, if_neg (by omega)]
    push_cast
    rfl
  · rw [if_neg hneg, if_pos (by omega)]

/-- `sext_128` keeps the signed value (`42_decoder.md` R172). -/
theorem signedOf_valueOf_sext128 (w : CodecWidth) (n : Nat) :
    signedOf 128 (valueOf (w.sext128 n)) = (BitVec.ofNat w.bits n).toInt := by
  have hbits : w.bits ≤ 128 := by cases w <;> decide
  rw [CodecWidth.sext128, valueOf_ofValue, signedOf_toNat (by omega), BitVec.toInt_signExtend_of_le hbits]

/-- `sext_128` keeps the low W bits. -/
theorem valueOf_sext128_mod (w : CodecWidth) (n : Nat) : valueOf (w.sext128 n) % w.modulus = n % w.modulus := by
  rw [CodecWidth.sext128, valueOf_ofValue, BitVec.toNat_signExtend, BitVec.toNat_setWidth, BitVec.toNat_ofNat]
  have hhigh : ∀ b : Bool,
      (n % 2 ^ w.bits % 2 ^ 128 + if b = true then 2 ^ 128 - 2 ^ w.bits else 0) % 2 ^ w.bits =
        n % 2 ^ w.bits := by
    intro b
    cases w <;> cases b <;> simp only [CodecWidth.bits, if_true, Bool.false_eq_true, if_false] <;> omega
  exact hhigh _

/-- A value that fits W bits stands in `R` as its 128-bit two's complement, whatever W is. -/
theorem sext128_toNat_ofInt {w : CodecWidth} {v : Int} (hlo : -2 ^ (w.bits - 1) ≤ v)
    (hhi : v < 2 ^ (w.bits - 1)) :
    w.sext128 (BitVec.ofInt w.bits v).toNat = DoubleWidth.ofValue (BitVec.ofInt 128 v) := by
  have hpos : 0 < w.bits := by cases w <;> decide
  rw [CodecWidth.sext128, BitVec.ofNat_toNat, BitVec.setWidth_eq, BitVec.signExtend,
    BitVec.toInt_ofInt_eq_self hpos hlo hhi]

/-! ## The sign and the digits -/

/-- The sign byte of a text, if it has one. -/
def signPart (t : List Byte) : List Byte := if hasSign t then [minusByte] else []

theorem hasSign_cons (c : Byte) (cs : List Byte) : hasSign (c :: cs) = decide (c = minusByte) :=
  beq_eq_decide c minusByte

theorem signPart_append_unsignedPart (t : List Byte) : signPart t ++ unsignedPart t = t := by
  cases t with
  | nil => rfl
  | cons c cs => by_cases h : c = minusByte <;> simp [signPart, unsignedPart, hasSign_cons, h]

theorem dotByte_notMem_signPart (t : List Byte) : dotByte ∉ signPart t := by
  unfold signPart
  split <;> decide

/-- Cutting a text behind its sign cuts its unsigned part. -/
theorem unsignedPart_take (t : List Byte) (k : Nat) :
    unsignedPart (t.take ((signPart t).length + k)) = (unsignedPart t).take k := by
  cases t with
  | nil => simp [unsignedPart]
  | cons c cs =>
    by_cases h : c = minusByte
    · simp [signPart, unsignedPart, hasSign_cons, h, Nat.add_comm 1 k]
    · cases k <;> simp [signPart, unsignedPart, hasSign_cons, h, show hasSign [] = false from rfl]

/-- Past the sign byte, a decode is the decode of the unsigned part. -/
theorem decodeText_eq_decodeBody {t : List Byte} (ht : t ≠ []) (w : CodecWidth) (precision scale : Nat) :
    decodeText w precision scale t =
      decodeBody w precision scale (hasSign t) (signPart t).length (unsignedPart t) := by
  obtain ⟨c, cs, rfl⟩ := List.exists_cons_of_ne_nil ht
  by_cases h : c = minusByte <;> simp [decodeText, signPart, unsignedPart, hasSign_cons, h]

theorem getElem?_signPart_length_add (t : List Byte) (k : Nat) :
    t[(signPart t).length + k]? = (unsignedPart t)[k]? := by
  calc t[(signPart t).length + k]?
      = (signPart t ++ unsignedPart t)[(signPart t).length + k]? := by rw [signPart_append_unsignedPart]
    _ = (unsignedPart t)[k]? := by rw [List.getElem?_append_right (by omega), Nat.add_sub_cancel_left]

/-- What replaces the rest of a text behind its first byte replaces the rest of its unsigned part. -/
theorem decodeText_take_append {t : List Byte} (ht : t ≠ []) (w : CodecWidth) (precision scale k : Nat)
    (more : List Byte) :
    decodeText w precision scale (t.take ((signPart t).length + k + 1) ++ more) =
      decodeBody w precision scale (hasSign t) (signPart t).length ((unsignedPart t).take (k + 1) ++ more) := by
  obtain ⟨c, cs, rfl⟩ := List.exists_cons_of_ne_nil ht
  by_cases h : c = minusByte <;>
    simp [decodeText, signPart, unsignedPart, hasSign_cons, h, Nat.add_comm 1 k]

theorem isDigit_eq_isSome_digitOf (c : Byte) : isDigit c = (digitOf c).isSome := by
  unfold isDigit digitOf
  split <;> simp_all

theorem decimalValue_eq_digitsValue (l : List Byte) : decimalValue l = digitsValue l := by
  simp only [decimalValue, digitsValue, Nat.mul_comm]

/-! ## Acceptance in the terms of the scans -/

theorem countedPart_eq_countedFrom (t : List Byte) : countedPart t = countedFrom 0 (integralPart t) := rfl

theorem lastNonZero_eq_lastNonZeroPos (t : List Byte) : lastNonZero t = lastNonZeroPos (fractionPart t) := rfl

theorem accepted_iff (precision scale : Nat) (t : List Byte) :
    Accepted precision scale t ↔
      (∀ c ∈ integralPart t, (digitOf c).isSome = true) ∧ (∀ c ∈ fractionPart t, (digitOf c).isSome = true) ∧
        (countedFrom 0 (integralPart t)).length ≤ precision - scale ∧
        lastNonZeroPos (fractionPart t) ≤ scale := by
  simp only [Accepted, isDigit_eq_isSome_digitOf, countedPart_eq_countedFrom, lastNonZero_eq_lastNonZeroPos]

/-- The fractional scan from its first registers has read the digits up to the last non-zero one. -/
theorem fractionAfter_initial (w : CodecWidth) (pos : Nat) (l : List Byte) :
    fractionAfter w ⟨pos, 0, 0, 1⟩ l =
      (digitsValue (l.take (lastNonZeroPos l)) % w.modulus, lastNonZeroPos l) := by
  unfold fractionAfter
  split
  next h => simp [h, digitsValue]
  next => simp

/-- Both scans go through, from the index of the first byte behind the sign. -/
def Scanned (w : CodecWidth) (precision scale pos : Nat) (body : List Byte) : Prop :=
  ∃ x rest f, scanIntegral w (precision - scale) body ⟨pos, 0, 0⟩ = .ok (x, rest) ∧
    scanFraction w scale rest ⟨x.pos, 0, 0, 1⟩ = .ok f

/-- The scans of an accepted text: the integral part and the fraction as numbers modulo `2^W`, and the
position of the last non-zero digit. -/
theorem scans_of_accepted {w : CodecWidth} {precision scale : Nat} (hs : scale ≤ w.pmax) {t : List Byte}
    (h : Accepted precision scale t) (pos : Nat) :
    ∃ x f, scanIntegral w (precision - scale) (unsignedPart t) ⟨pos, 0, 0⟩ = .ok (x, fractionPart t) ∧
      scanFraction w scale (fractionPart t) ⟨x.pos, 0, 0, 1⟩ = .ok f ∧
      x.integral = decimalValue (countedPart t) % w.modulus ∧
      f.frac = decimalValue ((fractionPart t).take (lastNonZero t)) % w.modulus ∧
      f.scount = lastNonZero t := by
  obtain ⟨hint, hfrac, hbudget, hscale⟩ := (accepted_iff precision scale t).1 h
  obtain ⟨pos', hx⟩ := scanIntegral_ok w (precision - scale) (unsignedPart t) ⟨pos, 0, 0⟩ hint (Nat.zero_le _)
    ((Nat.zero_add _).trans_le hbudget)
  obtain ⟨f, hf, hvalue, hcount⟩ := scanFraction_ok w scale hs (fractionPart t) ⟨pos', 0, 0, 1⟩ le_rfl hfrac
    (by rw [fractionAfter_initial]; exact hscale)
  rw [fractionAfter_initial] at hvalue hcount
  refine ⟨_, f, hx, hf, ?_, ?_, hcount⟩
  · have hfold := foldl_accumulate w (countedPart t) 0 w.modulus_pos
    rw [Nat.zero_mul, Nat.zero_add, ← decimalValue_eq_digitsValue] at hfold
    exact hfold
  · rw [hvalue, decimalValue_eq_digitsValue, lastNonZero_eq_lastNonZeroPos]

theorem accepted_of_scanned {w : CodecWidth} {precision scale pos : Nat} {t : List Byte}
    (h : Scanned w precision scale pos (unsignedPart t)) : Accepted precision scale t := by
  obtain ⟨x, rest, f, hx, hf⟩ := h
  obtain ⟨hint, hbudget⟩ := scanIntegral_ok_inv hx (Nat.zero_le _)
  obtain ⟨pos', hx'⟩ := scanIntegral_ok w (precision - scale) (unsignedPart t) ⟨pos, 0, 0⟩ hint (Nat.zero_le _)
    hbudget
  have hrest : rest = fractionPart t := congrArg Prod.snd (Except.ok.inj (hx.symm.trans hx'))
  obtain ⟨hfrac, hscale⟩ := scanFraction_ok_inv (hrest ▸ hf) le_rfl (Nat.zero_le _)
  rw [fractionAfter_initial] at hscale
  exact (accepted_iff precision scale t).2 ⟨hint, hfrac, (Nat.zero_add _).symm.trans_le hbudget, hscale⟩

/-! ## The value of an accepted text -/

/-- Every accepted magnitude is below `10^P`: at most `P - S` digits before the point, at most `S` behind it
(`42_decoder.md` R174). -/
theorem magnitudeOf_lt {precision scale : Nat} (hle : scale ≤ precision) {t : List Byte}
    (h : Accepted precision scale t) : magnitudeOf scale t < 10 ^ precision := by
  obtain ⟨hint, hfrac, hbudget, hscale⟩ := (accepted_iff precision scale t).1 h
  rw [← countedPart_eq_countedFrom] at hbudget
  rw [← lastNonZero_eq_lastNonZeroPos] at hscale
  have hI : decimalValue (countedPart t) < 10 ^ (precision - scale) := by
    rw [decimalValue_eq_digitsValue]
    exact (digitsValue_lt fun c hc => hint c ((List.dropWhile_suffix _).subset hc)).trans_le
      (Nat.pow_le_pow_right (by omega) hbudget)
  have hF : decimalValue ((fractionPart t).take (lastNonZero t)) < 10 ^ lastNonZero t := by
    rw [decimalValue_eq_digitsValue]
    exact (digitsValue_lt fun c hc => hfrac c (List.mem_of_mem_take hc)).trans_le
      (Nat.pow_le_pow_right (by omega) (List.length_take_le _ _))
  have hpad : decimalValue ((fractionPart t).take (lastNonZero t)) * 10 ^ (scale - lastNonZero t) <
      10 ^ scale := by
    calc _ < 10 ^ lastNonZero t * 10 ^ (scale - lastNonZero t) :=
          Nat.mul_lt_mul_of_pos_right hF (by positivity)
      _ = 10 ^ scale := by rw [← pow_add, Nat.add_sub_cancel' hscale]
  calc magnitudeOf scale t
      < decimalValue (countedPart t) * 10 ^ scale + 10 ^ scale := Nat.add_lt_add_left hpad _
    _ = (decimalValue (countedPart t) + 1) * 10 ^ scale := by ring
    _ ≤ 10 ^ (precision - scale) * 10 ^ scale := Nat.mul_le_mul_right _ hI
    _ = 10 ^ precision := by rw [← pow_add, Nat.sub_add_cancel hle]

/-- In the domain an accepted value fits W bits (`42_decoder.md` R175). -/
theorem scaledValue_bounds {w : CodecWidth} {precision scale : Nat} (hle : scale ≤ precision)
    (hp : precision ≤ w.pmax) {t : List Byte} (h : Accepted precision scale t) :
    -2 ^ (w.bits - 1) ≤ scaledValue scale t ∧ scaledValue scale t < 2 ^ (w.bits - 1) := by
  have hmag : magnitudeOf scale t < 2 ^ (w.bits - 1) := calc
    magnitudeOf scale t < 10 ^ precision := magnitudeOf_lt hle h
    _ ≤ 10 ^ w.pmax := Nat.pow_le_pow_right (by omega) hp
    _ < 2 ^ (w.bits - 1) := w.pow_pmax_lt
  zify at hmag
  unfold scaledValue
  split <;> constructor <;> omega

/-- Line 31 of R165 on a magnitude modulo `2^W` is the W-bit two's complement of the signed value (R170). -/
theorem toNat_ofInt_scaledValue (w : CodecWidth) (scale : Nat) (t : List Byte) :
    (BitVec.ofInt w.bits (scaledValue scale t)).toNat =
      if hasSign t then (w.modulus - magnitudeOf scale t % w.modulus) % w.modulus
      else magnitudeOf scale t % w.modulus := by
  unfold scaledValue
  split
  · rw [BitVec.ofInt_neg, BitVec.toNat_neg, BitVec.ofInt_natCast, BitVec.toNat_ofNat]
    rfl
  · rw [BitVec.ofInt_natCast, BitVec.toNat_ofNat]
    rfl

theorem decodeText_of_accepted {w : CodecWidth} {precision scale : Nat} (hs : scale ≤ w.pmax) {t : List Byte}
    (ht : t ≠ []) (h : Accepted precision scale t) :
    decodeText w precision scale t = .ok (BitVec.ofInt w.bits (scaledValue scale t)).toNat := by
  obtain ⟨x, f, hx, hf, hintegral, hfrac, hscount⟩ := scans_of_accepted hs h (signPart t).length
  have hmod : (x.integral * 10 ^ scale + f.frac * 10 ^ (scale - f.scount)) % w.modulus =
      magnitudeOf scale t % w.modulus := by
    rw [hintegral, hfrac, hscount]
    exact ((Nat.mod_modEq _ _).mul_right _).add ((Nat.mod_modEq _ _).mul_right _)
  rw [decodeText_eq_decodeBody ht, decodeBody, hx]
  simp only [hf]
  rw [composeResult_eq hs, hmod, toNat_ofInt_scaledValue]

/-- A decode that answers a number has scanned an accepted text, also outside the domain. -/
theorem accepted_of_decodeText_ok {w : CodecWidth} {precision scale n : Nat} {t : List Byte} (ht : t ≠ [])
    (h : decodeText w precision scale t = .ok n) : Accepted precision scale t := by
  rw [decodeText_eq_decodeBody ht, decodeBody] at h
  split at h
  · cases h
  next x rest hx =>
    split at h
    · cases h
    next f hf => exact accepted_of_scanned ⟨x, rest, f, hx, hf⟩

/-! ## The byte that raises the error -/

/-- The error of R174 at byte `c` in position `pos` (`60_exceptions.md` R212 to R215). -/
def closedFault (precision scale : Nat) (t : List Byte) (pos : Nat) (c : Byte) : Raised :=
  if isDigit c = false then ⟨.invalidCharacter, pos, 0, 0⟩
  else if dotByte ∈ t.take pos then ⟨.fractionOverflow, pos, pos - t.idxOf dotByte, scale⟩
  else ⟨.integralOverflow, pos, precision - scale + 1, precision - scale⟩

theorem raise_closedFault (s : State) (precision scale pos : Nat) (c : Byte) :
    s.raise (closedFault precision scale (textOf s) pos c) = faultAt s precision scale pos c := by
  rw [closedFault, apply_ite s.raise, apply_ite s.raise]
  rfl

theorem closedFault_of_digitOf_eq_none {c : Byte} (hc : digitOf c = none) (precision scale : Nat)
    (t : List Byte) (pos : Nat) : closedFault precision scale t pos c = ⟨.invalidCharacter, pos, 0, 0⟩ := by
  rw [closedFault, isDigit_eq_isSome_digitOf, hc, Option.isSome_none, if_pos rfl]

theorem closedFault_of_notMem {c : Byte} (hc : (digitOf c).isSome = true) (precision scale : Nat)
    {t : List Byte} {pos : Nat} (hdot : dotByte ∉ t.take pos) :
    closedFault precision scale t pos c =
      ⟨.integralOverflow, pos, precision - scale + 1, precision - scale⟩ := by
  rw [closedFault, isDigit_eq_isSome_digitOf, hc, if_neg (by decide), if_neg hdot]

theorem closedFault_behind_dot {c : Byte} (hc : (digitOf c).isSome = true) (precision scale : Nat)
    {pre : List Byte} (hdot : dotByte ∉ pre) (rest : List Byte) (k : Nat) :
    closedFault precision scale (pre ++ dotByte :: rest) (pre.length + 1 + k) c =
      ⟨.fractionOverflow, pre.length + 1 + k, 1 + k, scale⟩ := by
  have hmem : dotByte ∈ (pre ++ dotByte :: rest).take (pre.length + 1 + k) := by
    rw [Nat.add_assoc, List.take_length_add_append, Nat.add_comm 1 k]
    simp
  have hidx : (pre ++ dotByte :: rest).idxOf dotByte = pre.length := by
    rw [List.idxOf_append_of_notMem hdot, List.idxOf_cons_self, Nat.add_zero]
  rw [closedFault, isDigit_eq_isSome_digitOf, hc, if_neg (by decide), if_pos hmem, hidx,
    Nat.add_assoc, Nat.add_sub_cancel_left]

/-- One byte of the integral scan that is no `'.'`: it stops the scan or moves it on by one, whatever
follows the byte. -/
theorem scanIntegral_cons_of_ne_dot (w : CodecWidth) (budget : Nat) {c : Byte} (hdot : c ≠ dotByte)
    (st : IntegralScan) :
    (∃ e, ∀ cs, scanIntegral w budget (c :: cs) st = .error e) ∨
    ∃ st', st'.pos = st.pos + 1 ∧ ∀ cs, scanIntegral w budget (c :: cs) st = scanIntegral w budget cs st' := by
  match hcd : digitOf c with
  | none => exact .inl ⟨_, fun cs => by rw [scanIntegral, if_neg hdot, hcd]⟩
  | some d =>
    have hdigit : ∀ cs, scanIntegral w budget (c :: cs) st =
        if d = 0 ∧ st.icount = 0 then scanIntegral w budget cs { st with pos := st.pos + 1 }
        else if budget < st.icount + 1 then .error (.raise ⟨.integralOverflow, st.pos, st.icount + 1, budget⟩)
        else scanIntegral w budget cs ⟨st.pos + 1, st.icount + 1, (st.integral * 10 + d) % w.modulus⟩ :=
      fun cs => by rw [scanIntegral, if_neg hdot, hcd]
    by_cases hz : d = 0 ∧ st.icount = 0
    · exact .inr ⟨{ st with pos := st.pos + 1 }, rfl, fun cs => by rw [hdigit, if_pos hz]⟩
    · by_cases hbudget : budget < st.icount + 1
      · exact .inl ⟨_, fun cs => by rw [hdigit, if_neg hz, if_pos hbudget]⟩
      · exact .inr ⟨⟨st.pos + 1, st.icount + 1, (st.integral * 10 + d) % w.modulus⟩, rfl,
          fun cs => by rw [hdigit, if_neg hz, if_neg hbudget]⟩

/-- Where a finished integral scan leaves something to scan, it stopped behind the first `'.'`; the bytes
behind it do not matter. -/
theorem scanIntegral_ok_split {w : CodecWidth} {budget : Nat} {body rest : List Byte} {st x : IntegralScan}
    (h : scanIntegral w budget body st = .ok (x, rest)) (hrest : rest ≠ []) :
    ∃ pre, dotByte ∉ pre ∧ body = pre ++ dotByte :: rest ∧ x.pos = st.pos + pre.length + 1 ∧
      ∀ more, scanIntegral w budget (pre ++ dotByte :: more) st = .ok (x, more) := by
  induction body generalizing st with
  | nil =>
    cases h
    exact absurd rfl hrest
  | cons c cs ih =>
    by_cases hdot : c = dotByte
    · rw [scanIntegral, if_pos hdot] at h
      cases h
      exact ⟨[], List.not_mem_nil, by rw [hdot, List.nil_append], rfl,
        fun more => by rw [List.nil_append, scanIntegral, if_pos rfl]⟩
    · rcases scanIntegral_cons_of_ne_dot w budget hdot st with ⟨e, hstop⟩ | ⟨st', hpos', hon⟩
      · cases (hstop cs).symm.trans h
      · obtain ⟨pre, hpre, rfl, hpos, hmore⟩ := ih ((hon cs).symm.trans h)
        refine ⟨c :: pre, by simp [hpre, Ne.symm hdot], rfl, ?_, fun more => ?_⟩
        · rw [List.length_cons]
          omega
        · rw [List.cons_append, hon, hmore]

theorem composeResult_ne_raise {w : CodecWidth} {scale : Nat} {neg : Bool} {integral : Nat} {f : FractionScan}
    {e : Raised} : composeResult w scale neg integral f ≠ .error (.raise e) := by
  unfold composeResult
  split <;> simp

/-- An error of a body is an error of one of its scans. -/
theorem decodeBody_raise_cases {w : CodecWidth} {precision scale : Nat} {neg : Bool} {pos : Nat}
    {body : List Byte} {e : Raised} (h : decodeBody w precision scale neg pos body = .error (.raise e)) :
    scanIntegral w (precision - scale) body ⟨pos, 0, 0⟩ = .error (.raise e) ∨
    ∃ x rest, scanIntegral w (precision - scale) body ⟨pos, 0, 0⟩ = .ok (x, rest) ∧
      scanFraction w scale rest ⟨x.pos, 0, 0, 1⟩ = .error (.raise e) := by
  unfold decodeBody at h
  split at h
  next hx =>
    cases h
    exact .inl hx
  next x rest hx =>
    split at h
    next hf =>
      cases h
      exact .inr ⟨x, rest, hx, hf⟩
    next => exact absurd h composeResult_ne_raise

/-- What an error of a decode says, behind the sign: it is the one of R174 at its byte, the bytes before
that byte scan, and the bytes after it do not matter. -/
def RaisedAtByte (w : CodecWidth) (precision scale : Nat) (neg : Bool) (sign body : List Byte) (e : Raised) :
    Prop :=
  ∃ k c, body[k]? = some c ∧ e.pos = sign.length + k ∧
    e = closedFault precision scale (sign ++ body) (sign.length + k) c ∧
    Scanned w precision scale sign.length (body.take k) ∧
    ∀ more, decodeBody w precision scale neg sign.length (body.take (k + 1) ++ more) = .error (.raise e)

theorem raisedAtByte_of_scanIntegral {w : CodecWidth} {precision scale : Nat} {sign body : List Byte}
    {e : Raised} (hsign : dotByte ∉ sign) (neg : Bool)
    (hx : scanIntegral w (precision - scale) body ⟨sign.length, 0, 0⟩ = .error (.raise e)) :
    RaisedAtByte w precision scale neg sign body e := by
  obtain ⟨k, c, hk, hpos, hdot, -, ⟨x, hscan, hwhy⟩, hmore⟩ := scanIntegral_raise hx (Nat.zero_le _)
  simp only at hpos
  rw [hpos] at hwhy
  have hfault : e = closedFault precision scale (sign ++ body) (sign.length + k) c := by
    rcases hwhy with ⟨hc, he⟩ | ⟨hc, -, he⟩
    · rw [closedFault_of_digitOf_eq_none hc, ← he]
    · have hnodot : dotByte ∉ (sign ++ body).take (sign.length + k) := by
        rw [List.take_length_add_append, List.mem_append]
        exact not_or.2 ⟨hsign, hdot⟩
      rw [closedFault_of_notMem hc _ _ hnodot, ← he]
  refine ⟨k, c, hk, hpos, hfault, ⟨x, [], _, hscan, rfl⟩, fun more => ?_⟩
  rw [decodeBody, hmore more]

theorem raisedAtByte_of_scanFraction {w : CodecWidth} {precision scale : Nat} {sign body rest : List Byte}
    {x : IntegralScan} {e : Raised} (hsign : dotByte ∉ sign) (neg : Bool)
    (hx : scanIntegral w (precision - scale) body ⟨sign.length, 0, 0⟩ = .ok (x, rest))
    (hf : scanFraction w scale rest ⟨x.pos, 0, 0, 1⟩ = .error (.raise e)) :
    RaisedAtByte w precision scale neg sign body e := by
  have hrest : rest ≠ [] := by
    rintro rfl
    cases hf
  obtain ⟨pre, hpre, rfl, hxpos, hagain⟩ := scanIntegral_ok_split hx hrest
  obtain ⟨k, c, hk, hpos, ⟨f, hscan, hwhy⟩, hmore⟩ := scanFraction_raise hf
  simp only at hpos hxpos
  have htake : ∀ n, (pre ++ dotByte :: rest).take (pre.length + 1 + n) = pre ++ dotByte :: rest.take n := by
    intro n
    rw [Nat.add_assoc, List.take_length_add_append, Nat.add_comm 1 n, List.take_succ_cons]
  have hepos : e.pos = sign.length + (pre.length + 1 + k) := by omega
  rw [hepos] at hwhy
  have hfault : e = closedFault precision scale (sign ++ (pre ++ dotByte :: rest))
      (sign.length + (pre.length + 1 + k)) c := by
    rcases hwhy with ⟨hc, he⟩ | ⟨hc, -, -, -, he⟩
    · rw [closedFault_of_digitOf_eq_none hc, ← he]
    · have hnodot : dotByte ∉ sign ++ pre := by
        rw [List.mem_append]
        exact not_or.2 ⟨hsign, hpre⟩
      have hlen : sign.length + (pre.length + 1 + k) = (sign ++ pre).length + 1 + k := by
        rw [List.length_append]
        omega
      rw [hlen] at he ⊢
      rw [← List.append_assoc, closedFault_behind_dot hc precision scale hnodot, he]
      simp
  refine ⟨pre.length + 1 + k, c, ?_, hepos, hfault, ⟨x, rest.take k, f, ?_, hscan⟩, fun more => ?_⟩
  · rw [List.getElem?_append_right (by omega), Nat.add_assoc, Nat.add_sub_cancel_left, Nat.add_comm 1 k,
      List.getElem?_cons_succ, hk]
  · rw [htake, hagain]
  · rw [Nat.add_assoc _ k 1, htake, List.append_assoc, List.cons_append, decodeBody, hagain]
    simp only [hmore more]

theorem decodeBody_raise {w : CodecWidth} {precision scale : Nat} {neg : Bool} {sign body : List Byte}
    {e : Raised} (hsign : dotByte ∉ sign)
    (h : decodeBody w precision scale neg sign.length body = .error (.raise e)) :
    RaisedAtByte w precision scale neg sign body e := by
  rcases decodeBody_raise_cases h with hx | ⟨x, rest, hx, hf⟩
  · exact raisedAtByte_of_scanIntegral hsign neg hx
  · exact raisedAtByte_of_scanFraction hsign neg hx hf

/-- What an error of a decode says: it is the one of R174 at its byte, the text before that byte is accepted,
and the bytes after it do not matter (`42_decoder.md` R177). -/
theorem decodeText_raise {w : CodecWidth} {precision scale : Nat} {t : List Byte} (ht : t ≠ []) {e : Raised}
    (h : decodeText w precision scale t = .error (.raise e)) :
    ∃ c, t[e.pos]? = some c ∧ e = closedFault precision scale t e.pos c ∧
      Accepted precision scale (t.take e.pos) ∧
      ∀ more, decodeText w precision scale (t.take (e.pos + 1) ++ more) = .error (.raise e) := by
  rw [decodeText_eq_decodeBody ht] at h
  obtain ⟨k, c, hk, hpos, hfault, hscan, hmore⟩ := decodeBody_raise (dotByte_notMem_signPart t) h
  rw [signPart_append_unsignedPart, ← hpos] at hfault
  refine ⟨c, ?_, hfault, ?_, fun more => ?_⟩
  · rw [hpos, getElem?_signPart_length_add, hk]
  · rw [← unsignedPart_take, ← hpos] at hscan
    exact accepted_of_scanned hscan
  · rw [hpos, decodeText_take_append ht, hmore more]

/-- In the domain a text that is not accepted stops the decode at the byte that ends the shortest
beginning that is not accepted: no longer beginning is accepted either. -/
theorem decodeText_of_not_accepted {w : CodecWidth} {precision scale : Nat} (hs : scale ≤ w.pmax)
    {t : List Byte} (ht : t ≠ []) (h : ¬ Accepted precision scale t) :
    ∃ pos c, t[pos]? = some c ∧ Accepted precision scale (t.take pos) ∧
      (∀ q, pos < q → ¬ Accepted precision scale (t.take q)) ∧
      decodeText w precision scale t = .error (.raise (closedFault precision scale t pos c)) := by
  match hd : decodeText w precision scale t with
  | .ok n => exact absurd (accepted_of_decodeText_ok ht hd) h
  | .error (.fault f) => exact absurd hd (decodeText_no_fault hs)
  | .error (.raise e) =>
    obtain ⟨c, hc, hfault, hbefore, hafter⟩ := decodeText_raise ht hd
    refine ⟨e.pos, c, hc, hbefore, fun q hq haccepted => ?_, by rw [← hfault]⟩
    have hsplit : t.take (e.pos + 1) ++ (t.take q).drop (e.pos + 1) = t.take q := by
      have htake : (t.take q).take (e.pos + 1) = t.take (e.pos + 1) := by
        rw [List.take_take, Nat.min_eq_left hq]
      rw [← htake, List.take_append_drop]
    have hne : t.take q ≠ [] := by
      rw [Ne, List.take_eq_nil_iff, not_or]
      exact ⟨by omega, ht⟩
    have hraise := hafter ((t.take q).drop (e.pos + 1))
    rw [hsplit, decodeText_of_accepted hs hne haccepted] at hraise
    cases hraise

/-! ## The completion of a DEC command -/

theorem textOf_ne_nil {s : State} (h : s.tlen ≠ 0) : textOf s ≠ [] := by
  rw [textOf, Ne, List.map_eq_nil_iff, List.range_eq_nil]
  exact fun h0 => h (BitVec.eq_of_toNat_eq h0)

theorem exec_dec32 (precision scale : Nat) (s : State) :
    exec (.dec32 precision scale) s = s.finish (decCommand .w32 precision scale s) := rfl

theorem exec_dec128 (precision scale : Nat) (s : State) :
    exec (.dec128 precision scale) s = s.finish (decCommand .w128 precision scale s) := rfl

theorem decCommand_ok {w : CodecWidth} {precision scale : Nat} {s u : State}
    (h : decCommand w precision scale s = .ok u) : ∃ n, u = s.setR (w.sext128 n) := by
  rcases decCommand_cases w precision scale s with ⟨-, hcmd⟩ | ⟨-, -, -, ⟨e, -, hcmd⟩ | ⟨n, -, hcmd⟩⟩
  · cases h.symm.trans hcmd
  · cases h.symm.trans hcmd
  · exact ⟨n, Except.ok.inj (h.symm.trans hcmd)⟩

theorem finish_decCommand_of_ok {w : CodecWidth} {precision scale n : Nat} {s : State}
    (hle : scale ≤ precision) (hp : precision ≤ w.pmax) (hl : s.tlen.toNat ≤ s.cfg.lmax)
    (h : decodeText w precision scale (textOf s) = .ok n) :
    s.finish (decCommand w precision scale s) = .next (succeeded s (w.sext128 n)) := by
  rcases decCommand_cases w precision scale s with ⟨hout, -⟩ | ⟨-, -, -, ⟨e, he, -⟩ | ⟨m, hm, hcmd⟩⟩
  · omega
  · cases h.symm.trans he
  · cases h.symm.trans hm
    rw [hcmd, State.finish_ok]
    rfl

theorem finish_decCommand_of_raise {w : CodecWidth} {precision scale : Nat} {s : State} {e : Raised}
    (hle : scale ≤ precision) (hp : precision ≤ w.pmax) (hl : s.tlen.toNat ≤ s.cfg.lmax)
    (h : decodeText w precision scale (textOf s) = .error (.raise e)) :
    s.finish (decCommand w precision scale s) = .next (s.raise e) := by
  rcases decCommand_cases w precision scale s with ⟨hout, -⟩ | ⟨-, -, -, ⟨e', he, hcmd⟩ | ⟨m, hm, -⟩⟩
  · omega
  · cases h.symm.trans he
    rw [hcmd, State.finish_raise]
  · cases h.symm.trans hm

theorem finish_decCommand_of_out {w : CodecWidth} {precision scale : Nat} {s : State}
    (h : precision < scale ∨ w.pmax < precision ∨ s.cfg.lmax < s.tlen.toNat) :
    s.finish (decCommand w precision scale s) = .next (faulted s 9 0 0 0) := by
  rcases decCommand_cases w precision scale s with ⟨-, hcmd⟩ | ⟨hle, hp, hl, -⟩
  · rw [hcmd, paramFault, State.finish_raise, State.raise_paramFault]
  · omega

/-- An accepted text delivers its exact value, in a form that does not depend on the width. -/
theorem finish_decCommand_of_accepted {w : CodecWidth} {precision scale : Nat} {s : State}
    (hle : scale ≤ precision) (hp : precision ≤ w.pmax) (hl : s.tlen.toNat ≤ s.cfg.lmax) (ht : s.tlen ≠ 0)
    (h : Accepted precision scale (textOf s)) :
    s.finish (decCommand w precision scale s) =
      .next (succeeded s (DoubleWidth.ofValue (BitVec.ofInt 128 (scaledValue scale (textOf s))))) := by
  obtain ⟨hlo, hhi⟩ := scaledValue_bounds hle hp h
  rw [finish_decCommand_of_ok hle hp hl (decodeText_of_accepted (hle.trans hp) (textOf_ne_nil ht) h),
    sext128_toNat_ofInt hlo hhi]

/-- A text that is not accepted raises the fault of the byte that ends its shortest beginning that is not
accepted, and no longer beginning is accepted. -/
theorem finish_decCommand_of_not_accepted {w : CodecWidth} {precision scale : Nat} {s : State}
    (hle : scale ≤ precision) (hp : precision ≤ w.pmax) (hl : s.tlen.toNat ≤ s.cfg.lmax) (ht : s.tlen ≠ 0)
    (h : ¬ Accepted precision scale (textOf s)) :
    ∃ pos c, (textOf s)[pos]? = some c ∧ Accepted precision scale ((textOf s).take pos) ∧
      (∀ q, pos < q → ¬ Accepted precision scale ((textOf s).take q)) ∧
      s.finish (decCommand w precision scale s) = .next (faultAt s precision scale pos c) := by
  obtain ⟨pos, c, hc, hbefore, hafter, hraise⟩ :=
    decodeText_of_not_accepted (hle.trans hp) (textOf_ne_nil ht) h
  exact ⟨pos, c, hc, hbefore, hafter,
    by rw [finish_decCommand_of_raise hle hp hl hraise, raise_closedFault]⟩

end Sys2Proof.Machine
end

section
/-! The statements on the decoder (`42_decoder.md`). -/

namespace Sys2Proof.Machine

open Sys2Proof.Spec

/-- R174 for a command that is the decoder of one width. -/
theorem decodesByClosedForm_of_exec (w : CodecWidth) {command : Nat → Nat → Instr}
    (hexec : ∀ precision scale s,
      exec (command precision scale) s = s.finish (decCommand w precision scale s)) :
    DecodesByClosedForm w.pmax command := by
  intro s precision scale hle hp hl ht
  rw [hexec]
  constructor
  · intro haccepted
    obtain ⟨hlo, hhi⟩ := scaledValue_bounds (w := .w128) hle
      (hp.trans (by cases w <;> decide)) haccepted
    refine ⟨magnitudeOf_lt hle haccepted, _, finish_decCommand_of_accepted hle hp hl ht haccepted, ?_⟩
    rw [valueOf_ofValue, signedOf_toNat (by decide)]
    exact BitVec.toInt_ofInt_eq_self (by decide) hlo hhi
  · intro hrejected
    obtain ⟨pos, c, hc, hbefore, hafter, hfault⟩ := finish_decCommand_of_not_accepted hle hp hl ht hrejected
    exact ⟨pos, c, hc, hbefore, hafter (pos + 1) (Nat.lt_succ_self pos), hfault⟩

/-- Settles O19: an accepted text takes both scans through, and a scan that stops names the byte that ends
the shortest beginning that is not accepted. -/
theorem decHasTheClosedForm : Obligations.DecHasTheClosedForm :=
  ⟨decodesByClosedForm_of_exec .w32 exec_dec32, decodesByClosedForm_of_exec .w128 exec_dec128⟩

/-- Whatever DEC32 answers, `R` is the sign extension of its low 32 bits: a fault leaves 0. -/
theorem signedOf_r_of_exec_dec32 {s t : State} {precision scale : Nat}
    (h : exec (.dec32 precision scale) s = .next t) :
    signedOf 128 (valueOf t.r) = signedOf 32 (valueOf t.r % 2 ^ 32) := by
  rw [exec_dec32] at h
  rcases State.finish_next h with ⟨u, hcmd, rfl⟩ | ⟨e, -, rfl⟩
  · obtain ⟨n, rfl⟩ := decCommand_ok hcmd
    have hlow : valueOf (CodecWidth.w32.sext128 n) % 2 ^ 32 = (BitVec.ofNat 32 n).toNat := by
      rw [BitVec.toNat_ofNat]
      exact valueOf_sext128_mod .w32 n
    rw [State.publish_r, State.setR_r, hlow, signedOf_valueOf_sext128, signedOf_toNat (by decide)]
    rfl
  · rw [State.raise_r]
    simp [valueOf, signedOf]

/-- Two widths that both allow the precision have the same completion, because the closed form does not
mention the width: the same value, or the same leftmost byte. -/
theorem finish_decCommand_width_irrelevant {w w' : CodecWidth} {precision : Nat} (hp : precision ≤ w.pmax)
    (hp' : precision ≤ w'.pmax) (scale : Nat) (s : State) :
    s.finish (decCommand w precision scale s) = s.finish (decCommand w' precision scale s) := by
  by_cases hout : precision < scale ∨ s.cfg.lmax < s.tlen.toNat
  · rw [finish_decCommand_of_out (by omega), finish_decCommand_of_out (by omega)]
  obtain ⟨hle, hl⟩ : scale ≤ precision ∧ s.tlen.toNat ≤ s.cfg.lmax := by omega
  by_cases ht : s.tlen = 0
  · have hempty : ∀ v : CodecWidth,
        decodeText v precision scale (textOf s) = .error (.raise ⟨.emptyInput, 0, 0, 0⟩) := by
      intro v
      rw [textOf, ht]
      rfl
    rw [finish_decCommand_of_raise hle hp hl (hempty w), finish_decCommand_of_raise hle hp' hl (hempty w')]
  by_cases haccepted : Accepted precision scale (textOf s)
  · rw [finish_decCommand_of_accepted hle hp hl ht haccepted,
      finish_decCommand_of_accepted hle hp' hl ht haccepted]
  · obtain ⟨pos, c, hc, hbefore, hafter, hfault⟩ := finish_decCommand_of_not_accepted hle hp hl ht haccepted
    obtain ⟨pos', c', hc', hbefore', hafter', hfault'⟩ :=
      finish_decCommand_of_not_accepted hle hp' hl ht haccepted
    have hpos : pos = pos' := Nat.le_antisymm (Nat.not_lt.1 fun hlt => hafter' pos hlt hbefore)
      (Nat.not_lt.1 fun hlt => hafter pos' hlt hbefore')
    subst hpos
    cases hc.symm.trans hc'
    rw [hfault, hfault']

/-- Settles O21: line 32 of R165 extends the sign, and up to `P = 9` both widths allow the precision. -/
theorem dec32AgreesWithDec128 : Obligations.Dec32AgreesWithDec128 := by
  refine ⟨fun s t precision scale h _ => signedOf_r_of_exec_dec32 h, fun s precision scale hp => ?_⟩
  have hp128 : precision ≤ CodecWidth.w128.pmax := hp.trans (by decide)
  rw [exec_dec32, exec_dec128, finish_decCommand_width_irrelevant (w := .w32) hp hp128]

end Sys2Proof.Machine
end

section
/-! SUPPORT. The text of an encoder command, in ordinary decimal: the magnitude is the absolute value of the
signed operand, and the digit lists of `43_encoder.md` R192 are the numbers that R193 to R195 describe. -/

namespace Sys2Proof.Machine

open Sys2Proof.Spec

/-! ## The sign and the magnitude -/

/-- The sign bit is the sign of the two's complement reading (`43_encoder.md` R193). -/
theorem isNegative_iff_signedOf_neg {w : CodecWidth} {v : Nat} (hv : v < w.modulus) :
    isNegative w v = true ↔ signedOf w.bits v < 0 := by
  have hlt : (v : Int) < 2 ^ w.bits := by exact_mod_cast hv
  rw [isNegative_iff hv, signedOf]
  split <;> omega

/-- The magnitude is the absolute value, at the most negative value too (`43_encoder.md` R200). -/
theorem magnitude_eq_natAbs_signedOf {w : CodecWidth} {v : Nat} (hv : v < w.modulus) :
    magnitude w v = (signedOf w.bits v).natAbs := by
  have hhalf : 0 < 2 ^ (w.bits - 1) := Nat.two_pow_pos _
  have hmod : ((w.modulus : Nat) : Int) = 2 ^ w.bits := by simp [CodecWidth.modulus]
  by_cases hneg : 2 ^ (w.bits - 1) ≤ v
  · rw [magnitude, if_pos ((isNegative_iff hv).2 hneg), signedOf, if_pos hneg, ← hmod,
      Nat.mod_eq_of_lt (by omega)]
    omega
  · rw [magnitude, if_neg (mt (isNegative_iff hv).1 hneg), signedOf, if_neg hneg, Int.natAbs_natCast]

/-- The operand of either width, by the value of `A` (`43_encoder.md` R198, R199). -/
theorem operand_eq_valueOf_mod (w : CodecWidth) (a : DoubleWidth) : w.operand a = valueOf a % 2 ^ w.bits := by
  rw [CodecWidth.operand, valueOf_eq_toNat_value, CodecWidth.modulus]

/-! ## The digits as bytes -/

theorem map_digitByte_reverse_digits (n : Nat) :
    (Nat.digits 10 n).reverse.map digitByte = significantBytes n := rfl

/-- The byte of a digit is `'0'` exactly for the digit 0. -/
theorem digitByte_beq_zero {d : Nat} (hd : d < 10) : (digitByte d == 0x30) = (d == 0) := by
  have hzero : (0x30 : Byte).toNat = 0x30 := rfl
  rw [Bool.eq_iff_iff, beq_iff_eq, beq_iff_eq, digitByte, ← BitVec.toNat_inj, BitVec.toNat_ofNat, hzero]
  omega

/-- Dropping zero digits and then writing bytes is writing bytes and then dropping `'0'` bytes. -/
theorem map_digitByte_dropWhile {l : List Nat} (hl : ∀ d ∈ l, d < 10) :
    (l.dropWhile (fun d => d == 0)).map digitByte = (l.map digitByte).dropWhile (fun c => c == 0x30) := by
  induction l with
  | nil => rfl
  | cons d ds ih =>
    obtain ⟨hd, hds⟩ := List.forall_mem_cons.1 hl
    rw [List.map_cons, List.dropWhile_cons, List.dropWhile_cons, digitByte_beq_zero hd, ← ih hds]
    split <;> rfl

/-- The integral digits are the quotient in ordinary decimal (`43_encoder.md` R194). -/
theorem map_digitByte_integralDigits (w : CodecWidth) {q : Nat} (hq : q < w.modulus) :
    (integralDigits w q).map digitByte = decimalBytes q := by
  rw [integralDigits_eq w hq, decimalBytes]
  split
  · rfl
  · exact map_digitByte_reverse_digits q

/-- Padded digits are the number in decimal behind `'0'` bytes. -/
theorem map_digitByte_paddedDigits {scale r : Nat} (hr : r < 10 ^ scale) :
    (paddedDigits scale r).map digitByte =
      List.replicate (scale - (significantBytes r).length) 0x30 ++ significantBytes r := by
  have hlen : (significantBytes r).length = (Nat.digits 10 r).length := by simp [significantBytes]
  rw [paddedDigits_eq scale r hr, List.map_append, List.map_replicate, map_digitByte_reverse_digits, hlen]
  rfl

/-- The fractional digits are the remainder, padded to the scale and stripped (`43_encoder.md` R195). -/
theorem map_digitByte_fractionDigits {scale r : Nat} (hr : r < 10 ^ scale) :
    (fractionDigits scale r).map digitByte = fractionBytes scale r := by
  rw [fractionDigits, dropTrailingZeros_eq, List.map_reverse,
    map_digitByte_dropWhile fun d hd => paddedDigits_lt (List.mem_reverse.1 hd), List.map_reverse,
    map_digitByte_paddedDigits hr, fractionBytes]

/-- A remainder at scale 0 is 0, so only the remainder decides whether there is a fraction. -/
theorem fractionText_eq {scale r : Nat} (hr : r < 10 ^ scale) :
    fractionText scale r = if r = 0 then [] else 0x2E :: fractionBytes scale r := by
  by_cases h0 : r = 0
  · rw [fractionText, if_neg (fun h => h.2 h0), if_pos h0]
  · have hscale : scale ≠ 0 := by
      rintro rfl
      omega
    rw [fractionText, if_pos ⟨hscale, h0⟩, if_neg h0, map_digitByte_fractionDigits hr]
    rfl

/-! ## The text and the completion -/

/-- In its domain an encoder emits the text of the signed value (`43_encoder.md` R193 to R195). -/
theorem encodeText_eq_printedText {w : CodecWidth} {scale v : Nat} (hs : scale ≤ w.pmax) (hv : v < w.modulus) :
    encodeText w scale v = .ok (printedText scale (signedOf w.bits v)) := by
  obtain ⟨text, henc, -, -, htext⟩ := encodeText_ok w hs hv
  have hq : magnitude w v / 10 ^ scale < w.modulus := (Nat.div_le_self _ _).trans_lt (magnitude_lt hv)
  have hr : magnitude w v % 10 ^ scale < 10 ^ scale := Nat.mod_lt _ (by positivity)
  rw [map_digitByte_integralDigits w hq, fractionText_eq hr, magnitude_eq_natAbs_signedOf hv] at htext
  rw [henc, htext, printedText]
  simp only [isNegative_iff_signedOf_neg hv, minusByte]

/-- A state whose TLEN and TBUF hold `text` has that text. -/
theorem textOf_eq_of_bytes {s : State} {text : List Byte} (hlen : s.tlen.toNat = text.length)
    (hbyte : ∀ (i : Nat) (hi : i < text.length), s.tbuf.byte i = text[i]) : textOf s = text := by
  refine List.ext_getElem (by simp [textOf, hlen]) fun i _ hi => ?_
  simpa [textOf] using hbyte i hi

theorem finish_encCommand_of_le {w : CodecWidth} {scale : Nat} (s : State) (h : scale ≤ w.pmax) :
    ∃ t, s.finish (encCommand w scale s) = .next t ∧
      Printed s t (printedText scale (signedOf w.bits (valueOf s.a % 2 ^ w.bits))) := by
  rcases encCommand_cases w scale s with ⟨hlt, -⟩ | ⟨-, text, m, htext, -, hlen, hcmd, -, -, hbyte, -⟩
  · omega
  · rw [encodeText_eq_printedText h (w.operand_lt s.a), operand_eq_valueOf_mod, Except.ok.injEq] at htext
    have hfits : text.length ≤ 41 := hlen.trans (by cases w <;> decide)
    have htlen : (s.deliverText m text.length).tlen.toNat = text.length := by
      rw [State.deliverText, State.publish_tlen, BitVec.toNat_ofNat, Nat.mod_eq_of_lt (by omega)]
    rw [hcmd, htext]
    exact ⟨s.deliverText m text.length, rfl, rfl, htlen, textOf_eq_of_bytes htlen hbyte⟩

theorem finish_encCommand_of_lt {w : CodecWidth} {scale : Nat} (s : State) (h : w.pmax < scale) :
    s.finish (encCommand w scale s) = .next (faulted s 9 0 0 0) := by
  rcases encCommand_cases w scale s with ⟨-, hcmd⟩ | ⟨hle, -⟩
  · rw [hcmd, paramFault, State.finish_raise, State.raise_paramFault]
  · omega

theorem exec_enc32 (scale : Nat) (s : State) : exec (.enc32 scale) s = s.finish (encCommand .w32 scale s) :=
  rfl

theorem exec_enc128 (scale : Nat) (s : State) :
    exec (.enc128 scale) s = s.finish (encCommand .w128 scale s) := rfl

theorem exec_enc32_of_le {scale : Nat} (s : State) (h : scale ≤ 9) :
    ∃ t, exec (.enc32 scale) s = .next t ∧
      Printed s t (printedText scale (signedOf 32 (valueOf s.a % 2 ^ 32))) := by
  rw [exec_enc32]
  exact finish_encCommand_of_le s h

theorem exec_enc128_of_le {scale : Nat} (s : State) (h : scale ≤ 38) :
    ∃ t, exec (.enc128 scale) s = .next t ∧ Printed s t (printedText scale (signedOf 128 (valueOf s.a))) := by
  have hlt : valueOf s.a < 2 ^ 128 := by
    rw [valueOf_eq_toNat_value]
    exact s.a.value.isLt
  rw [exec_enc128, ← Nat.mod_eq_of_lt hlt]
  exact finish_encCommand_of_le s h

end Sys2Proof.Machine
end

section
/-! The statements on the encoder (`43_encoder.md`). -/

namespace Sys2Proof.Machine

open Sys2Proof.Spec

/-- Settles O28: a row of format S, and the two completions of `encCommand` at width 32. -/
theorem enc32PrintsTheValue : Obligations.Enc32PrintsTheValue := by
  refine ⟨fun i hi => ?_, fun s scale => ⟨exec_enc32_of_le s, fun hscale => ?_⟩⟩
  · exact decode_formatS (r := ⟨"ENC32", maskS, 0x30, fun _ s => .enc32 s⟩) (by simp [opcodeRows]) rfl rfl
      (by omega) hi
  · rw [exec_enc32, finish_encCommand_of_lt s hscale]

/-- Settles O29: as O28 at width 128, where the operand is all of `A`. -/
theorem enc128PrintsTheValue : Obligations.Enc128PrintsTheValue := by
  refine ⟨fun i hi => ?_, fun s scale => ⟨exec_enc128_of_le s, fun hscale => ?_⟩⟩
  · exact decode_formatS (r := ⟨"ENC128", maskS, 0x31, fun _ s => .enc128 s⟩) (by simp [opcodeRows]) rfl rfl
      (by omega) hi
  · rw [exec_enc128, finish_encCommand_of_lt s hscale]

/-- Settles O32: the absolute value of `-2^(W-1)` is `2^(W-1)`, and the rest is the operand that O28 and O29
print; at width 32 the bits of `A` above 31 fall away. -/
theorem mostNegativeValuePrintsExactly : Obligations.MostNegativeValuePrintsExactly := by
  refine ⟨?_, ?_, fun s scale ha hscale => ?_, fun s scale ha hscale => ?_⟩
  · rw [magnitude_eq_natAbs_signedOf (by decide)]
    decide
  · rw [magnitude_eq_natAbs_signedOf (by decide)]
    decide
  · obtain ⟨t, hexec, -, -, htext⟩ := exec_enc32_of_le s hscale
    have hop : valueOf s.a % 2 ^ 32 = 2 ^ 31 := by
      rw [valueOf]
      omega
    have hsigned : signedOf 32 (2 ^ 31) = -2147483648 := by decide
    rw [hop, hsigned] at htext
    exact ⟨t, hexec, htext⟩
  · obtain ⟨t, hexec, -, -, htext⟩ := exec_enc128_of_le s hscale
    have hop : signedOf 128 (valueOf s.a) = -170141183460469231731687303715884105728 := by
      rw [ha]
      decide
    rw [hop] at htext
    exact ⟨t, hexec, htext⟩

end Sys2Proof.Machine
end

section
/-! SUPPORT. Acceptance byte by byte: one more byte keeps a beginning of a text accepted unless the byte is of
one of the three kinds that `60_exceptions.md` R212 to R214 name. -/

namespace Sys2Proof.Machine

open Sys2Proof.Spec

/-! ## The parts of a text with one more byte -/

theorem dot_mem_unsignedPart {t : List Byte} : dotByte ∈ unsignedPart t ↔ dotByte ∈ t := by
  have hsign := dotByte_notMem_signPart t
  conv_rhs => rw [← signPart_append_unsignedPart t, List.mem_append]
  exact (or_iff_right hsign).symm

/-- Only a `'-'` in front of everything else is not part of the unsigned text. -/
theorem unsignedPart_concat {t : List Byte} {c : Byte} (h : ¬ (c = minusByte ∧ t = [])) :
    unsignedPart (t ++ [c]) = unsignedPart t ++ [c] := by
  cases t with
  | nil =>
    have hc : c ≠ minusByte := fun hc => h ⟨hc, rfl⟩
    simp [unsignedPart, hasSign_cons, hc, show hasSign [] = false from rfl]
  | cons d ds => by_cases hd : d = minusByte <;> simp [unsignedPart, hasSign_cons, hd]

theorem integralPart_eq (t : List Byte) :
    integralPart t = (unsignedPart t).takeWhile (fun c => c != dotByte) := rfl

theorem fractionPart_eq (t : List Byte) :
    fractionPart t = ((unsignedPart t).dropWhile (fun c => c != dotByte)).tail := rfl

theorem integralPart_of_dot_notMem {t : List Byte} (h : dotByte ∉ t) : integralPart t = unsignedPart t := by
  refine List.takeWhile_eq_self_iff.2 fun c hc => bne_iff_ne.2 ?_
  rintro rfl
  exact h (dot_mem_unsignedPart.1 hc)

theorem fractionPart_of_dot_notMem {t : List Byte} (h : dotByte ∉ t) : fractionPart t = [] := by
  have hnil : (unsignedPart t).dropWhile (fun c => c != dotByte) = [] := by
    refine List.dropWhile_eq_nil_iff.2 fun c hc => bne_iff_ne.2 ?_
    rintro rfl
    exact h (dot_mem_unsignedPart.1 hc)
  rw [fractionPart_eq, hnil, List.tail_nil]

/-- The parts of a text whose first `'.'` is known. -/
theorem parts_of_unsignedPart_eq {t pre post : List Byte} (h : unsignedPart t = pre ++ dotByte :: post)
    (hpre : dotByte ∉ pre) : integralPart t = pre ∧ fractionPart t = post := by
  have hall : ∀ c ∈ pre, (c != dotByte) = true := by
    intro c hc
    refine bne_iff_ne.2 ?_
    rintro rfl
    exact hpre hc
  rw [integralPart_eq, fractionPart_eq, h, List.takeWhile_append_of_pos hall, List.dropWhile_append_of_pos hall]
  simp

/-- How many bytes stand behind the first `'.'`, from its index. -/
theorem length_fractionPart_succ {t : List Byte} (h : dotByte ∈ t) :
    (fractionPart t).length + 1 = t.length - t.idxOf dotByte := by
  obtain ⟨pre, post, hu, hpre⟩ := List.eq_append_cons_of_mem (dot_mem_unsignedPart.2 h)
  obtain ⟨-, hfrac⟩ := parts_of_unsignedPart_eq hu hpre
  have hnot : dotByte ∉ signPart t ++ pre := by
    rw [List.mem_append]
    exact not_or.2 ⟨dotByte_notMem_signPart t, hpre⟩
  have ht : t = (signPart t ++ pre) ++ dotByte :: post := by
    rw [List.append_assoc, ← hu, signPart_append_unsignedPart]
  have hidx : t.idxOf dotByte = (signPart t ++ pre).length := by
    conv_lhs => rw [ht]
    rw [List.idxOf_append_of_notMem hnot, List.idxOf_cons_self, Nat.add_zero]
  have hlen : t.length = (signPart t ++ pre).length + (post.length + 1) := by
    conv_lhs => rw [ht]
    rw [List.length_append, List.length_cons]
  rw [hfrac]
  omega

/-- Behind the first `'.'` one more byte is one more byte of the fraction. -/
theorem parts_concat_of_dot_mem {t : List Byte} (h : dotByte ∈ t) (c : Byte) :
    integralPart (t ++ [c]) = integralPart t ∧ fractionPart (t ++ [c]) = fractionPart t ++ [c] := by
  obtain ⟨pre, post, hu, hpre⟩ := List.eq_append_cons_of_mem (dot_mem_unsignedPart.2 h)
  obtain ⟨hint, hfrac⟩ := parts_of_unsignedPart_eq hu hpre
  have hu' : unsignedPart (t ++ [c]) = pre ++ dotByte :: (post ++ [c]) := by
    rw [unsignedPart_concat (fun hc => List.ne_nil_of_mem h hc.2), hu, List.append_assoc, List.cons_append]
  obtain ⟨hint', hfrac'⟩ := parts_of_unsignedPart_eq hu' hpre
  exact ⟨hint'.trans hint.symm, by rw [hfrac', hfrac]⟩

/-! ## Acceptance with one more byte -/

theorem accepted_nil (precision scale : Nat) : Accepted precision scale [] := by
  simp [Accepted, integralPart, fractionPart, countedPart, lastNonZero, unsignedPart, hasSign]

/-- A text that is the sign alone is accepted (`42_decoder.md` R174). -/
theorem accepted_minus (precision scale : Nat) : Accepted precision scale [minusByte] := by
  simp [Accepted, integralPart, fractionPart, countedPart, lastNonZero, unsignedPart, hasSign, minusByte]

/-- The first `'.'` adds nothing to either part. -/
theorem accepted_concat_dot {t : List Byte} (h : dotByte ∉ t) (precision scale : Nat) :
    Accepted precision scale (t ++ [dotByte]) ↔ Accepted precision scale t := by
  have hu : unsignedPart (t ++ [dotByte]) = unsignedPart t ++ dotByte :: [] :=
    unsignedPart_concat (fun hc => absurd hc.1 (by decide))
  obtain ⟨hint, hfrac⟩ := parts_of_unsignedPart_eq hu (mt dot_mem_unsignedPart.1 h)
  rw [← integralPart_of_dot_notMem h] at hint
  simp only [Accepted, countedPart, lastNonZero, hint, hfrac, fractionPart_of_dot_notMem h]

/-- One more integral byte counts for at most one digit. -/
theorem length_countedPart_concat {t : List Byte} {c : Byte}
    (h : integralPart (t ++ [c]) = integralPart t ++ [c]) :
    (countedPart t).length ≤ (countedPart (t ++ [c])).length ∧
      (countedPart (t ++ [c])).length ≤ (countedPart t).length + 1 := by
  rw [countedPart, countedPart, h, List.dropWhile_append]
  split
  next hempty =>
    have hlen := (List.dropWhile_suffix (l := [c]) (fun c => c == (0x30 : Byte))).length_le
    rw [List.isEmpty_iff.1 hempty]
    exact ⟨Nat.zero_le _, hlen⟩
  next => simp

/-- A byte of the integral part: it must be a digit within the budget. -/
theorem accepted_concat_integral {t : List Byte} {c : Byte} (h : dotByte ∉ t) (hc : c ≠ dotByte)
    (hsign : ¬ (c = minusByte ∧ t = [])) (precision scale : Nat) :
    Accepted precision scale (t ++ [c]) ↔
      Accepted precision scale t ∧ isDigit c = true ∧
        ¬ ((countedPart t).length = precision - scale ∧
          (countedPart (t ++ [c])).length = precision - scale + 1) := by
  have hnot : dotByte ∉ t ++ [c] := by
    rw [List.mem_append, List.mem_singleton]
    exact not_or.2 ⟨h, hc.symm⟩
  have hint : integralPart (t ++ [c]) = integralPart t ++ [c] := by
    rw [integralPart_of_dot_notMem hnot, integralPart_of_dot_notMem h, unsignedPart_concat hsign]
  have hfrac : fractionPart (t ++ [c]) = fractionPart t := by
    rw [fractionPart_of_dot_notMem hnot, fractionPart_of_dot_notMem h]
  obtain ⟨hle, hle'⟩ := length_countedPart_concat hint
  simp only [Accepted, lastNonZero, hint, hfrac, List.forall_mem_append, List.forall_mem_singleton]
  constructor
  · rintro ⟨⟨hdigits, hdigit⟩, hf, hbudget, hscale⟩
    exact ⟨⟨hdigits, hf, by omega, hscale⟩, hdigit, by omega⟩
  · rintro ⟨⟨hdigits, hf, hbudget, hscale⟩, hdigit, hover⟩
    exact ⟨⟨hdigits, hdigit⟩, hf, by omega, hscale⟩

/-- A byte of the fraction: it must be a digit, and `'0'` if its position is beyond the scale. -/
theorem accepted_concat_fraction {t : List Byte} (h : dotByte ∈ t) (c : Byte) (precision scale : Nat) :
    Accepted precision scale (t ++ [c]) ↔
      Accepted precision scale t ∧ isDigit c = true ∧
        ¬ (c ≠ 0x30 ∧ scale < t.length - t.idxOf dotByte) := by
  obtain ⟨hint, hfrac⟩ := parts_concat_of_dot_mem h c
  have hlast : lastNonZero (t ++ [c]) = if c = 0x30 then lastNonZero t else (fractionPart t).length + 1 := by
    rw [lastNonZero, hfrac, List.reverse_concat, List.dropWhile_cons]
    by_cases hc : c = 0x30
    · rw [if_pos (beq_iff_eq.2 hc), if_pos hc, lastNonZero]
    · rw [if_neg (mt beq_iff_eq.1 hc), if_neg hc, List.length_cons, List.length_reverse]
  have hlen := length_fractionPart_succ h
  have hle : lastNonZero t ≤ (fractionPart t).length := lastNonZeroPos_le _
  simp only [Accepted, countedPart, hint, hfrac, List.forall_mem_append, List.forall_mem_singleton]
  by_cases hc : c = 0x30
  · rw [hlast, if_pos hc]
    tauto
  · rw [hlast, if_neg hc, hlen]
    constructor
    · rintro ⟨hi, ⟨hdigits, hdigit⟩, hbudget, hscale⟩
      exact ⟨⟨hi, hdigits, hbudget, by omega⟩, hdigit, by omega⟩
    · rintro ⟨⟨hi, hdigits, hbudget, -⟩, hdigit, hover⟩
      exact ⟨hi, ⟨hdigits, hdigit⟩, hbudget, Nat.not_lt.1 fun hlt => hover ⟨hc, hlt⟩⟩

/-! ## The three kinds of offending byte -/

theorem stray_iff {t : List Byte} {pos : Nat} {c : Byte} (hc : t[pos]? = some c) :
    Stray t pos ↔
      isDigit c = false ∧ ¬ (c = minusByte ∧ pos = 0) ∧ ¬ (c = dotByte ∧ dotByte ∉ t.take pos) := by
  simp only [Stray, hc, Option.some.injEq, exists_eq_left']
  rfl

theorem beyondBudget_iff {t : List Byte} {pos : Nat} {c : Byte} (hc : t[pos]? = some c) (precision scale : Nat) :
    BeyondBudget precision scale t pos ↔ isDigit c = true ∧ dotByte ∉ t.take pos ∧
      (countedPart (t.take pos)).length = precision - scale ∧
      (countedPart (t.take (pos + 1))).length = precision - scale + 1 := by
  simp only [BeyondBudget, hc, Option.some.injEq, exists_eq_left']
  rfl

theorem beyondScale_iff {t : List Byte} {pos : Nat} {c : Byte} (hc : t[pos]? = some c) (scale : Nat) :
    BeyondScale scale t pos ↔ isDigit c = true ∧ c ≠ 0x30 ∧ dotByte ∈ t.take pos ∧
      scale < pos - t.idxOf dotByte := by
  simp only [BeyondScale, hc, Option.some.injEq, exists_eq_left']
  rfl

/-- The byte at an index of a text ends an accepted beginning exactly when it is of one of the three kinds. -/
theorem accepted_take_succ_iff {t : List Byte} {pos : Nat} {c : Byte} (hc : t[pos]? = some c)
    (precision scale : Nat) :
    Accepted precision scale (t.take (pos + 1)) ↔
      Accepted precision scale (t.take pos) ∧ ¬ Stray t pos ∧ ¬ BeyondBudget precision scale t pos ∧
        ¬ BeyondScale scale t pos := by
  have htake : t.take (pos + 1) = t.take pos ++ [c] := by rw [List.take_add_one, hc, Option.toList_some]
  have hlen : (t.take pos).length = pos := List.length_take_of_le (List.getElem?_eq_some_iff.1 hc).1.le
  rw [stray_iff hc, beyondBudget_iff hc, beyondScale_iff hc, htake]
  by_cases hdot : dotByte ∈ t.take pos
  · have hidx : t.idxOf dotByte = (t.take pos).idxOf dotByte := by
      conv_lhs => rw [← List.take_append_drop pos t]
      exact List.idxOf_append_of_mem hdot
    have hpos : pos ≠ 0 := by
      rintro rfl
      exact List.not_mem_nil hdot
    rw [accepted_concat_fraction hdot, hlen, hidx]
    cases isDigit c <;> simp [hdot, hpos]
  by_cases hminus : c = minusByte ∧ pos = 0
  · obtain ⟨rfl, rfl⟩ := hminus
    have hdigit : isDigit minusByte = false := by decide
    simp [accepted_nil, accepted_minus, hdigit]
  by_cases hcdot : c = dotByte
  · subst hcdot
    have hdigit : isDigit dotByte = false := by decide
    simp [accepted_concat_dot hdot, hdigit, hdot]
  · have hsign : ¬ (c = minusByte ∧ t.take pos = []) := fun h =>
      hminus ⟨h.1, by rw [← hlen, h.2, List.length_nil]⟩
    rw [accepted_concat_integral hdot hcdot hsign]
    cases isDigit c <;> simp [hdot, hcdot, hminus]

/-- A beginning of an accepted text is accepted. -/
theorem accepted_take_of_le {precision scale m n : Nat} {t : List Byte} (hmn : m ≤ n)
    (h : Accepted precision scale (t.take n)) : Accepted precision scale (t.take m) := by
  induction n, hmn using Nat.le_induction with
  | base => exact h
  | succ n _ ih =>
    match hc : t[n]? with
    | none =>
      have hlen : t.length ≤ n := List.getElem?_eq_none_iff.1 hc
      rw [List.take_of_length_le (hlen.trans (Nat.le_succ n)), ← List.take_of_length_le hlen] at h
      exact ih h
    | some c => exact ih ((accepted_take_succ_iff hc precision scale).1 h).1

theorem not_accepted_of_stray {t : List Byte} {pos : Nat} (h : Stray t pos) (precision scale : Nat) :
    ¬ Accepted precision scale (t.take (pos + 1)) := by
  have ⟨c, hc, _⟩ := h
  intro hat
  obtain ⟨-, hstray, -⟩ := (accepted_take_succ_iff hc precision scale).1 hat
  exact hstray h

theorem not_accepted_of_beyondBudget {precision scale pos : Nat} {t : List Byte}
    (h : BeyondBudget precision scale t pos) : ¬ Accepted precision scale (t.take (pos + 1)) := by
  have ⟨c, hc, _⟩ := h
  intro hat
  obtain ⟨-, -, hbudget, -⟩ := (accepted_take_succ_iff hc precision scale).1 hat
  exact hbudget h

theorem not_accepted_of_beyondScale {scale pos : Nat} {t : List Byte} (h : BeyondScale scale t pos)
    (precision : Nat) : ¬ Accepted precision scale (t.take (pos + 1)) := by
  have ⟨c, hc, _⟩ := h
  intro hat
  obtain ⟨-, -, -, hscale⟩ := (accepted_take_succ_iff hc precision scale).1 hat
  exact hscale h

end Sys2Proof.Machine
end

section
/-! SUPPORT. What a DEC command answers, in the words of `60_exceptions.md` R211 to R214, and what every command
answers inside and outside its domain. -/

namespace Sys2Proof.Machine

open Sys2Proof.Spec

/-! ## The error of a text -/

@[simp] theorem faulted_err (s : State) (code : BitVec 4) (pos ord lim : Nat) :
    (faulted s code pos ord lim).status.err = code := rfl

@[simp] theorem length_textOf (s : State) : (textOf s).length = s.tlen.toNat := by simp [textOf]

/-- The fault completions that the text of `s` calls for: on no text `EmptyInput`, and behind an accepted
beginning one row for each kind of offending byte (`60_exceptions.md` R211 to R215). -/
inductive TextFault (s : State) (precision scale : Nat) : State → Prop
  | emptyInput (h : s.tlen = 0) : TextFault s precision scale (faulted s 1 0 0 0)
  | invalidCharacter {pos : Nat} (hbefore : Accepted precision scale ((textOf s).take pos))
      (h : Stray (textOf s) pos) : TextFault s precision scale (faulted s 2 pos 0 0)
  | integralOverflow {pos : Nat} (hbefore : Accepted precision scale ((textOf s).take pos))
      (h : BeyondBudget precision scale (textOf s) pos) :
      TextFault s precision scale (faulted s 3 pos (precision - scale + 1) (precision - scale))
  | fractionOverflow {pos : Nat} (hbefore : Accepted precision scale ((textOf s).take pos))
      (h : BeyondScale scale (textOf s) pos) :
      TextFault s precision scale (faulted s 4 pos (pos - (textOf s).idxOf dotByte) scale)

theorem faultAt_of_stray {s : State} {pos : Nat} {c : Byte} (hc : (textOf s)[pos]? = some c)
    (h : Stray (textOf s) pos) (precision scale : Nat) :
    faultAt s precision scale pos c = faulted s 2 pos 0 0 := by
  obtain ⟨hdigit, -⟩ := (stray_iff hc).1 h
  rw [faultAt, if_pos hdigit]

theorem faultAt_of_beyondBudget {s : State} {precision scale pos : Nat} {c : Byte}
    (hc : (textOf s)[pos]? = some c) (h : BeyondBudget precision scale (textOf s) pos) :
    faultAt s precision scale pos c = faulted s 3 pos (precision - scale + 1) (precision - scale) := by
  obtain ⟨hdigit, hdot, -⟩ := (beyondBudget_iff hc precision scale).1 h
  rw [faultAt, if_neg (by simp [hdigit])]
  exact if_neg hdot

theorem faultAt_of_beyondScale {s : State} {scale pos : Nat} {c : Byte} (hc : (textOf s)[pos]? = some c)
    (h : BeyondScale scale (textOf s) pos) (precision : Nat) :
    faultAt s precision scale pos c = faulted s 4 pos (pos - (textOf s).idxOf dotByte) scale := by
  obtain ⟨hdigit, -, hdot, -⟩ := (beyondScale_iff hc scale).1 h
  rw [faultAt, if_neg (by simp [hdigit])]
  exact if_pos hdot

/-- The byte that ends the shortest beginning that is not accepted raises the fault of its kind. -/
theorem textFault_faultAt {s : State} {precision scale pos : Nat} {c : Byte} (hc : (textOf s)[pos]? = some c)
    (hbefore : Accepted precision scale ((textOf s).take pos))
    (hat : ¬ Accepted precision scale ((textOf s).take (pos + 1))) :
    TextFault s precision scale (faultAt s precision scale pos c) := by
  rw [accepted_take_succ_iff hc, and_iff_right hbefore] at hat
  by_cases hstray : Stray (textOf s) pos
  · rw [faultAt_of_stray hc hstray]
    exact .invalidCharacter hbefore hstray
  by_cases hbudget : BeyondBudget precision scale (textOf s) pos
  · rw [faultAt_of_beyondBudget hc hbudget]
    exact .integralOverflow hbefore hbudget
  by_cases hscale : BeyondScale scale (textOf s) pos
  · rw [faultAt_of_beyondScale hc hscale]
    exact .fractionOverflow hbefore hscale
  · exact absurd ⟨hstray, hbudget, hscale⟩ hat

/-- A fault of a text is `EmptyInput` on no text, or the fault at the byte that ends the shortest beginning that
is not accepted. -/
theorem TextFault.empty_or_faultAt {s t : State} {precision scale : Nat} (h : TextFault s precision scale t) :
    (s.tlen = 0 ∧ t = faulted s 1 0 0 0) ∨
      ∃ pos c, (textOf s)[pos]? = some c ∧ Accepted precision scale ((textOf s).take pos) ∧
        ¬ Accepted precision scale ((textOf s).take (pos + 1)) ∧ t = faultAt s precision scale pos c := by
  cases h with
  | emptyInput h => exact .inl ⟨h, rfl⟩
  | invalidCharacter hbefore h =>
    have ⟨c, hc, _⟩ := h
    exact .inr ⟨_, c, hc, hbefore, not_accepted_of_stray h _ _, (faultAt_of_stray hc h _ _).symm⟩
  | integralOverflow hbefore h =>
    have ⟨c, hc, _⟩ := h
    exact .inr ⟨_, c, hc, hbefore, not_accepted_of_beyondBudget h, (faultAt_of_beyondBudget hc h).symm⟩
  | fractionOverflow hbefore h =>
    have ⟨c, hc, _⟩ := h
    exact .inr ⟨_, c, hc, hbefore, not_accepted_of_beyondScale h _, (faultAt_of_beyondScale hc h _).symm⟩

theorem lt_tlen_of_getElem? {s : State} {pos : Nat} {c : Byte} (hc : (textOf s)[pos]? = some c) :
    pos < s.tlen.toNat := by
  rw [← length_textOf]
  exact (List.getElem?_eq_some_iff.1 hc).1

/-! ## The completion of a DEC command -/

/-- A DEC command is the decoder of one width, and its domain is the decoder's. -/
theorem exists_width_of_isDec {i : Instr} {precision scale : Nat} (h : isDec i precision scale) (s : State) :
    ∃ w : CodecWidth, exec i s = s.finish (decCommand w precision scale s) ∧
      (OutOfDomain i s ↔ precision < scale ∨ w.pmax < precision ∨ s.cfg.lmax < s.tlen.toNat) := by
  rcases h with rfl | rfl
  · exact ⟨.w32, exec_dec32 precision scale s, Iff.rfl⟩
  · exact ⟨.w128, exec_dec128 precision scale s, Iff.rfl⟩

/-- A beginning of the text that the next byte makes not accepted settles the completion. -/
theorem finish_decCommand_of_rejected {w : CodecWidth} {precision scale pos : Nat} {s : State} {c : Byte}
    (hle : scale ≤ precision) (hp : precision ≤ w.pmax) (hl : s.tlen.toNat ≤ s.cfg.lmax)
    (hc : (textOf s)[pos]? = some c) (hbefore : Accepted precision scale ((textOf s).take pos))
    (hat : ¬ Accepted precision scale ((textOf s).take (pos + 1))) :
    s.finish (decCommand w precision scale s) = .next (faultAt s precision scale pos c) := by
  have hlt : pos < s.tlen.toNat := lt_tlen_of_getElem? hc
  have htlen : s.tlen ≠ 0 := by
    intro h0
    rw [h0] at hlt
    exact Nat.not_lt_zero _ hlt
  have hrejected : ¬ Accepted precision scale (textOf s) := by
    intro haccepted
    rw [← List.take_length (l := textOf s), length_textOf] at haccepted
    exact hat (accepted_take_of_le hlt haccepted)
  obtain ⟨pos', c', hc', hbefore', hafter', hfault⟩ :=
    finish_decCommand_of_not_accepted hle hp hl htlen hrejected
  have hpos : pos = pos' := Nat.le_antisymm (Nat.not_lt.1 fun h => hafter' pos h hbefore)
    (Nat.not_lt.1 fun h => hat (accepted_take_of_le h hbefore'))
  subst hpos
  cases hc.symm.trans hc'
  exact hfault

theorem finish_decCommand_of_empty {w : CodecWidth} {precision scale : Nat} {s : State}
    (hle : scale ≤ precision) (hp : precision ≤ w.pmax) (hl : s.tlen.toNat ≤ s.cfg.lmax) (h : s.tlen = 0) :
    s.finish (decCommand w precision scale s) = .next (faulted s 1 0 0 0) := by
  have htext : textOf s = [] := List.eq_nil_of_length_eq_zero (by rw [length_textOf, h]; rfl)
  exact finish_decCommand_of_raise (e := ⟨.emptyInput, 0, 0, 0⟩) hle hp hl (by rw [htext, decodeText])

/-- In its domain a DEC command raises the fault that its text calls for. -/
theorem exec_dec_of_textFault {s t : State} {i : Instr} {precision scale : Nat} (hi : isDec i precision scale)
    (hdom : ¬ OutOfDomain i s) (h : TextFault s precision scale t) : exec i s = .next t := by
  obtain ⟨w, hexec, hout⟩ := exists_width_of_isDec hi s
  rw [hout] at hdom
  obtain ⟨hle, hp, hl⟩ : scale ≤ precision ∧ precision ≤ w.pmax ∧ s.tlen.toNat ≤ s.cfg.lmax := by omega
  rw [hexec]
  rcases h.empty_or_faultAt with ⟨ht, rfl⟩ | ⟨pos, c, hc, hbefore, hat, rfl⟩
  · exact finish_decCommand_of_empty hle hp hl ht
  · exact finish_decCommand_of_rejected hle hp hl hc hbefore hat

/-- All that a DEC command can answer: `ParamFault` outside its domain, and in it a result or the fault that its
text calls for. -/
theorem exec_dec_cases {s t : State} {i : Instr} {precision scale : Nat} (hi : isDec i precision scale)
    (h : exec i s = .next t) :
    (OutOfDomain i s ∧ t = faulted s 9 0 0 0) ∨
      ¬ OutOfDomain i s ∧ ((∃ r, t = succeeded s r) ∨ TextFault s precision scale t) := by
  obtain ⟨w, hexec, hout⟩ := exists_width_of_isDec hi s
  by_cases hdom : OutOfDomain i s
  · rw [hexec, finish_decCommand_of_out (hout.1 hdom)] at h
    exact .inl ⟨hdom, (Host.Outcome.next.inj h).symm⟩
  refine .inr ⟨hdom, ?_⟩
  rw [hout] at hdom
  obtain ⟨hle, hp, hl⟩ : scale ≤ precision ∧ precision ≤ w.pmax ∧ s.tlen.toNat ≤ s.cfg.lmax := by omega
  rw [hexec] at h
  by_cases ht : s.tlen = 0
  · rw [finish_decCommand_of_empty hle hp hl ht] at h
    cases h
    exact .inr (.emptyInput ht)
  by_cases haccepted : Accepted precision scale (textOf s)
  · rw [finish_decCommand_of_accepted hle hp hl ht haccepted] at h
    exact .inl ⟨_, (Host.Outcome.next.inj h).symm⟩
  · obtain ⟨pos, c, hc, hbefore, hafter, hfault⟩ := finish_decCommand_of_not_accepted hle hp hl ht haccepted
    rw [hfault] at h
    cases h
    exact .inr (textFault_faultAt hc hbefore (hafter (pos + 1) (Nat.lt_succ_self pos)))

/-- A DEC command that completes with a code of the text raised the text's fault. -/
theorem textFault_of_err {s t : State} {i : Instr} {precision scale : Nat} (hi : isDec i precision scale)
    (h : exec i s = .next t) (h0 : t.status.err ≠ 0) (h9 : t.status.err ≠ 9) :
    ¬ OutOfDomain i s ∧ TextFault s precision scale t := by
  rcases exec_dec_cases hi h with ⟨-, rfl⟩ | ⟨hdom, ⟨r, rfl⟩ | hfault⟩
  · exact absurd rfl h9
  · exact absurd rfl h0
  · exact ⟨hdom, hfault⟩

/-! ## The completion of every command -/

/-- Outside its domain every command is `ParamFault` (`60_exceptions.md` R217). -/
theorem exec_of_outOfDomain {i : Instr} {s : State} (h : OutOfDomain i s) :
    exec i s = .next (faulted s 9 0 0 0) := by
  cases i with
  | pow32 index => exact finish_powCommand_of_lt s h
  | pow64 index => exact finish_powCommand_of_lt s h
  | pow128 index => exact finish_powCommand_of_lt s h
  | add => exact h.elim
  | neg => exact h.elim
  | muls => exact h.elim
  | mul => exact h.elim
  | dec32 precision scale => exact finish_decCommand_of_out h
  | dec128 precision scale => exact finish_decCommand_of_out h
  | enc32 scale => exact finish_encCommand_of_lt s h
  | enc128 scale => exact finish_encCommand_of_lt s h

/-- The code and the `ERRINFO` of a success (`30_encoding.md` R93 step 4). -/
def CompletedOk (t : State) : Prop := t.status.err = 0 ∧ t.errInfo = ⟨0, 0, 0⟩

theorem completedOk_succeeded (s : State) (r : DoubleWidth) : CompletedOk (succeeded s r) := ⟨rfl, rfl⟩

theorem completedOk_of_printed {s t : State} {text : List Byte} (h : Printed s t text) : CompletedOk t := by
  obtain ⟨ht, -⟩ := h
  rw [ht]
  exact ⟨rfl, rfl⟩

theorem completedOk_of_powCommand {bank : RomBank} {index : Nat} {s t : State} (hdom : ¬ bank.kmax < index)
    (h : s.finish (powCommand bank index s) = .next t) : CompletedOk t := by
  rw [finish_powCommand_of_le s (Nat.not_lt.1 hdom)] at h
  cases h
  exact completedOk_succeeded _ _

theorem completedOk_of_encCommand {w : CodecWidth} {scale : Nat} {s t : State} (hdom : ¬ w.pmax < scale)
    (h : s.finish (encCommand w scale s) = .next t) : CompletedOk t := by
  obtain ⟨u, hu, hprinted⟩ := finish_encCommand_of_le s (Nat.not_lt.1 hdom)
  cases hu.symm.trans h
  exact completedOk_of_printed hprinted

/-- In its domain a command succeeds, or it is a DEC command and raises the fault its text calls for. -/
theorem exec_of_inDomain {i : Instr} {s t : State} (hdom : ¬ OutOfDomain i s) (h : exec i s = .next t) :
    CompletedOk t ∨ ∃ precision scale, isDec i precision scale ∧ TextFault s precision scale t := by
  have hdec : ∀ {precision scale : Nat}, isDec i precision scale →
      CompletedOk t ∨ ∃ precision scale, isDec i precision scale ∧ TextFault s precision scale t := by
    intro precision scale hi
    rcases exec_dec_cases hi h with ⟨hout, -⟩ | ⟨-, ⟨r, rfl⟩ | hfault⟩
    · exact absurd hout hdom
    · exact .inl (completedOk_succeeded s r)
    · exact .inr ⟨precision, scale, hi, hfault⟩
  cases i with
  | pow32 index => exact .inl (completedOk_of_powCommand (bank := .w32) hdom h)
  | pow64 index => exact .inl (completedOk_of_powCommand (bank := .w64) hdom h)
  | pow128 index => exact .inl (completedOk_of_powCommand (bank := .w128) hdom h)
  | add =>
    cases h
    exact .inl (completedOk_succeeded _ _)
  | neg =>
    cases h
    exact .inl (completedOk_succeeded _ _)
  | muls =>
    cases h
    exact .inl (completedOk_succeeded _ _)
  | mul =>
    cases h
    exact .inl (completedOk_succeeded _ _)
  | dec32 precision scale => exact hdec (.inl rfl)
  | dec128 precision scale => exact hdec (.inr rfl)
  | enc32 scale => exact .inl (completedOk_of_encCommand (w := .w32) hdom h)
  | enc128 scale => exact .inl (completedOk_of_encCommand (w := .w128) hdom h)

/-- A completion keeps `CTRL.IE` (`60_exceptions.md` R218). -/
theorem complete_ie {s t : State} (h : complete s = .next t) : t.ie = s.ie := by
  match hdecode : decode s.cmd with
  | .error e =>
    rw [complete_error hdecode] at h
    cases h
    rfl
  | .ok i =>
    rw [complete_ok hdecode] at h
    rcases exec_cases i s with ⟨r, hr⟩ | ⟨w, scale, text, m, -, -, -, -, hr⟩ | ⟨e, hr⟩ <;>
      cases hr.symm.trans h <;> rfl

/-- The codes that a text calls for. -/
theorem TextFault.err_mem {s t : State} {precision scale : Nat} (h : TextFault s precision scale t) :
    t.status.err ∈ [(1 : BitVec 4), 2, 3, 4] := by
  cases h <;> simp

theorem mem_possibleCodes_of_isDec {i : Instr} {precision scale : Nat} (hi : isDec i precision scale)
    {code : BitVec 4} (h : code ∈ [(1 : BitVec 4), 2, 3, 4]) : code ∈ possibleCodes i := by
  have hsub : [(1 : BitVec 4), 2, 3, 4] ⊆ [0, 1, 2, 3, 4, 9] := by decide
  rcases hi with rfl | rfl <;> exact hsub h

theorem zero_mem_possibleCodes (i : Instr) : 0 ∈ possibleCodes i := by cases i <;> exact List.mem_cons_self

theorem nine_mem_possibleCodes_of_outOfDomain {i : Instr} {s : State} (h : OutOfDomain i s) :
    9 ∈ possibleCodes i := by
  have henc : (9 : BitVec 4) ∈ [(0 : BitVec 4), 9] := by decide
  have hdec : (9 : BitVec 4) ∈ [(0 : BitVec 4), 1, 2, 3, 4, 9] := by decide
  cases i with
  | add => exact h.elim
  | neg => exact h.elim
  | muls => exact h.elim
  | mul => exact h.elim
  | dec32 => exact hdec
  | dec128 => exact hdec
  | _ => exact henc

end Sys2Proof.Machine

namespace Sys2Proof

open Sys2Proof.Spec

/-! ## The fields of a DEC word -/

/-- The rows of DEC32 and DEC128 put the fields P and S of a word where they belong (`30_encoding.md` R95). -/
theorem opcodeRows_build_isDec :
    ∀ r ∈ opcodeRows, ∀ p s precision scale : Nat, isDec (r.build p s) precision scale →
      precision = p ∧ scale = s := by
  simp [opcodeRows, isDec, eq_comm]

/-- A word that is a DEC command holds its precision and its scale (`30_encoding.md` R92). -/
theorem eq_fields_of_decode_isDec {w : Word} {i : Instr} {precision scale : Nat} (hi : isDec i precision scale)
    (h : decode w = .ok i) : precision = pOf w ∧ scale = sOf w := by
  unfold decode at h
  split at h
  next r hr =>
    cases h
    obtain ⟨hp, hs⟩ := opcodeRows_build_isDec r (List.mem_of_find?_eq_some hr) _ _ _ _ hi
    rw [toNat_fieldP] at hp
    rw [toNat_fieldS] at hs
    exact ⟨hp, hs⟩
  next => cases h

end Sys2Proof
end

section
/-! The statements on the errors of the block (`60_exceptions.md`). -/

namespace Sys2Proof.Machine

open Sys2Proof.Spec

/-- Settles O22: of the faults of a text only `EmptyInput` has code 1. -/
theorem emptyInputExactlyOnEmptyText : Obligations.EmptyInputExactlyOnEmptyText := by
  intro s i precision scale hi
  refine ⟨fun h hdom => exec_dec_of_textFault hi hdom (.emptyInput h), fun t h herr => ?_⟩
  obtain ⟨hdom, hfault⟩ := textFault_of_err hi h (by rw [herr]; decide) (by rw [herr]; decide)
  cases hfault with
  | emptyInput hempty => exact ⟨hempty, hdom⟩
  | _ => simp at herr

/-- Settles O23: the bytes in front of the one that raises the error are accepted, so none of them is stray. -/
theorem invalidCharacterIsTheFirstStrayByte : Obligations.InvalidCharacterIsTheFirstStrayByte := by
  intro s i precision scale hi
  refine ⟨fun t h herr => ?_, fun pos hdom hstray hbefore =>
    exec_dec_of_textFault hi hdom (.invalidCharacter hbefore hstray)⟩
  obtain ⟨-, hfault⟩ := textFault_of_err hi h (by rw [herr]; decide) (by rw [herr]; decide)
  cases hfault with
  | @invalidCharacter pos hbefore hstray =>
    exact ⟨pos, rfl, hstray, fun q hq hbyte =>
      not_accepted_of_stray hbyte precision scale (accepted_take_of_le hq hbefore)⟩
  | _ => simp at herr

/-- Settles O24: of the faults of a text only the digit beyond the budget has code 3. -/
theorem integralOverflowIsTheDigitBeyondTheBudget : Obligations.IntegralOverflowIsTheDigitBeyondTheBudget := by
  intro s i precision scale hi
  refine ⟨fun t h herr => ?_, fun pos hdom hbudget hbefore =>
    exec_dec_of_textFault hi hdom (.integralOverflow hbefore hbudget)⟩
  obtain ⟨-, hfault⟩ := textFault_of_err hi h (by rw [herr]; decide) (by rw [herr]; decide)
  cases hfault with
  | @integralOverflow pos _ hbudget => exact ⟨pos, rfl, hbudget⟩
  | _ => simp at herr

/-- Settles O25: as O23 with the digits beyond the scale. -/
theorem fractionOverflowIsTheFirstDigitBeyondTheScale :
    Obligations.FractionOverflowIsTheFirstDigitBeyondTheScale := by
  intro s i precision scale hi
  refine ⟨fun t h herr => ?_, fun pos hdom hscale hbefore =>
    exec_dec_of_textFault hi hdom (.fractionOverflow hbefore hscale)⟩
  obtain ⟨-, hfault⟩ := textFault_of_err hi h (by rw [herr]; decide) (by rw [herr]; decide)
  cases hfault with
  | @fractionOverflow pos hbefore hscale =>
    exact ⟨pos, rfl, hscale, fun q hq hbyte =>
      not_accepted_of_beyondScale hbyte precision (accepted_take_of_le hq hbefore)⟩
  | _ => simp at herr

/-- Settles O36: in its domain a command succeeds or raises a fault of its text, and none of those has code 9. -/
theorem paramFaultExactlyOutOfDomain : Obligations.ParamFaultExactlyOutOfDomain := by
  refine fun i s => ⟨exec_of_outOfDomain, fun hdom t h herr => ?_⟩
  rcases exec_of_inDomain hdom h with ⟨hok, -⟩ | ⟨precision, scale, -, hfault⟩
  · exact absurd (hok.symm.trans herr) (by decide)
  · have hmem := hfault.err_mem
    rw [herr] at hmem
    exact absurd hmem (by decide)

/-- Settles O37: a word that is no command, parameters outside the domain, a success, or one of the faults of a
text, each with its row of R215. -/
theorem faultCompletionWritesExactlyItsRow : Obligations.FaultCompletionWritesExactlyItsRow := by
  intro s t h
  match hdecode : decode s.cmd with
  | .error e =>
    rw [complete_error hdecode] at h
    cases h
    exact .inr ⟨8, 0, 0, 0, rfl, .inl ⟨.inr (.inl rfl), rfl, rfl, rfl⟩⟩
  | .ok i =>
    rw [complete_ok hdecode] at h
    by_cases hdom : OutOfDomain i s
    · rw [exec_of_outOfDomain hdom] at h
      cases h
      exact .inr ⟨9, 0, 0, 0, rfl, .inl ⟨.inr (.inr rfl), rfl, rfl, rfl⟩⟩
    rcases exec_of_inDomain hdom h with hok | ⟨precision, scale, hi, hfault⟩
    · exact .inl hok
    obtain ⟨rfl, rfl⟩ := eq_fields_of_decode_isDec hi hdecode
    refine .inr ?_
    cases hfault with
    | emptyInput => exact ⟨1, 0, 0, 0, rfl, .inl ⟨.inl rfl, rfl, rfl, rfl⟩⟩
    | @invalidCharacter pos _ hstray =>
      obtain ⟨c, hc, -⟩ := hstray
      exact ⟨2, pos, 0, 0, rfl, .inr (.inl ⟨rfl, lt_tlen_of_getElem? hc, rfl, rfl⟩)⟩
    | @integralOverflow pos _ hbudget =>
      obtain ⟨c, hc, -⟩ := hbudget
      exact ⟨3, pos, _, _, rfl, .inr (.inr (.inl ⟨rfl, lt_tlen_of_getElem? hc, rfl, rfl⟩))⟩
    | @fractionOverflow pos _ hscale =>
      obtain ⟨c, hc, -⟩ := hscale
      exact ⟨4, pos, _, _, rfl, .inr (.inr (.inr ⟨rfl, lt_tlen_of_getElem? hc, rfl, rfl⟩))⟩

/-- Settles O38: 9 outside the domain, 0 for a success, 1 to 4 for the faults of a text, which only DEC has. -/
theorem eachCommandHasItsCodes : Obligations.EachCommandHasItsCodes := by
  refine fun s t h => ⟨fun i hdecode => ?_, fun e hdecode => ?_⟩
  · rw [complete_ok hdecode] at h
    by_cases hdom : OutOfDomain i s
    · rw [exec_of_outOfDomain hdom] at h
      cases h
      exact nine_mem_possibleCodes_of_outOfDomain hdom
    rcases exec_of_inDomain hdom h with ⟨hok, -⟩ | ⟨precision, scale, hi, hfault⟩
    · rw [hok]
      exact zero_mem_possibleCodes i
    · exact mem_possibleCodes_of_isDec hi hfault.err_mem
  · rw [complete_error hdecode] at h
    cases h
    rfl

/-- Settles O39: every completion sets `DONE`, and each of the three ways of clearing it is an update of the
state that leaves `DONE` at 0. -/
theorem interruptIsEnableAndDone : Obligations.InterruptIsEnableAndDone := by
  refine ⟨fun s => rfl, fun s t h => ?completion, fun s w hr hidle => ?accept, fun s v hr hv => ?clear,
    fun s => ?reset, fun s => ?werr⟩
  case completion =>
    obtain ⟨u, hu, -, hdone, -⟩ := complete_next s
    cases hu.symm.trans h
    rw [State.irq, hdone, Bool.and_true, complete_ie h]
  case accept =>
    rw [State.busAccess_writeAt (x := .cmd) w hr rfl (by simp [hidle])]
    exact Bool.and_false _
  case clear =>
    rw [State.busAccess_writeAt (x := .status) v hr rfl (Bool.and_false _)]
    simp [State.irq, State.writeReg, Status.clearBits, hv]
  case reset =>
    rw [State.drivePin_false]
    exact s.registersReset_assertReset.irq_eq_false
  case werr => simp [State.irq]

end Sys2Proof.Machine
end

section
/-! The statement on writes while busy (`70_reset_and_hazards.md` R257). -/

namespace Sys2Proof.Machine

open Sys2Proof.Spec

/-- Behind the registers an access that is no bus error reaches TBUF (`20_memory.md` R64, R66). -/
theorem busTarget_eq_text_of_le {c : Config} {off : BitVec 16} {size : AccessSize}
    (hle : 0x1000 ≤ off.toNat) (hsome : busTarget c off size ≠ none) :
    busTarget c off size = some (.text (off.toNat - 0x1000)) := by
  match h : busTarget c off size with
  | none => exact absurd h hsome
  | some (.reg x) =>
    obtain ⟨hlt, -, -⟩ := busTarget_eq_reg.1 h
    omega
  | some (.text i) =>
    obtain ⟨-, -, -, hi⟩ := busTarget_eq_text.1 h
    rw [hi]

/-- A write of a locked register of a busy block is dropped. -/
theorem State.busAccess_writeAt_of_locked {s : State} {off : Nat} {x : BusReg} (v : Word) (hr : s.rstN = true)
    (hbusy : s.status.busy = true) (ht : BusReg.atOffset off = some x) (hlocked : x.lockedWhileBusy = true) :
    s.busAccess (writeAt off v) = s.flagWriteError.answer .written := by
  rw [writeAt, State.busAccess_write _ _ v hr, State.hostWrite, busTarget_of_atOffset s.cfg ht]
  exact if_pos (by rw [hbusy, hlocked, Bool.and_self])

/-- A write of TBUF of a busy block is dropped. -/
theorem State.busAccess_write_text_of_busy {s : State} {off : BitVec 16} {size : AccessSize} {i : Nat} (v : Word)
    (hr : s.rstN = true) (hbusy : s.status.busy = true) (ht : busTarget s.cfg off size = some (.text i)) :
    s.busAccess (.write off size v) = s.flagWriteError.answer .written := by
  rw [State.busAccess_write off size v hr, State.hostWrite, ht]
  exact if_pos hbusy

/-- Settles O42: the locked registers and TBUF drop the write; every other register stores it as in an idle
block, which a read-only register ignores. -/
theorem writesWhileBusyAreDropped : Obligations.WritesWhileBusyAreDropped := by
  intro s v hr hbusy
  have hdropped : ∀ {off x}, BusReg.atOffset off = some x → x.lockedWhileBusy = true →
      s.busAccess (writeAt off v) = s.flagWriteError.answer .written :=
    State.busAccess_writeAt_of_locked v hr hbusy
  have hstored : ∀ {off x}, BusReg.atOffset off = some x → x.lockedWhileBusy = false →
      s.busAccess (writeAt off v) = (s.writeReg x v).answer .written := fun ht hfree =>
    State.busAccess_writeAt v hr ht (by rw [hfree, Bool.and_false])
  refine ⟨?locked, ?text, ?ctrl, ?status, ?readOnly⟩
  case locked =>
    simp only [List.forall_mem_cons]
    exact ⟨hdropped (x := .cmd) rfl rfl, hdropped (x := .aLo) rfl rfl, hdropped (x := .aHi) rfl rfl,
      hdropped (x := .bLo) rfl rfl, hdropped (x := .bHi) rfl rfl, hdropped (x := .k) rfl rfl,
      hdropped (x := .tlen) rfl rfl, List.forall_mem_nil _⟩
  case text =>
    intro off size hle hok
    have hsome : busTarget s.cfg off size ≠ none := fun hnone =>
      hok (BusAccess.target_eq_none.1 hnone)
    exact State.busAccess_write_text_of_busy v hr hbusy (busTarget_eq_text_of_le hle hsome)
  case ctrl => exact hstored (x := .ctrl) rfl rfl
  case status => exact hstored (x := .status) rfl rfl
  case readOnly =>
    simp only [List.forall_mem_cons]
    exact ⟨hstored (x := .id) rfl rfl, hstored (x := .rLo) rfl rfl, hstored (x := .rHi) rfl rfl,
      hstored (x := .errInfo) rfl rfl, List.forall_mem_nil _⟩

end Sys2Proof.Machine
end

section
/-! SUPPORT. Which words each row of the opcode map selects, field by field, and the decoder's answers by the
rows (`30_encoding.md` R91, R93, R95). -/

namespace Sys2Proof

open Sys2Proof.Laws.EncodeFields

/-! ## The fields of a word -/

theorem eq_of_fields {v w : Word} (hr : fieldReserved v = fieldReserved w) (hp : fieldP v = fieldP w)
    (hs : fieldS v = fieldS w) (ho : fieldOP v = fieldOP w) : v = w := by
  rw [← wordOfFields_fields v, ← wordOfFields_fields w, hr, hp, hs, ho]

theorem fieldReserved_and (v w : Word) : fieldReserved (v &&& w) = fieldReserved v &&& fieldReserved w :=
  BitVec.extractLsb'_and

theorem fieldP_and (v w : Word) : fieldP (v &&& w) = fieldP v &&& fieldP w := BitVec.extractLsb'_and

theorem fieldS_and (v w : Word) : fieldS (v &&& w) = fieldS v &&& fieldS w := BitVec.extractLsb'_and

theorem fieldOP_and (v w : Word) : fieldOP (v &&& w) = fieldOP v &&& fieldOP w := BitVec.extractLsb'_and

/-! ## The fields of a row -/

/-- The pattern of a row is its opcode alone (`30_encoding.md` R95). -/
theorem opcodeRows_pattern :
    ∀ r ∈ opcodeRows, fieldP r.pattern = 0 ∧ fieldS r.pattern = 0 := by
  decide

/-- A field that a format does not use is asked for whole, one that it uses not at all
(`30_encoding.md` R91). -/
theorem opcodeRows_mask :
    ∀ r ∈ opcodeRows, (fieldP r.mask = 0 ∨ fieldP r.mask = BitVec.allOnes 8) ∧
      (fieldS r.mask = 0 ∨ fieldS r.mask = BitVec.allOnes 8) := by
  decide

/-- The formats that use P are those of DEC32 and DEC128, and those that do not use S are those of ADD, NEG,
MULS and MUL (`30_encoding.md` R95). -/
theorem opcodeRows_formats :
    ∀ r ∈ opcodeRows, (fieldP r.mask = 0 ↔ (fieldOP r.pattern).toNat ∈ [0x20, 0x21]) ∧
      (fieldS r.mask = 0 ↔ (fieldOP r.pattern).toNat ∉ [0x10, 0x11, 0x12, 0x13]) := by
  decide

/-- The assigned opcodes (`30_encoding.md` R95). -/
theorem opcodeRows_opcodes :
    opcodeRows.map (fun r => (fieldOP r.pattern).toNat) =
      [0x01, 0x02, 0x03, 0x10, 0x11, 0x12, 0x13, 0x20, 0x21, 0x30, 0x31] := by
  decide

/-- A masked field is 0 when the mask does not ask for it or it is 0. -/
theorem and_eq_zero_of_mask {m x : Byte} (hm : m = 0 ∨ m = BitVec.allOnes 8) :
    x &&& m = 0 ↔ m = 0 ∨ x = 0 := by
  rcases hm with rfl | rfl
  · simp
  · rw [BitVec.and_allOnes, or_iff_right (by decide)]

/-- A row selects the words of its opcode whose other fields are 0, but for those its format uses. -/
theorem OpcodeRow.selects_iff {r : OpcodeRow} (hr : r ∈ opcodeRows) (w : Word) :
    r.selects w = true ↔ fieldReserved w = 0 ∧ (fieldP r.mask = 0 ∨ fieldP w = 0) ∧
      (fieldS r.mask = 0 ∨ fieldS w = 0) ∧ fieldOP w = fieldOP r.pattern := by
  obtain ⟨hmaskR, hpatR⟩ := opcodeRows_reserved r hr
  obtain ⟨hpatP, hpatS⟩ := opcodeRows_pattern r hr
  obtain ⟨hmaskP, hmaskS⟩ := opcodeRows_mask r hr
  rw [← and_eq_zero_of_mask hmaskP, ← and_eq_zero_of_mask hmaskS, OpcodeRow.selects, beq_iff_eq]
  constructor
  · intro h
    refine ⟨OpcodeRow.reserved_of_selects hr (beq_iff_eq.2 h), ?_, ?_,
      OpcodeRow.fieldOP_of_selects hr (beq_iff_eq.2 h)⟩
    · rw [← fieldP_and, h, hpatP]
    · rw [← fieldS_and, h, hpatS]
  · rintro ⟨hR, hP, hS, hO⟩
    refine eq_of_fields ?_ ?_ ?_ ?_
    · rw [fieldReserved_and, hmaskR, BitVec.and_allOnes, hR, hpatR]
    · rw [fieldP_and, hP, hpatP]
    · rw [fieldS_and, hS, hpatS]
    · rw [fieldOP_and, opcodeRows_fieldOP_mask r hr, BitVec.and_allOnes, hO]

/-! ## The decoder's answers -/

theorem exists_row_of_decode {w : Word} {i : Instr} (h : decode w = .ok i) :
    ∃ r ∈ opcodeRows, r.selects w = true ∧ i = r.build (fieldP w).toNat (fieldS w).toNat := by
  unfold decode at h
  split at h
  next r hfind =>
    exact ⟨r, List.mem_of_find?_eq_some hfind, List.find?_some (p := (OpcodeRow.selects · w)) hfind,
      (Except.ok.inj h).symm⟩
  next => cases h

theorem decode_error_iff {w : Word} : (∃ e, decode w = .error e) ↔ ∀ r ∈ opcodeRows, r.selects w ≠ true := by
  constructor
  · rintro ⟨e, he⟩ r hr hsel
    rw [decode_of_selects hr hsel] at he
    cases he
  · intro hnone
    refine ⟨rejection w, ?_⟩
    rw [decode, List.find?_eq_none.2 hnone]

/-! ## The row of a command -/

/-- The word of a well-formed command holds the command's fields and no other bit. -/
theorem encode_fields (i : Instr) : Statement i := by
  cases i with
  | pow32 index => exact Laws.EncodeFields.pow32 index
  | pow64 index => exact Laws.EncodeFields.pow64 index
  | pow128 index => exact Laws.EncodeFields.pow128 index
  | add => exact Laws.EncodeFields.add
  | neg => exact Laws.EncodeFields.neg
  | muls => exact Laws.EncodeFields.muls
  | mul => exact Laws.EncodeFields.mul
  | dec32 precision scale => exact Laws.EncodeFields.dec32 precision scale
  | dec128 precision scale => exact Laws.EncodeFields.dec128 precision scale
  | enc32 scale => exact Laws.EncodeFields.enc32 scale
  | enc128 scale => exact Laws.EncodeFields.enc128 scale

/-- `r` is the row of command `i`: it has the command's opcode, builds the command from its fields, and uses
each field that is not 0. -/
structure IsRowOf (r : OpcodeRow) (i : Instr) : Prop where
  opcode : (fieldOP r.pattern).toNat = opcodeOf i
  build : r.build (precisionOf i) (scaleOf i) = i
  usesP : fieldP r.mask = 0 ∨ precisionOf i = 0
  usesS : fieldS r.mask = 0 ∨ scaleOf i = 0

/-- Every command has a row (`30_encoding.md` R95). -/
theorem exists_row (i : Instr) : ∃ r ∈ opcodeRows, IsRowOf r i := by
  cases i with
  | pow32 => exact ⟨opcodeRows[0], List.getElem_mem _, rfl, rfl, .inr rfl, .inl rfl⟩
  | pow64 => exact ⟨opcodeRows[1], List.getElem_mem _, rfl, rfl, .inr rfl, .inl rfl⟩
  | pow128 => exact ⟨opcodeRows[2], List.getElem_mem _, rfl, rfl, .inr rfl, .inl rfl⟩
  | add => exact ⟨opcodeRows[3], List.getElem_mem _, rfl, rfl, .inr rfl, .inr rfl⟩
  | neg => exact ⟨opcodeRows[4], List.getElem_mem _, rfl, rfl, .inr rfl, .inr rfl⟩
  | muls => exact ⟨opcodeRows[5], List.getElem_mem _, rfl, rfl, .inr rfl, .inr rfl⟩
  | mul => exact ⟨opcodeRows[6], List.getElem_mem _, rfl, rfl, .inr rfl, .inr rfl⟩
  | dec32 => exact ⟨opcodeRows[7], List.getElem_mem _, rfl, rfl, .inl rfl, .inl rfl⟩
  | dec128 => exact ⟨opcodeRows[8], List.getElem_mem _, rfl, rfl, .inl rfl, .inl rfl⟩
  | enc32 => exact ⟨opcodeRows[9], List.getElem_mem _, rfl, rfl, .inr rfl, .inl rfl⟩
  | enc128 => exact ⟨opcodeRows[10], List.getElem_mem _, rfl, rfl, .inr rfl, .inl rfl⟩

/-- The row of a command selects the command's word. -/
theorem IsRowOf.selects_encode {r : OpcodeRow} {i : Instr} (h : IsRowOf r i) (hr : r ∈ opcodeRows)
    (hi : i.wellFormed = true) : r.selects (encode i) = true := by
  obtain ⟨hop, hs, hp, hreserved⟩ := encode_fields i hi
  refine (OpcodeRow.selects_iff hr _).2
    ⟨hreserved, h.usesP.imp_right fun h0 => ?_, h.usesS.imp_right fun h0 => ?_, ?_⟩
  · exact BitVec.eq_of_toNat_eq (hp.trans h0)
  · exact BitVec.eq_of_toNat_eq (hs.trans h0)
  · exact BitVec.eq_of_toNat_eq (hop.trans h.opcode.symm)

/-- A command that a row builds from two bytes is well formed. -/
theorem opcodeRows_build_wellFormed :
    ∀ r ∈ opcodeRows, ∀ p s : Nat, p < 256 → s < 256 → (r.build p s).wellFormed = true := by
  simp +contextual [opcodeRows, Instr.wellFormed, fitsField]

/-- A command that a row builds has the row's opcode, and the fields that the row's format uses. -/
theorem opcodeRows_build_fields :
    ∀ r ∈ opcodeRows, ∀ p s : Nat, opcodeOf (r.build p s) = (fieldOP r.pattern).toNat ∧
      (precisionOf (r.build p s) = if fieldP r.mask = 0 then p else 0) ∧
      scaleOf (r.build p s) = if fieldS r.mask = 0 then s else 0 := by
  intro r hr p s
  simp only [opcodeRows, List.mem_cons, List.not_mem_nil, or_false] at hr
  rcases hr with rfl | rfl | rfl | rfl | rfl | rfl | rfl | rfl | rfl | rfl | rfl <;> exact ⟨rfl, rfl, rfl⟩

end Sys2Proof
end

section
/-! The statements on the encoding of commands (`30_encoding.md`). -/

namespace Sys2Proof

open Sys2Proof.Spec Sys2Proof.Laws.EncodeFields

/-- Settles O1: the row of the command selects its word, and builds the command from the fields that the
word holds. -/
theorem decodeOfEncodedCommandIsTheCommand : Obligations.DecodeOfEncodedCommandIsTheCommand := by
  intro i hi
  obtain ⟨r, hr, hrow⟩ := exists_row i
  obtain ⟨-, hs, hp, -⟩ := encode_fields i hi
  rw [decode_of_selects hr (hrow.selects_encode hr hi), hp, hs, hrow.build]

/-- Settles O2: the row that selects the word builds a command with the word's own fields, and the fields
determine the word. -/
theorem encodeOfDecodedWordIsTheWord : Obligations.EncodeOfDecodedWordIsTheWord := by
  intro w i h
  obtain ⟨r, hr, hsel, rfl⟩ := exists_row_of_decode h
  obtain ⟨hreserved, hP, hS, hop⟩ := (OpcodeRow.selects_iff hr w).1 hsel
  have hwf := opcodeRows_build_wellFormed r hr _ _ (fieldP w).isLt (fieldS w).isLt
  obtain ⟨hopE, hsE, hpE, hreservedE⟩ := encode_fields _ hwf
  obtain ⟨hopB, hpB, hsB⟩ := opcodeRows_build_fields r hr (fieldP w).toNat (fieldS w).toNat
  refine ⟨hwf, eq_of_fields (hreservedE.trans hreserved.symm) (BitVec.eq_of_toNat_eq ?_)
    (BitVec.eq_of_toNat_eq ?_) (BitVec.eq_of_toNat_eq ?_)⟩
  · rw [hpE, hpB]
    split
    next => rfl
    next hused => rw [hP.resolve_left hused]; rfl
  · rw [hsE, hsB]
    split
    next => rfl
    next hused => rw [hS.resolve_left hused]; rfl
  · rw [hopE, hopB, hop]

/-- Settles O3: an assigned opcode has a row, and the row selects the word unless a bit that must be 0 is
set. -/
theorem decoderRejectsExactlyTheIllegalWords : Obligations.DecoderRejectsExactlyTheIllegalWords := by
  intro w
  have hfield : ∀ {x : Byte}, x = 0 ↔ x.toNat = 0 := fun {x} => BitVec.toNat_inj.symm
  have hreserved : fieldReserved w = 0 ↔ w.toNat / 2 ^ 24 = 0 := by
    rw [← toNat_fieldReserved]
    exact BitVec.toNat_inj.symm
  rw [decode_error_iff, IllegalWord, opOf, pOf, sOf, ← toNat_fieldOP, ← toNat_fieldP, ← toNat_fieldS,
    ← opcodeRows_opcodes]
  constructor
  · intro hnone
    by_contra hlegal
    simp only [not_or, not_and, Decidable.not_not] at hlegal
    obtain ⟨hop, hR, hP, hS⟩ := hlegal
    obtain ⟨r, hr, hopr⟩ := List.mem_map.1 hop
    obtain ⟨hformP, hformS⟩ := opcodeRows_formats r hr
    rw [hopr] at hformP hformS
    refine hnone r hr ((OpcodeRow.selects_iff hr w).2 ⟨hreserved.2 (by simpa using hR), ?_, ?_, ?_⟩)
    · rw [hformP, hfield]
      exact or_iff_not_imp_right.2 hP
    · rw [hformS, hfield]
      exact or_iff_not_imp_right.2 hS
    · exact BitVec.eq_of_toNat_eq hopr.symm
  · intro hillegal r hr hsel
    obtain ⟨hR, hP, hS, hop⟩ := (OpcodeRow.selects_iff hr w).1 hsel
    obtain ⟨hformP, hformS⟩ := opcodeRows_formats r hr
    rw [← hop] at hformP hformS
    rw [hformP, hfield] at hP
    rw [hformS, hfield] at hS
    rcases hillegal with hunassigned | hbits | ⟨hPset, hformat⟩ | ⟨hSset, hformat⟩
    · exact hunassigned (List.mem_map.2 ⟨r, hr, by rw [hop]⟩)
    · exact hbits (hreserved.1 hR)
    · exact hPset (hP.resolve_left hformat)
    · exact hSset (hS.resolve_left fun hnot => hnot hformat)

end Sys2Proof
end

section
/-! SUPPORT. Turns and completions: every step takes one turn off the schedule, a completion is a function of the
command, the operands and the text alone, and what a completion may change (`10_state.md` R47). -/

namespace Sys2Proof.Machine

open Sys2Proof.Spec

/-! ## One turn -/

theorem step_host {s : State} {x : BusAccess} {rest : List Turn} (h : s.schedule = .host x :: rest) :
    step s = .next ((s.withSchedule rest).busAccess x) :=
  step_cons h

theorem step_resetPin {s : State} {level : Bool} {rest : List Turn} (h : s.schedule = .resetPin level :: rest) :
    step s = .next ((s.withSchedule rest).drivePin level) :=
  step_cons h

theorem step_engine {s : State} {rest : List Turn} (h : s.schedule = .engine :: rest) :
    step s = engineTurn (s.withSchedule rest) :=
  step_cons h

theorem engineTurn_busy {s : State} (h : s.status.busy = true) : engineTurn s = complete s := if_pos h

theorem engineTurn_idle {s : State} (h : s.status.busy = false) : engineTurn s = .next s := if_neg (by simp [h])

/-- The engine's turn of a busy block is the completion, whether it stands in the schedule or not. -/
theorem step_nil_busy {s : State} (h : s.schedule = []) (hbusy : s.status.busy = true) : step s = complete s := by
  rw [step_nil h, engineTurn_busy hbusy]

theorem step_engine_busy {s : State} {rest : List Turn} (h : s.schedule = .engine :: rest)
    (hbusy : s.status.busy = true) : step s = complete (s.withSchedule rest) := by
  rw [step_engine h, engineTurn_busy (s := s.withSchedule rest) hbusy]

/-- A write changes neither the turns to come nor the level of `rst_n`. -/
theorem State.hostWrite_frame (s : State) (off : BitVec 16) (size : AccessSize) (v : Word) :
    (s.hostWrite off size v).schedule = s.schedule ∧ (s.hostWrite off size v).rstN = s.rstN := by
  unfold State.hostWrite
  split
  · exact ⟨rfl, rfl⟩
  next x _ =>
    split
    · exact ⟨rfl, rfl⟩
    · cases x <;> exact ⟨rfl, rfl⟩
  · split <;> exact ⟨rfl, rfl⟩

@[simp] theorem State.busAccess_schedule (s : State) (x : BusAccess) :
    (s.busAccess x).schedule = s.schedule := by
  unfold State.busAccess
  split
  · cases x with
    | read off size =>
      obtain ⟨y, n, h⟩ := s.hostRead_cases off size
      simp only [h]
    | write off size v => exact (s.hostWrite_frame off size v).1
  · rfl

@[simp] theorem State.drivePin_schedule (s : State) (level : Bool) : (s.drivePin level).schedule = s.schedule := by
  cases level <;> rfl

/-- A step always goes on, and takes the next turn off the schedule. -/
theorem step_next (s : State) : ∃ t, step s = .next t ∧ t.schedule = s.schedule.tail := by
  match h : s.schedule with
  | [] =>
    obtain ⟨t, ht, -, hsched⟩ := engineTurn_next s
    exact ⟨t, by rw [step_nil h, ht], by rw [hsched, h, List.tail_nil]⟩
  | .host x :: rest => exact ⟨_, step_host h, by simp⟩
  | .resetPin level :: rest => exact ⟨_, step_resetPin h, by simp⟩
  | .engine :: rest =>
    obtain ⟨t, ht, -, hsched⟩ := engineTurn_next (s.withSchedule rest)
    exact ⟨t, by rw [step_engine h, ht], hsched⟩

/-- A run of one step is the step. -/
theorem core_run_one (s : State) : Host.Core.run Sys2Proof.core 1 s = step s := by
  obtain ⟨t, ht, -⟩ := step_next s
  rw [core_run_succ 0 ht, ht]
  rfl

/-! ## The completion of a word -/

/-- A word that no row selects completes with `IllegalCommand` (`60_exceptions.md` R216). -/
theorem complete_of_illegalWord {s : State} (h : IllegalWord s.cmd) : complete s = .next (faulted s 8 0 0 0) := by
  obtain ⟨e, he⟩ := (decoderRejectsExactlyTheIllegalWords s.cmd).2 h
  exact complete_error he

/-- What a completion may change: `R`, `ERR` and `ERRINFO`, with the text as it was; or, by an ENC command that
succeeds, the text, with `R` as it was (`10_state.md` section 9). -/
theorem complete_cases {s t : State} (h : complete s = .next t) :
    (∃ r err info, t = { s with r := r, status := ⟨false, true, s.status.werr, err⟩, errInfo := info }) ∨
    ∃ (m : Memory) (n scale : Nat), m.wf s.cfg.lmax ∧ t = s.deliverText m n ∧
      (decode s.cmd = .ok (.enc32 scale) ∨ decode s.cmd = .ok (.enc128 scale)) := by
  match hdecode : decode s.cmd with
  | .error e =>
    rw [complete_error hdecode] at h
    cases h
    exact .inl ⟨_, _, _, rfl⟩
  | .ok i =>
    rw [complete_ok hdecode] at h
    rcases exec_cases i s with ⟨r, hr⟩ | ⟨w, scale, text, m, hi, -, -, hm, hr⟩ | ⟨e, hr⟩
    · cases hr.symm.trans h
      exact .inl ⟨_, _, _, rfl⟩
    · cases hr.symm.trans h
      refine .inr ⟨m, text.length, scale, hm, rfl, ?_⟩
      exact hi.imp (fun hi => by rw [hi.2]) (fun hi => by rw [hi.2])
    · cases hr.symm.trans h
      exact .inl ⟨_, _, _, rfl⟩

/-! ## A completion does not see the rest of the state -/

/-- The command of `s`, its operands, its text and its destination, in the surroundings of `c`: flags, the
port, the pin and the turns to come. -/
def State.inContext (s c : State) : State :=
  { c with a := s.a, b := s.b, k := s.k, r := s.r, cmd := s.cmd, tlen := s.tlen, tbuf := s.tbuf, cfg := s.cfg }

/-- The engine's read of a byte sees TBUF and LMAX only. -/
theorem State.readText_inContext (s c : State) (count i : Nat) :
    (s.inContext c).readText count i = s.readText count i := by
  induction count generalizing i with
  | zero => rfl
  | succ n ih =>
    have hbyte : (s.inContext c).memRead i = s.memRead i := rfl
    rw [State.readText, State.readText, hbyte, ih]

theorem powCommand_inContext (bank : RomBank) (index : Nat) (s c : State) :
    powCommand bank index (s.inContext c) = (powCommand bank index s).map (·.inContext c) := by
  unfold powCommand
  split
  · rfl
  · split <;> rfl

theorem decCommand_inContext (w : CodecWidth) (precision scale : Nat) (s c : State) :
    decCommand w precision scale (s.inContext c) = (decCommand w precision scale s).map (·.inContext c) := by
  have htext : (s.inContext c).readText (s.inContext c).tlen.toNat 0 = s.readText s.tlen.toNat 0 :=
    s.readText_inContext c _ _
  unfold decCommand
  rw [htext]
  have hdomain :
      (precision < scale ∨ w.pmax < precision ∨ (s.inContext c).cfg.lmax < (s.inContext c).tlen.toNat) ↔
        (precision < scale ∨ w.pmax < precision ∨ s.cfg.lmax < s.tlen.toNat) := Iff.rfl
  simp only [hdomain]
  split
  · rfl
  · split
    · rfl
    · split <;> rfl

theorem encCommand_inContext (w : CodecWidth) (scale : Nat) (s c : State) :
    encCommand w scale (s.inContext c) = (encCommand w scale s).map (·.inContext c) := by
  have hoperand : w.operand (s.inContext c).a = w.operand s.a := rfl
  have hwrite : ∀ text, (s.inContext c).writeText text = (s.writeText text).map (·.inContext c) := by
    intro text
    have hemit : Memory.emit (s.inContext c).cfg.lmax (s.inContext c).tbuf.redraw 0 text =
        Memory.emit s.cfg.lmax s.tbuf.redraw 0 text := rfl
    rw [State.writeText, State.writeText, hemit]
    split <;> rfl
  unfold encCommand
  rw [hoperand]
  split
  · rfl
  · split
    · rfl
    · exact hwrite _

/-- Every command is an evaluation, which does not see the context, and its end. -/
theorem exec_eq_finish (i : Instr) :
    ∃ f : State → Except Stop State, (∀ s, exec i s = s.finish (f s)) ∧
      ∀ s c, f (s.inContext c) = (f s).map (·.inContext c) := by
  cases i with
  | pow32 index => exact ⟨powCommand .w32 index, exec_pow32 index, powCommand_inContext .w32 index⟩
  | pow64 index => exact ⟨powCommand .w64 index, exec_pow64 index, powCommand_inContext .w64 index⟩
  | pow128 index => exact ⟨powCommand .w128 index, exec_pow128 index, powCommand_inContext .w128 index⟩
  | add => exact ⟨fun s => .ok (s.setR (dwAdd s.a s.b)), fun _ => rfl, fun _ _ => rfl⟩
  | neg => exact ⟨fun s => .ok (s.setR (dwNeg s.a)), fun _ => rfl, fun _ _ => rfl⟩
  | muls => exact ⟨fun s => .ok (s.setR (dwMulSmall s.a s.k)), fun _ => rfl, fun _ _ => rfl⟩
  | mul => exact ⟨fun s => .ok (s.setR (dwMul s.a s.b)), fun _ => rfl, fun _ _ => rfl⟩
  | dec32 precision scale =>
    exact ⟨decCommand .w32 precision scale, exec_dec32 precision scale, decCommand_inContext .w32 precision scale⟩
  | dec128 precision scale =>
    exact ⟨decCommand .w128 precision scale, exec_dec128 precision scale,
      decCommand_inContext .w128 precision scale⟩
  | enc32 scale => exact ⟨encCommand .w32 scale, exec_enc32 scale, encCommand_inContext .w32 scale⟩
  | enc128 scale => exact ⟨encCommand .w128 scale, exec_enc128 scale, encCommand_inContext .w128 scale⟩

/-- Two states after a completion that differ in their contexts only. -/
structure SameCompletion (t u : State) : Prop where
  r : t.r = u.r
  err : t.status.err = u.status.err
  errInfo : t.errInfo = u.errInfo
  tlen : t.tlen = u.tlen
  tbuf : t.tbuf = u.tbuf
  a : t.a = u.a
  b : t.b = u.b
  k : t.k = u.k
  cmd : t.cmd = u.cmd

theorem finish_inContext {s u : State} {x : Except Stop State} (c : State) (h : s.finish x = .next u) :
    ∃ t, (s.inContext c).finish (x.map (·.inContext c)) = .next t ∧ SameCompletion t u := by
  rcases State.finish_next h with ⟨v, rfl, rfl⟩ | ⟨e, rfl, rfl⟩
  · exact ⟨_, rfl, by constructor <;> rfl⟩
  · exact ⟨_, rfl, by constructor <;> rfl⟩

/-- A completion gives the same results in every context. -/
theorem complete_inContext {s u : State} (c : State) (h : complete s = .next u) :
    ∃ t, complete (s.inContext c) = .next t ∧ SameCompletion t u := by
  match hdecode : decode s.cmd with
  | .error e =>
    rw [complete_error hdecode] at h
    cases h
    exact ⟨_, complete_error (s := s.inContext c) hdecode, by constructor <;> rfl⟩
  | .ok i =>
    obtain ⟨f, hexec, hcontext⟩ := exec_eq_finish i
    rw [complete_ok hdecode, hexec] at h
    rw [complete_ok (s := s.inContext c) hdecode, hexec, hcontext]
    exact finish_inContext c h

/-- An access of a busy block changes its context only, and leaves it busy. -/
theorem State.busAccess_inContext {s c : State} (h : c.status.busy = true) (x : BusAccess) :
    ∃ d, (s.inContext c).busAccess x = s.inContext d ∧ d.status.busy = true ∧ d.schedule = c.schedule := by
  obtain ⟨ie, done, werr, y, n, -, hx⟩ := (s.inContext c).busAccess_busy h x
  exact ⟨(s.inContext c).busAccess x, by rw [hx]; rfl, by rw [hx]; exact h, by simp [State.inContext]⟩

/-- Accesses of the host before the engine's turn leave the completion's results as they are. -/
theorem run_hostAccesses_inContext {s u : State} (h : complete s = .next u) (accesses : List BusAccess)
    (rest : List Turn) {c : State} (hbusy : c.status.busy = true)
    (hsched : c.schedule = accesses.map .host ++ .engine :: rest) :
    ∃ t, Host.Core.run Sys2Proof.core (accesses.length + 1) (s.inContext c) = .next t ∧ SameCompletion t u ∧
      t.status.busy = false ∧ t.status.done = true ∧ t.schedule = rest := by
  induction accesses generalizing c with
  | nil =>
    obtain ⟨t, ht, hsame⟩ := complete_inContext (c.withSchedule rest) h
    have hstep : step (s.inContext c) = .next t := (step_engine_busy (s := s.inContext c) hsched hbusy).trans ht
    obtain ⟨t', ht', hidle, hdone, hrest⟩ := complete_next (s.inContext (c.withSchedule rest))
    cases ht.symm.trans ht'
    exact ⟨t, (core_run_one _).trans hstep, hsame, hidle, hdone, hrest⟩
  | cons x accesses ih =>
    obtain ⟨d, hd, hdbusy, hdsched⟩ :=
      State.busAccess_inContext (s := s) (c := c.withSchedule (accesses.map .host ++ .engine :: rest)) hbusy x
    obtain ⟨t, hrun, hdone⟩ := ih hdbusy hdsched
    refine ⟨t, ?_, hdone⟩
    rw [← hrun, ← hd]
    exact core_run_succ _ (step_host hsched)

/-! ## Runs to the end of the schedule -/

/-- When every turn has been taken and the engine has had one more, the block is idle. -/
theorem run_to_idle (s : State) :
    ∃ t, Host.Core.run Sys2Proof.core (s.schedule.length + 1) s = .next t ∧ t.status.busy = false ∧
      t.schedule = [] := by
  induction hs : s.schedule generalizing s with
  | nil =>
    obtain ⟨t, ht, hidle, hsched⟩ := engineTurn_next s
    exact ⟨t, (core_run_one s).trans ((step_nil hs).trans ht), hidle, hsched.trans hs⟩
  | cons turn rest ih =>
    obtain ⟨t, ht, hsched⟩ := step_next s
    rw [List.length_cons, core_run_succ _ ht]
    exact ih t (by rw [hsched, hs, List.tail_cons])

/-- `s` reaches the completion of its command in at most `n` steps, its word still in `CMD`. -/
def CompletesWithin (s : State) (n : Nat) : Prop :=
  ∃ k t u, k ≤ n ∧ Host.Core.run Sys2Proof.core k s = .next t ∧ t.status.busy = true ∧ t.cmd = s.cmd ∧
    step t = .next u ∧ u.status.busy = false ∧ u.status.done = true

/-- A busy state whose next turn is the engine's completes at once. -/
theorem completesWithin_of_step {s c : State} (hbusy : s.status.busy = true) (h : step s = complete c) (n : Nat) :
    CompletesWithin s n := by
  obtain ⟨u, hu, hidle, hdone, -⟩ := complete_next c
  exact ⟨0, s, u, Nat.zero_le n, rfl, hbusy, rfl, h.trans hu, hidle, hdone⟩

theorem completesWithin_succ {s t : State} {n : Nat} (hstep : step s = .next t) (hcmd : t.cmd = s.cmd)
    (h : CompletesWithin t n) : CompletesWithin s (n + 1) := by
  obtain ⟨k, t', u, hk, hrun, hbusy, hcmd', hrest⟩ := h
  exact ⟨k + 1, t', u, Nat.succ_le_succ hk, (core_run_succ k hstep).trans hrun, hbusy, hcmd'.trans hcmd, hrest⟩

/-- A turn that is not the engine's and does not reset leaves a command in flight. -/
theorem completesWithin_of_busy {s : State} (hbusy : s.status.busy = true)
    (hpin : Turn.resetPin false ∉ s.schedule) : CompletesWithin s s.schedule.length := by
  induction hs : s.schedule generalizing s with
  | nil => exact completesWithin_of_step hbusy (step_nil_busy hs hbusy) _
  | cons turn rest ih =>
    rw [hs, List.mem_cons, not_or] at hpin
    obtain ⟨hturn, hrest⟩ := hpin
    cases turn with
    | engine => exact completesWithin_of_step hbusy (step_engine_busy hs hbusy) _
    | host x =>
      obtain ⟨ie, done, werr, y, n, -, hx⟩ := (s.withSchedule rest).busAccess_busy hbusy x
      have hstep := step_host hs
      rw [hx] at hstep
      exact completesWithin_succ hstep rfl (ih hbusy hrest rfl)
    | resetPin level =>
      cases level with
      | false => exact absurd rfl hturn
      | true => exact completesWithin_succ (step_resetPin hs) rfl (ih hbusy hrest rfl)

end Sys2Proof.Machine
end

section
/-! The statements on the turns of the step and on completions (`10_state.md` section 9,
`70_reset_and_hazards.md` section 3). -/

namespace Sys2Proof.Machine

open Sys2Proof.Spec

/-- Settles O5: one rule for each kind of turn. -/
theorem stepRunsTheDecodedCommand : Obligations.StepRunsTheDecodedCommand := by
  refine fun s => ⟨fun i hbusy hdecode => ⟨fun hs => ?_, fun rest hs => ?_⟩, fun x rest => step_host,
    fun level rest => step_resetPin⟩
  · rw [step_nil_busy hs hbusy, complete_ok hdecode]
  · exact (step_engine_busy hs hbusy).trans (complete_ok (s := s.withSchedule rest) hdecode)

/-- Settles O6: the write of `CMD` is accepted (O41), and the word it stores decodes to the command (O1). -/
theorem hostCommandIsExecuted : Obligations.HostCommandIsExecuted := by
  intro s i hi hr hidle hs
  obtain ⟨haccept, -⟩ := commandWriteWhenIdleIsAccepted
  have hstep := step_host hs
  rw [haccept (s.withSchedule []) (encode i) hr hidle] at hstep
  rw [core_run_succ 1 hstep, core_run_one, step_nil_busy rfl rfl,
    complete_ok (i := i) (decodeOfEncodedCommandIsTheCommand i hi)]
  rfl

/-- Settles O7: an illegal word is rejected by the decoder (O3), and the engine's turn of a busy block is its
completion. -/
theorem illegalWordCompletesWithIllegalCommand : Obligations.IllegalWordCompletesWithIllegalCommand := by
  refine fun s hw => ⟨complete_of_illegalWord hw, fun hbusy hs => ?_, fun rest hbusy hs => ?_⟩
  · rw [step_nil_busy hs hbusy, complete_of_illegalWord hw]
  · exact (step_engine_busy hs hbusy).trans (complete_of_illegalWord (s := s.withSchedule rest) hw)

/-- Settles O8: the engine's turn of an idle block changes nothing. -/
theorem idleBlockKeepsAllItsState : Obligations.IdleBlockKeepsAllItsState := by
  refine fun s hidle => ⟨fun hs => ?_, fun rest hs => ?_⟩
  · rw [step_nil hs, engineTurn_idle hidle]
  · rw [step_engine hs, engineTurn_idle (s := s.withSchedule rest) hidle]
    rfl

/-- Settles O53: `step_next` without the schedule. -/
theorem everyStepGoesOn : Obligations.EveryStepGoesOn := by
  intro s
  obtain ⟨t, ht, -⟩ := step_next s
  exact ⟨t, ht⟩

/-- Settles O54: the schedule grows shorter with every step, and until the engine's turn nothing but reset
clears `BUSY`. -/
theorem everyCommandCompletes : Obligations.EveryCommandCompletes :=
  ⟨run_to_idle, fun _ hbusy hpin => completesWithin_of_busy hbusy hpin⟩

/-- Settles O55: an access of a busy block and the release of `rst_n` leave it busy. -/
theorem busyClearsOnlyByCompletionOrReset : Obligations.BusyClearsOnlyByCompletionOrReset := by
  intro s t h hbusy hidle
  match hs : s.schedule with
  | [] =>
    rw [step_nil_busy hs hbusy] at h
    exact .inl ⟨rfl, h⟩
  | .engine :: rest =>
    rw [step_engine_busy hs hbusy] at h
    exact .inr (.inl ⟨rest, rfl, h⟩)
  | .resetPin false :: rest => exact .inr (.inr ⟨rest, rfl⟩)
  | .resetPin true :: rest =>
    rw [step_resetPin hs] at h
    cases h
    exact absurd (hbusy.symm.trans hidle) (by decide)
  | .host x :: rest =>
    obtain ⟨ie, done, werr, y, n, -, hx⟩ := (s.withSchedule rest).busAccess_busy hbusy x
    rw [step_host hs, hx] at h
    cases h
    exact absurd (hbusy.symm.trans hidle) (by decide)

/-- Settles O56: the two cases of a completion. -/
theorem completionKeepsOperands : Obligations.CompletionKeepsOperands := by
  intro s t h
  rcases complete_cases h with ⟨r, err, info, rfl⟩ | ⟨m, n, scale, -, rfl, hi⟩
  · exact ⟨rfl, .inl ⟨rfl, rfl⟩⟩
  · exact ⟨rfl, .inr ⟨rfl, rfl, scale, hi⟩⟩

/-- Settles O57: the accesses change the context of the command only. -/
theorem hostAccessesWhileBusyDoNotDisturbTheCommand :
    Obligations.HostAccessesWhileBusyDoNotDisturbTheCommand := by
  intro s accesses rest hbusy
  obtain ⟨u, hu, -⟩ := complete_next s
  obtain ⟨t, hrun, hsame, hdone⟩ := run_hostAccesses_inContext hu accesses rest
    (c := s.withSchedule (accesses.map .host ++ .engine :: rest)) hbusy rfl
  exact ⟨t, u, hu, hrun, hsame.r, hsame.err, hsame.errInfo, hsame.tlen, hsame.tbuf, hsame.a, hsame.b, hsame.k,
    hsame.cmd, hdone⟩

end Sys2Proof.Machine
end

section
/-! SUPPORT. The invariants of the state, turn by turn: which turns leave the results alone, and what the error of
a completion says of `ERRINFO` (`60_exceptions.md` R210, R215). -/

namespace Sys2Proof.Machine

open Sys2Proof.Spec

/-! ## Turns that leave the results alone -/

/-- `t` has the results, the configuration and the pin of `s`. -/
structure KeepsResults (s t : State) : Prop where
  r : t.r = s.r
  err : t.status.err = s.status.err
  errInfo : t.errInfo = s.errInfo
  cfg : t.cfg = s.cfg
  rstN : t.rstN = s.rstN

/-- The invariants on the results carry over; those on the flags, TBUF and the registers in reset are what is
left to show. -/
theorem State.Inv.of_keepsResults {s t : State} (hs : s.Inv) (h : KeepsResults s t)
    (hbusy : t.status.busy = true → t.status.done = false) (htbuf : t.tbuf.wf t.cfg.lmax)
    (hreset : t.rstN = false → t.RegistersReset) : t.Inv where
  busy_not_done := hbusy
  err_code := by rw [h.err]; exact hs.err_code
  fault_zeroes_r := by rw [h.err, h.r]; exact hs.fault_zeroes_r
  info_zero := by rw [h.err, h.errInfo]; exact hs.info_zero
  info_invalid := by rw [h.err, h.errInfo]; exact hs.info_invalid
  info_integral := by rw [h.err, h.errInfo]; exact hs.info_integral
  info_fraction := by rw [h.err, h.errInfo]; exact hs.info_fraction
  info_pos := by rw [h.errInfo, h.cfg]; exact hs.info_pos
  tbuf_wf := htbuf
  held_in_reset := hreset

/-- A change of the fields that are not the spec's, the pin apart, keeps the invariants. -/
theorem State.Inv.of_ownFields {s : State} (hs : s.Inv) (x : BusAnswer) (n : Nat) (l : List Turn) :
    { s with bus := x, busyReads := n, schedule := l }.Inv :=
  hs.of_keepsResults ⟨rfl, rfl, rfl, rfl, rfl⟩ hs.busy_not_done hs.tbuf_wf fun h =>
    have hregs := hs.held_in_reset h
    ⟨hregs.a, hregs.b, hregs.k, hregs.r, hregs.ie, hregs.status, hregs.cmd, hregs.tlen, hregs.errInfo⟩

theorem State.keepsResults_writeReg (s : State) (x : BusReg) (v : Word) : KeepsResults s (s.writeReg x v) := by
  cases x <;> exact ⟨rfl, rfl, rfl, rfl, rfl⟩

@[simp] theorem State.writeReg_tbuf (s : State) (x : BusReg) (v : Word) : (s.writeReg x v).tbuf = s.tbuf := by
  cases x <;> rfl

/-- Acceptance clears `DONE`, and no other write of a register sets `BUSY` (`10_state.md` R32, R46). -/
theorem State.writeReg_busy_not_done {s : State} (h : s.status.busy = true → s.status.done = false) (x : BusReg)
    (v : Word) (hbusy : (s.writeReg x v).status.busy = true) : (s.writeReg x v).status.done = false := by
  cases x with
  | cmd => rfl
  | status =>
    have hdone : s.status.done = false := h hbusy
    simp [State.writeReg, Status.clearBits, hdone]
  | _ => exact h hbusy

/-- A write keeps the invariants: it stores into a register or into TBUF, or it sets `WERR` alone. -/
theorem State.Inv.hostWrite {s : State} (hs : s.Inv) (hr : s.rstN = true) (off : BitVec 16) (size : AccessSize)
    (v : Word) : (s.hostWrite off size v).Inv := by
  have hlevel : ∀ {t : State}, t.rstN = s.rstN → t.rstN = false → t.RegistersReset := by
    intro t ht hlow
    rw [ht, hr] at hlow
    cases hlow
  have hdropped : (s.flagWriteError.answer .written).Inv :=
    hs.of_keepsResults ⟨rfl, rfl, rfl, rfl, rfl⟩ hs.busy_not_done hs.tbuf_wf (hlevel rfl)
  unfold State.hostWrite
  split
  · exact hs.of_ownFields .error s.busyReads s.schedule
  next x _ =>
    split
    · exact hdropped
    · have hkeeps := s.keepsResults_writeReg x v
      have hstored : (s.writeReg x v).Inv := hs.of_keepsResults hkeeps
        (State.writeReg_busy_not_done hs.busy_not_done x v)
        (by rw [State.writeReg_tbuf, hkeeps.cfg]; exact hs.tbuf_wf) (hlevel hkeeps.rstN)
      exact hstored.of_ownFields .written _ _
  next i htarget =>
    split
    · exact hdropped
    · exact hs.of_keepsResults ⟨rfl, rfl, rfl, rfl, rfl⟩ hs.busy_not_done
        (Memory.wf_writePacked _ _ hs.tbuf_wf (busTarget_text_in_range htarget)) (hlevel rfl)

theorem State.Inv.busAccess {s : State} (hs : s.Inv) (x : BusAccess) : (s.busAccess x).Inv := by
  unfold State.busAccess
  split
  next hr =>
    cases x with
    | read off size =>
      obtain ⟨y, n, h⟩ := s.hostRead_cases off size
      simp only [h]
      exact hs.of_ownFields y n s.schedule
    | write off size v => exact hs.hostWrite hr off size v
  · exact hs.of_ownFields .unanswered s.busyReads s.schedule

/-! ## Reset -/

/-- With the registers reset, everything but TBUF is as the invariants ask. -/
theorem State.RegistersReset.inv {s : State} (h : s.RegistersReset) (htbuf : s.tbuf.wf s.cfg.lmax) : s.Inv where
  busy_not_done := by rw [h.status]; exact fun _ => rfl
  err_code := ⟨.ok, by rw [h.status]; rfl⟩
  fault_zeroes_r := fun _ => h.r
  info_zero := fun _ => h.errInfo
  info_invalid := by rw [h.errInfo]; exact fun _ => ⟨rfl, rfl⟩
  info_integral := by rw [h.status]; exact fun hcode => absurd hcode (by decide)
  info_fraction := by rw [h.status]; exact fun hcode => absurd hcode (by decide)
  info_pos := by
    rw [h.errInfo]
    exact (Nat.zero_lt_succ 47).trans_le s.cfg.lmax_ge
  tbuf_wf := htbuf
  held_in_reset := fun _ => h

theorem State.Inv.drivePin {s : State} (hs : s.Inv) (level : Bool) : (s.drivePin level).Inv := by
  cases level with
  | false => exact (s.registersReset_assertReset).inv (Memory.wf_redraw _ _)
  | true =>
    have hhigh : s.releaseReset.rstN ≠ false := by simp
    exact { hs with held_in_reset := fun hlow => absurd hlow hhigh }

/-! ## Completions -/

/-- What the fault of a completion says of its code and of the three numbers that `ERRINFO` records, by the rows
of `60_exceptions.md` R215. -/
structure FaultRow (s : State) (code : BitVec 4) (pos ord lim : Nat) : Prop where
  err_code : ∃ c : ErrCode, code = c.code
  info_zero : code = 0 ∨ code = 1 ∨ code = 8 ∨ code = 9 → pos = 0 ∧ ord = 0 ∧ lim = 0
  info_invalid : code = 2 → ord = 0 ∧ lim = 0
  info_integral : code = 3 → ord = lim + 1
  info_fraction : code = 4 → lim < ord
  pos_lt : pos < s.cfg.lmax
  ord_lt : ord < 2 ^ 16
  lim_lt : lim < 2 ^ 8

/-- The rows without information. -/
theorem faultRow_zero (s : State) {c : ErrCode} (h3 : c.code ≠ 3) (h4 : c.code ≠ 4) :
    FaultRow s c.code 0 0 0 where
  err_code := ⟨c, rfl⟩
  info_zero := fun _ => ⟨rfl, rfl, rfl⟩
  info_invalid := fun _ => ⟨rfl, rfl⟩
  info_integral := fun h => absurd h h3
  info_fraction := fun h => absurd h h4
  pos_lt := (Nat.zero_lt_succ 47).trans_le s.cfg.lmax_ge
  ord_lt := by decide
  lim_lt := by decide

/-- The faults of a text, for a command in its domain: the numbers fit their fields because a scale is at most 38
and a text at most LMAX long. -/
theorem TextFault.exists_faultRow {s t : State} {precision scale : Nat} (h : TextFault s precision scale t)
    (hscale : scale ≤ precision) (hprecision : precision ≤ 38) (hlen : s.tlen.toNat ≤ s.cfg.lmax) :
    ∃ code pos ord lim, t = faulted s code pos ord lim ∧ FaultRow s code pos ord lim := by
  have hlmax := s.cfg.lmax_le
  cases h with
  | emptyInput => exact ⟨1, 0, 0, 0, rfl, faultRow_zero s (c := .emptyInput) (by decide) (by decide)⟩
  | @invalidCharacter pos _ hstray =>
    obtain ⟨c, hc, -⟩ := hstray
    have hpos := lt_tlen_of_getElem? hc
    exact ⟨2, pos, 0, 0, rfl, {
      err_code := ⟨.invalidCharacter, rfl⟩
      info_zero := fun h => absurd h (by decide)
      info_invalid := fun _ => ⟨rfl, rfl⟩
      info_integral := fun h => absurd h (by decide)
      info_fraction := fun h => absurd h (by decide)
      pos_lt := by omega
      ord_lt := by decide
      lim_lt := by decide }⟩
  | @integralOverflow pos _ hbudget =>
    obtain ⟨c, hc, -⟩ := hbudget
    have hpos := lt_tlen_of_getElem? hc
    exact ⟨3, pos, _, _, rfl, {
      err_code := ⟨.integralOverflow, rfl⟩
      info_zero := fun h => absurd h (by decide)
      info_invalid := fun h => absurd h (by decide)
      info_integral := fun _ => rfl
      info_fraction := fun h => absurd h (by decide)
      pos_lt := by omega
      ord_lt := by omega
      lim_lt := by omega }⟩
  | @fractionOverflow pos _ hbeyond =>
    obtain ⟨c, hc, -, -, -, hover⟩ := hbeyond
    have hpos := lt_tlen_of_getElem? hc
    exact ⟨4, pos, _, _, rfl, {
      err_code := ⟨.fractionOverflow, rfl⟩
      info_zero := fun h => absurd h (by decide)
      info_invalid := fun h => absurd h (by decide)
      info_integral := fun h => absurd h (by decide)
      info_fraction := fun _ => hover
      pos_lt := by omega
      ord_lt := by omega
      lim_lt := by omega }⟩

/-- The domain of a DEC command, whichever it is. -/
theorem bounds_of_inDomain {s : State} {i : Instr} {precision scale : Nat} (hi : isDec i precision scale)
    (hdom : ¬ OutOfDomain i s) : scale ≤ precision ∧ precision ≤ 38 ∧ s.tlen.toNat ≤ s.cfg.lmax := by
  obtain ⟨w, -, hout⟩ := exists_width_of_isDec hi s
  have hmax : w.pmax ≤ 38 := by cases w <;> decide
  rw [hout] at hdom
  omega

/-- Every completion is a success, or a fault with its row. -/
theorem complete_rows {s t : State} (h : complete s = .next t) :
    CompletedOk t ∨ ∃ code pos ord lim, t = faulted s code pos ord lim ∧ FaultRow s code pos ord lim := by
  match hdecode : decode s.cmd with
  | .error e =>
    rw [complete_error hdecode] at h
    cases h
    exact .inr ⟨8, 0, 0, 0, rfl, faultRow_zero s (c := .illegalCommand) (by decide) (by decide)⟩
  | .ok i =>
    rw [complete_ok hdecode] at h
    by_cases hdom : OutOfDomain i s
    · rw [exec_of_outOfDomain hdom] at h
      cases h
      exact .inr ⟨9, 0, 0, 0, rfl, faultRow_zero s (c := .paramFault) (by decide) (by decide)⟩
    rcases exec_of_inDomain hdom h with hok | ⟨precision, scale, hi, hfault⟩
    · exact .inl hok
    · obtain ⟨hscale, hprecision, hlen⟩ := bounds_of_inDomain hi hdom
      exact .inr (hfault.exists_faultRow hscale hprecision hlen)

theorem State.Inv.faulted {s : State} (hs : s.Inv) (hr : s.rstN = true) {code : BitVec 4} {pos ord lim : Nat}
    (h : FaultRow s code pos ord lim) : (faulted s code pos ord lim).Inv where
  busy_not_done := fun hbusy => Bool.noConfusion hbusy
  err_code := h.err_code
  fault_zeroes_r := fun _ => rfl
  info_zero := fun hcode => by
    obtain ⟨rfl, rfl, rfl⟩ := h.info_zero hcode
    rfl
  info_invalid := fun hcode => by
    obtain ⟨rfl, rfl⟩ := h.info_invalid hcode
    exact ⟨rfl, rfl⟩
  info_integral := fun hcode => by
    have hrow := h.info_integral hcode
    have hlim := h.lim_lt
    simp only [Spec.faulted, BitVec.toNat_ofNat]
    omega
  info_fraction := fun hcode => by
    have hrow := h.info_fraction hcode
    have hord := h.ord_lt
    have hlim := h.lim_lt
    simp only [Spec.faulted, BitVec.toNat_ofNat]
    omega
  info_pos := by
    simp only [Spec.faulted, BitVec.toNat_ofNat]
    exact (Nat.mod_le _ _).trans_lt h.pos_lt
  tbuf_wf := hs.tbuf_wf
  held_in_reset := fun hlow => absurd (hr.symm.trans hlow) (by decide)

/-- What a completion leaves as it is, of what the invariants speak of. -/
theorem complete_frame {s t : State} (hwf : s.tbuf.wf s.cfg.lmax) (h : complete s = .next t) :
    t.status.busy = false ∧ t.cfg = s.cfg ∧ t.rstN = s.rstN ∧ t.tbuf.wf t.cfg.lmax := by
  rcases complete_cases h with ⟨r, err, info, rfl⟩ | ⟨m, n, scale, hm, rfl, -⟩
  · exact ⟨rfl, rfl, rfl, hwf⟩
  · exact ⟨rfl, rfl, rfl, hm⟩

/-- A completion keeps the invariants. It happens out of reset, because the registers in reset are those of an
idle block. -/
theorem State.Inv.complete {s t : State} (hs : s.Inv) (hr : s.rstN = true) (h : complete s = .next t) :
    t.Inv := by
  rcases complete_rows h with ⟨herr, hinfo⟩ | ⟨code, pos, ord, lim, rfl, hrow⟩
  · obtain ⟨hidle, -, hpin, htbuf⟩ := complete_frame hs.tbuf_wf h
    exact {
      busy_not_done := fun hbusy => absurd (hidle.symm.trans hbusy) (by decide)
      err_code := ⟨.ok, herr⟩
      fault_zeroes_r := fun hfault => absurd herr hfault
      info_zero := fun _ => hinfo
      info_invalid := fun hcode => absurd (herr.symm.trans hcode) (by decide)
      info_integral := fun hcode => absurd (herr.symm.trans hcode) (by decide)
      info_fraction := fun hcode => absurd (herr.symm.trans hcode) (by decide)
      info_pos := by
        rw [hinfo]
        exact (Nat.zero_lt_succ 47).trans_le t.cfg.lmax_ge
      tbuf_wf := htbuf
      held_in_reset := fun hlow => absurd ((hpin.trans hr).symm.trans hlow) (by decide) }
  · exact hs.faulted hr hrow

theorem State.Inv.engineTurn {s t : State} (hs : s.Inv) (h : engineTurn s = .next t) : t.Inv := by
  cases hbusy : s.status.busy with
  | false =>
    rw [engineTurn_idle hbusy] at h
    cases h
    exact hs
  | true =>
    rw [engineTurn_busy hbusy] at h
    have hr : s.rstN = true := by
      by_contra hlow
      have hregs := hs.held_in_reset (by simpa using hlow)
      rw [hregs.status] at hbusy
      cases hbusy
    exact hs.complete hr h

end Sys2Proof.Machine
end

section
/-! The statements on the invariants of the state. -/

namespace Sys2Proof.Machine

/-- Settles O51: the registers are reset and TBUF lists no byte. -/
theorem invariantsHoldAtReset : Obligations.InvariantsHoldAtReset :=
  State.registersReset_reset.inv reset_tbuf_wf

/-- Settles O52: taking the turn off the schedule keeps the invariants, and so does each kind of turn. -/
theorem everyStepKeepsTheInvariants : Obligations.EveryStepKeepsTheInvariants := by
  intro s t hs h
  match hsched : s.schedule with
  | [] =>
    rw [step_nil hsched] at h
    exact hs.engineTurn h
  | turn :: rest =>
    have htaken : (s.withSchedule rest).Inv := hs.of_ownFields s.bus s.busyReads rest
    rw [step_cons hsched] at h
    cases turn with
    | host x =>
      cases h
      exact htaken.busAccess x
    | resetPin level =>
      cases h
      exact htaken.drivePin level
    | engine => exact htaken.engineTurn h

end Sys2Proof.Machine
end

section
/-! SUPPORT. The host's accesses of TBUF and of the results of a busy block: what a packed write and a packed read
say of each other, and which reads are unspecified (`20_memory.md` R62, `70_reset_and_hazards.md` R258). -/

namespace Sys2Proof.Machine

open Sys2Proof.Spec

/-! ## A byte that is already written -/

/-- TBUF lists the byte `v` at index `i`, where a write of that index looks for it. -/
def Memory.Lists (m : Memory) (i : Nat) (v : Byte) : Prop :=
  ∃ pre post, m.cells = pre ++ (i, v) :: post ∧ ∀ x ∈ pre, x.1 < i

/-- A write of an index passes the cells of smaller ones. -/
theorem setCell_append {pre : List Host.Cell} {i : Nat} (h : ∀ x ∈ pre, x.1 < i) (v : Byte)
    (l : List Host.Cell) : setCell (pre ++ l) i v = pre ++ setCell l i v := by
  induction pre with
  | nil => rfl
  | cons c pre ih =>
    obtain ⟨hc, hpre⟩ := List.forall_mem_cons.1 h
    rw [List.cons_append, setCell, if_neg (by omega), if_neg (by omega), ih hpre, List.cons_append]

theorem setCell_lists (l : List Host.Cell) (i : Nat) (v : Byte) :
    ∃ pre post, setCell l i v = pre ++ (i, v) :: post ∧ ∀ x ∈ pre, x.1 < i := by
  induction l with
  | nil => exact ⟨[], [], rfl, List.forall_mem_nil _⟩
  | cons c l ih =>
    unfold setCell
    split
    · exact ⟨[], c :: l, rfl, List.forall_mem_nil _⟩
    · split
      · exact ⟨[], l, rfl, List.forall_mem_nil _⟩
      · obtain ⟨pre, post, h, hpre⟩ := ih
        exact ⟨c :: pre, post, by rw [h, List.cons_append], List.forall_mem_cons.2 ⟨by omega, hpre⟩⟩

theorem Memory.lists_write (m : Memory) (i : Nat) (v : Byte) : (m.write i v).Lists i v :=
  setCell_lists m.cells i v

/-- Writing a byte that is already listed changes nothing. -/
theorem Memory.Lists.write_eq {m : Memory} {i : Nat} {v : Byte} (h : m.Lists i v) : m.write i v = m := by
  obtain ⟨pre, post, hcells, hpre⟩ := h
  have hset : setCell m.cells i v = m.cells := by
    rw [hcells, setCell_append hpre, setCell, if_neg (Nat.lt_irrefl i), if_pos rfl]
  rw [Memory.write, hset]

theorem Memory.Lists.write_of_lt {m : Memory} {i k : Nat} {v : Byte} (h : m.Lists i v) (hk : i < k) (w : Byte) :
    (m.write k w).Lists i v := by
  obtain ⟨pre, post, hcells, hpre⟩ := h
  refine ⟨pre, setCell post k w, ?_, hpre⟩
  have hbelow : ∀ x ∈ pre ++ [(i, v)], x.1 < k := by
    rw [List.forall_mem_append, List.forall_mem_singleton]
    exact ⟨fun x hx => (hpre x hx).trans hk, hk⟩
  have hsplit : m.cells = (pre ++ [(i, v)]) ++ post := by rw [hcells, List.append_assoc, List.singleton_append]
  rw [Memory.write, hsplit, setCell_append hbelow, List.append_assoc, List.singleton_append]

theorem Memory.Lists.writePacked_of_lt {m : Memory} {i k : Nat} {v : Byte} (h : m.Lists i v) (hk : i < k)
    (count w : Nat) : (m.writePacked k count w).Lists i v := by
  induction count generalizing m k w with
  | zero => exact h
  | succ n ih => exact ih (h.write_of_lt hk _) (by omega) _

/-- A packed write made twice is the same as made once, on the list of cells too. -/
theorem Memory.writePacked_writePacked (m : Memory) (i count v : Nat) :
    (m.writePacked i count v).writePacked i count v = m.writePacked i count v := by
  induction count generalizing m i v with
  | zero => rfl
  | succ n ih =>
    have hlists := ((m.lists_write i (BitVec.ofNat 8 v)).writePacked_of_lt (Nat.lt_succ_self i) n (v / 256))
    rw [Memory.writePacked, Memory.writePacked, hlists.write_eq, ih]

/-! ## Reading back -/

/-- A packed read of the bytes of a number is the number, at the size of the read. -/
theorem Memory.readPacked_of_bytes {m : Memory} {i count v : Nat}
    (h : ∀ j < count, m.byte (i + j) = BitVec.ofNat 8 (v / 256 ^ j)) :
    m.readPacked i count = v % 256 ^ count := by
  induction count generalizing i v with
  | zero => rw [Memory.readPacked, pow_zero, Nat.mod_one]
  | succ n ih =>
    have hfirst : (m.byte i).toNat = v % 256 := by
      have h0 := h 0 (Nat.succ_pos n)
      rw [Nat.add_zero, pow_zero, Nat.div_one] at h0
      rw [h0, BitVec.toNat_ofNat]
    have hrest : m.readPacked (i + 1) n = v / 256 % 256 ^ n := ih fun j hj => by
      rw [Nat.add_assoc, Nat.add_comm 1 j, h (j + 1) (Nat.succ_lt_succ hj), Nat.div_div_eq_div_mul, ← pow_succ']
    rw [Memory.readPacked, hfirst, hrest, pow_succ', Nat.mod_mul]

theorem Memory.readPacked_writePacked (m : Memory) (i count v : Nat) :
    (m.writePacked i count v).readPacked i count = v % 256 ^ count :=
  Memory.readPacked_of_bytes fun j hj => by
    rw [Memory.byte_writePacked, if_pos (by omega), Nat.add_sub_cancel_left]

theorem pow_256_eq (n : Nat) : 256 ^ n = 2 ^ (8 * n) := pow_mul 2 8 n ▸ rfl

/-! ## The accesses -/

theorem busTarget_eq_text_of_not_isBusError {c : Config} {off : BitVec 16} {size : AccessSize}
    (hle : 0x1000 ≤ off.toNat) (h : ¬ IsBusError c (.read off size)) :
    busTarget c off size = some (.text (off.toNat - 0x1000)) :=
  busTarget_eq_text_of_le hle fun hnone => h (BusAccess.target_eq_none.1 hnone)

/-- A result register of a busy block reads as a free value. -/
theorem State.busAccess_readAt_of_unspecified {s : State} {off : Nat} {x : BusReg} (hr : s.rstN = true)
    (hbusy : s.status.busy = true) (ht : BusReg.atOffset off = some x) (hx : x.unspecifiedWhileBusy = true) :
    s.busAccess (readAt off) = s.unspecifiedRead 8 := by
  rw [readAt, State.busAccess_read _ _ hr, State.hostRead, busTarget_of_atOffset s.cfg ht]
  exact if_pos (by rw [hbusy, hx, Bool.and_self])

/-- A register of a busy block that holds no result reads as it is. -/
theorem State.busAccess_readAt_of_specified {s : State} {off : Nat} {x : BusReg} (hr : s.rstN = true)
    (ht : BusReg.atOffset off = some x) (hx : x.unspecifiedWhileBusy = false) :
    s.busAccess (readAt off) = { s with bus := .data (s.readReg x) } :=
  State.busAccess_readAt hr ht (by rw [hx, Bool.and_false])

/-- A register of an idle block reads as it is. -/
theorem State.busAccess_readAt_of_idle {s : State} {off : Nat} {x : BusReg} (hr : s.rstN = true)
    (hidle : s.status.busy = false) (ht : BusReg.atOffset off = some x) :
    s.busAccess (readAt off) = { s with bus := .data (s.readReg x) } :=
  State.busAccess_readAt hr ht (by rw [hidle, Bool.false_and])

theorem State.busAccess_read_text {s : State} {off : BitVec 16} {size : AccessSize} {i : Nat} (hr : s.rstN = true)
    (ht : busTarget s.cfg off size = some (.text i)) :
    s.busAccess (.read off size) = if s.status.busy = true then s.unspecifiedRead size.bytes
      else s.answer (.data (BitVec.ofNat 64 (s.tbuf.readPacked i size.bytes))) := by
  rw [State.busAccess_read off size hr, State.hostRead, ht]

theorem State.hostWrite_of_none {s : State} {off : BitVec 16} {size : AccessSize} (v : Word)
    (ht : busTarget s.cfg off size = none) : s.hostWrite off size v = s.answer .error := by
  rw [State.hostWrite, ht]

theorem State.hostWrite_reg_of_idle {s : State} {off : BitVec 16} {size : AccessSize} {x : BusReg} (v : Word)
    (ht : busTarget s.cfg off size = some (.reg x)) (hidle : s.status.busy = false) :
    s.hostWrite off size v = (s.writeReg x v).answer .written := by
  rw [State.hostWrite, ht]
  exact if_neg (by simp [hidle])

theorem State.hostWrite_text_of_idle {s : State} {off : BitVec 16} {size : AccessSize} {i : Nat} (v : Word)
    (ht : busTarget s.cfg off size = some (.text i)) (hidle : s.status.busy = false) :
    s.hostWrite off size v = { s with tbuf := s.tbuf.writePacked i size.bytes v.toNat, bus := .written } := by
  rw [State.hostWrite, ht]
  exact if_neg (by simp [hidle])

/-- An unspecified read answers a value of the access's size and counts itself. -/
theorem State.unspecifiedRead_eq (s : State) (bytes : Nat) :
    ∃ x : Word, x.toNat < 2 ^ (8 * bytes) ∧
      s.unspecifiedRead bytes = { s with bus := .data x, busyReads := s.busyReads + 1 } := by
  refine ⟨_, ?_, rfl⟩
  rw [BitVec.toNat_ofNat]
  exact (Nat.mod_le _ _).trans_lt (Nat.mod_lt _ (Nat.two_pow_pos _))

/-- The second of two equal writes of a register changes nothing, but for an acceptance. -/
theorem State.writeReg_writeReg (s : State) (x : BusReg) (v : Word) :
    ((s.writeReg x v).answer .written).writeReg x v = (s.writeReg x v).answer .written := by
  cases x with
  | status => simp [State.writeReg, Status.clearBits, State.answer]
  | _ => rfl

/-- Only a write of `CMD` makes an idle block busy (`10_state.md` R46). -/
theorem State.writeReg_idle {s : State} {x : BusReg} (hx : x ≠ .cmd) (hidle : s.status.busy = false) (v : Word) :
    (s.writeReg x v).status.busy = false := by
  cases x with
  | cmd => exact absurd rfl hx
  | _ => exact hidle

theorem BusReg.eq_cmd_offset {off : Nat} (h : BusReg.atOffset off = some .cmd) : off = 0x18 := by
  unfold BusReg.atOffset at h
  split at h <;> simp_all

/-- Two equal writes of an idle block that is not started by them, by what they reach. -/
theorem State.hostWrite_hostWrite {s : State} {off : BitVec 16} {size : AccessSize} (v : Word)
    (hidle : s.status.busy = false) (hoff : off ≠ 0x18) :
    (s.hostWrite off size v).hostWrite off size v = s.hostWrite off size v := by
  match ht : busTarget s.cfg off size with
  | none =>
    rw [State.hostWrite_of_none v ht, State.hostWrite_of_none (s := s.answer .error) v ht]
    rfl
  | some (.reg x) =>
    obtain ⟨-, -, hx⟩ := busTarget_eq_reg.1 ht
    have hcmd : x ≠ .cmd := by
      rintro rfl
      exact hoff (BitVec.eq_of_toNat_eq (BusReg.eq_cmd_offset hx))
    have ht' : busTarget (s.writeReg x v).cfg off size = some (.reg x) := by
      rw [(s.keepsResults_writeReg x v).cfg, ht]
    rw [State.hostWrite_reg_of_idle v ht hidle,
      State.hostWrite_reg_of_idle (s := (s.writeReg x v).answer .written) v ht' (State.writeReg_idle hcmd hidle v),
      State.writeReg_writeReg]
    rfl
  | some (.text i) =>
    have hagain := State.hostWrite_text_of_idle
      (s := { s with tbuf := s.tbuf.writePacked i size.bytes v.toNat, bus := .written }) v ht hidle
    rw [Memory.writePacked_writePacked] at hagain
    rw [State.hostWrite_text_of_idle v ht hidle]
    exact hagain

end Sys2Proof.Machine
end

section
/-! The statements on reads and writes of the host, and on reset (`20_memory.md`, `70_reset_and_hazards.md`). -/

namespace Sys2Proof.Machine

open Sys2Proof.Spec

/-- Settles O43: the four result registers and TBUF read as free values, the other registers as they are, with
the read value as a number. -/
theorem readsWhileBusy : Obligations.ReadsWhileBusy := by
  intro s hr hbusy
  have hfree : ∀ {off x}, BusReg.atOffset off = some x → x.unspecifiedWhileBusy = true →
      ∃ y, s.busAccess (readAt off) = { s with bus := .data y, busyReads := s.busyReads + 1 } := by
    intro off x ht hx
    obtain ⟨y, -, hy⟩ := s.unspecifiedRead_eq 8
    exact ⟨y, (State.busAccess_readAt_of_unspecified hr hbusy ht hx).trans hy⟩
  have hexact : ∀ {off x} {v : Word}, BusReg.atOffset off = some x → x.unspecifiedWhileBusy = false →
      s.readReg x = v → s.busAccess (readAt off) = { s with bus := .data v } := by
    rintro off x v ht hx rfl
    exact State.busAccess_readAt_of_specified hr ht hx
  refine ⟨?results, fun off size hle hok => ?text, ?exact⟩
  case results =>
    simp only [List.forall_mem_cons]
    exact ⟨hfree (x := .rLo) rfl rfl, hfree (x := .rHi) rfl rfl, hfree (x := .tlen) rfl rfl,
      hfree (x := .errInfo) rfl rfl, List.forall_mem_nil _⟩
  case text =>
    obtain ⟨y, hlt, hy⟩ := s.unspecifiedRead_eq size.bytes
    refine ⟨y, by rwa [accessBytes_read], ?_⟩
    rw [State.busAccess_read_text hr (busTarget_eq_text_of_not_isBusError hle hok), if_pos hbusy, hy]
  case exact =>
    have hstatus : s.status.word = BitVec.ofNat 64
        (1 + 2 * s.status.done.toNat + 4 * s.status.werr.toNat + 16 * s.status.err.toNat) :=
      eq_ofNat_of_toNat (by rw [toNat_statusWord, hbusy]; rfl)
    simp only [List.forall_mem_cons]
    exact ⟨hexact (x := .id) rfl rfl (eq_ofNat_of_toNat (toNat_idWord s.cfg)),
      hexact (x := .ctrl) rfl rfl (eq_ofNat_of_toNat (toNat_ctrlWord s.ie)), hexact (x := .status) rfl rfl hstatus,
      hexact (x := .cmd) rfl rfl rfl, hexact (x := .aLo) rfl rfl rfl, hexact (x := .aHi) rfl rfl rfl,
      hexact (x := .bLo) rfl rfl rfl, hexact (x := .bHi) rfl rfl rfl, hexact (x := .k) rfl rfl rfl,
      List.forall_mem_nil _⟩

/-- Settles O44: a read only answers, and counts itself where it is unspecified; an equal write finds what the
first one stored. -/
theorem readsChangeNothingAndWritesAreIdempotent : Obligations.ReadsChangeNothingAndWritesAreIdempotent := by
  refine ⟨fun s off size => ?_, fun s off size v hidle hoff => ?_⟩
  · unfold State.busAccess
    split
    · exact s.hostRead_cases off size
    · exact ⟨.unanswered, s.busyReads, rfl⟩
  · cases hr : s.rstN with
    | false => simp [State.busAccess, State.answer, hr]
    | true =>
      have hr' : (s.hostWrite off size v).rstN = true :=
        (s.hostWrite_frame off size v).2.trans hr
      rw [State.busAccess_write off size v hr, State.busAccess_write off size v hr',
        State.hostWrite_hostWrite v hidle hoff]

/-- Settles O45: a packed read is the sum of the bytes at their places, and a packed write stores the bytes of
the number. -/
theorem textWriteStoresItsBytesAndReadsBack : Obligations.TextWriteStoresItsBytesAndReadsBack := by
  intro s off size hr hidle hle hok
  have ht := busTarget_eq_text_of_not_isBusError hle hok
  have hread : ∀ {t : State}, t.rstN = true → t.cfg = s.cfg → t.status.busy = false →
      t.busAccess (.read off size) =
        t.answer (.data (BitVec.ofNat 64 (t.tbuf.readPacked (off.toNat - 0x1000) size.bytes))) := by
    intro t htr hcfg hbusy
    rw [State.busAccess_read_text htr (hcfg ▸ ht), if_neg (by simp [hbusy])]
  simp only [accessBytes_read]
  refine ⟨?_, fun v => ?_⟩
  · rw [hread hr rfl hidle, Memory.readPacked_eq_sum]
    rfl
  · rw [State.busAccess_write off size v hr, State.hostWrite_text_of_idle v ht hidle]
    refine ⟨rfl, fun j => ?_, ?_⟩
    · rw [Memory.byte_writePacked, pow_256_eq]
    · have hback := hread (t := { s with
        tbuf := s.tbuf.writePacked (off.toNat - 0x1000) size.bytes v.toNat, bus := .written }) hr rfl hidle
      rw [Memory.readPacked_writePacked, pow_256_eq] at hback
      exact congrArg State.bus hback

/-- Settles O48: the rules of a register write and of a register read, with the read value as a number. -/
theorem registersReadBackWhatTheyHold : Obligations.RegistersReadBackWhatTheyHold := by
  intro s v hr hidle
  have hwrite : ∀ {off x}, BusReg.atOffset off = some x →
      s.busAccess (writeAt off v) = (s.writeReg x v).answer .written := fun ht =>
    State.busAccess_writeAt v hr ht (by simp [hidle])
  have hread : ∀ {off x} {w : Word}, BusReg.atOffset off = some x → s.readReg x = w →
      s.busAccess (readAt off) = { s with bus := .data w } := by
    rintro off x w ht rfl
    exact State.busAccess_readAt_of_idle hr hidle ht
  have htlen : v.extractLsb' 0 16 = BitVec.ofNat 16 v.toNat := by
    apply BitVec.eq_of_toNat_eq
    rw [BitVec.extractLsb'_toNat, BitVec.toNat_ofNat, Nat.shiftRight_zero]
  have hstatus : s.status.word = BitVec.ofNat 64
      (2 * s.status.done.toNat + 4 * s.status.werr.toNat + 16 * s.status.err.toNat) :=
    eq_ofNat_of_toNat (by rw [toNat_statusWord, hidle, Bool.toNat_false, Nat.zero_add])
  refine ⟨hwrite (x := .aLo) rfl, hwrite (x := .aHi) rfl, hwrite (x := .bLo) rfl, hwrite (x := .bHi) rfl,
    hwrite (x := .k) rfl, hwrite (x := .ctrl) rfl, ?_, ?_⟩
  · rw [hwrite (x := .tlen) rfl, ← htlen]
    rfl
  · simp only [List.forall_mem_cons]
    exact ⟨hread (x := .ctrl) rfl (eq_ofNat_of_toNat (toNat_ctrlWord s.ie)), hread (x := .cmd) rfl rfl,
      hread (x := .tlen) rfl (eq_ofNat_of_toNat (toNat_tlenWord s.tlen)), hread (x := .aLo) rfl rfl,
      hread (x := .aHi) rfl rfl, hread (x := .bLo) rfl rfl, hread (x := .bHi) rfl rfl, hread (x := .k) rfl rfl,
      hread (x := .rLo) rfl rfl, hread (x := .rHi) rfl rfl, hread (x := .status) rfl hstatus,
      hread (x := .errInfo) rfl (eq_ofNat_of_toNat (toNat_errInfoWord s.errInfo)), List.forall_mem_nil _⟩

/-- Settles O50: driving `rst_n` low gives the reset values whatever the state was. -/
theorem resetAbandonsTheCommandInFlight : Obligations.ResetAbandonsTheCommandInFlight := by
  refine ⟨fun s => ?_, fun s x hr => if_neg (by simp [hr]), fun s => rfl⟩
  have hregs := s.registersReset_assertReset
  rw [State.drivePin_false]
  exact ⟨hregs, hregs.irq_eq_false, rfl, rfl, fun i => rfl⟩

end Sys2Proof.Machine
end

section
/-! SUPPORT. Double-width arithmetic under the two's complement reading (`41_double_width_arith.md` section 3). -/

namespace Sys2Proof.Machine

open Sys2Proof.Spec

theorem valueOf_lt (d : DoubleWidth) : valueOf d < 2 ^ 128 := by
  rw [valueOf_eq_toNat_value]
  exact d.value.isLt

/-- The two readings of a number are congruent. -/
theorem signedOf_modEq (bits n : Nat) : signedOf bits n ≡ n [ZMOD 2 ^ bits] := by
  unfold signedOf
  split
  · exact Int.modEq_iff_dvd.2 (by rw [sub_sub_cancel])
  · exact Int.ModEq.refl _

/-- A number that is right modulo `2^bits` is right under the two's complement reading too. -/
theorem signedOf_mod_modEq {bits n : Nat} {v : Int} (h : (n : Int) ≡ v [ZMOD 2 ^ bits]) :
    signedOf bits (n % 2 ^ bits) ≡ v [ZMOD 2 ^ bits] := by
  refine (signedOf_modEq bits _).trans (Int.ModEq.trans ?_ h)
  push_cast
  exact Int.mod_modEq _ _

end Sys2Proof.Machine
end

section
/-! The statement on the laws of 128-bit arithmetic. -/

namespace Sys2Proof.Machine

open Sys2Proof.Spec

/-- Settles O18: each law is one of numbers modulo `2^128`, because the value determines the halves and the two
readings of a number are congruent. -/
theorem doubleWidthLaws : Obligations.DoubleWidthLaws := by
  intro a b k
  have ha := valueOf_lt a
  have hk : valueOf ⟨k, 0⟩ = k.toNat := by simp [valueOf]
  have hzero : valueOf ⟨0, 0⟩ = 0 := by simp [valueOf]
  have hsa := (signedOf_modEq 128 (valueOf a)).symm
  have hsb := (signedOf_modEq 128 (valueOf b)).symm
  refine ⟨valueOf_injective ?addComm, valueOf_injective ?mulComm, valueOf_injective ?muls,
    valueOf_injective ?negNeg, valueOf_injective ?addNeg, ?negFixed, fun h => ?addExact, fun h => ?mulExact,
    ?addSigned, ?mulSigned, ?mulsSigned⟩
  case addComm => rw [valueOf_dwAdd, valueOf_dwAdd, Nat.add_comm]
  case mulComm => rw [valueOf_dwMul, valueOf_dwMul, Nat.mul_comm]
  case muls => rw [valueOf_dwMulSmall, valueOf_dwMul, hk]
  case negNeg =>
    rw [valueOf_dwNeg, valueOf_dwNeg]
    omega
  case addNeg =>
    rw [valueOf_dwAdd, valueOf_dwNeg, hzero]
    omega
  case negFixed =>
    have hiff : dwNeg a = a ↔ (2 ^ 128 - valueOf a) % 2 ^ 128 = valueOf a := by
      rw [← valueOf_dwNeg]
      exact ⟨congrArg valueOf, valueOf_injective⟩
    rw [hiff]
    omega
  case addExact => rw [valueOf_dwAdd, Nat.mod_eq_of_lt h]
  case mulExact => rw [valueOf_dwMul, Nat.mod_eq_of_lt h]
  case addSigned =>
    rw [valueOf_dwAdd]
    refine (signedOf_mod_modEq ?_).symm.dvd
    push_cast
    exact hsa.add hsb
  case mulSigned =>
    rw [valueOf_dwMul]
    refine (signedOf_mod_modEq ?_).symm.dvd
    push_cast
    exact hsa.mul hsb
  case mulsSigned =>
    rw [valueOf_dwMulSmall]
    refine (signedOf_mod_modEq ?_).symm.dvd
    push_cast
    exact hsa.mul_right _

end Sys2Proof.Machine
end

section
/-! SUPPORT. A decode that succeeds, by the parts of its text alone, and the zeros that those parts do not see
(`42_decoder.md` R174). -/

namespace Sys2Proof.Machine

open Sys2Proof.Spec

theorem composeResult_ok_scale_le {w : CodecWidth} {scale : Nat} {neg : Bool} {integral n : Nat} {f : FractionScan}
    (h : composeResult w scale neg integral f = .ok n) : scale ≤ w.pmax := by
  by_contra hlt
  rw [composeResult, romRead_of_lt (by rw [CodecWidth.kmax_bank]; omega)] at h
  cases h

/-- A decode that answers a number has a scale that the ROM holds, and a text. -/
theorem bounds_of_decodeText_ok {w : CodecWidth} {precision scale n : Nat} {t : List Byte}
    (h : decodeText w precision scale t = .ok n) : t ≠ [] ∧ scale ≤ w.pmax := by
  have ht : t ≠ [] := by
    rintro rfl
    cases h
  refine ⟨ht, ?_⟩
  rw [decodeText_eq_decodeBody ht, decodeBody] at h
  split at h
  · cases h
  · split at h
    · cases h
    · exact composeResult_ok_scale_le h

/-- `t'` has the sign of `t`, digits only, and the digits of `t` that count. -/
structure SameDecimal (t t' : List Byte) : Prop where
  ne_nil : t' ≠ []
  sign : hasSign t' = hasSign t
  integral : (∀ c ∈ integralPart t, isDigit c = true) → ∀ c ∈ integralPart t', isDigit c = true
  fraction : (∀ c ∈ fractionPart t, isDigit c = true) → ∀ c ∈ fractionPart t', isDigit c = true
  counted : countedPart t' = countedPart t
  last : lastNonZero t' = lastNonZero t
  digits : (fractionPart t').take (lastNonZero t) = (fractionPart t).take (lastNonZero t)

/-- A decode that succeeds sees of its text the digits that count. -/
theorem decodeText_of_sameDecimal {w : CodecWidth} {precision scale n : Nat} {t t' : List Byte}
    (h : SameDecimal t t') (hdecode : decodeText w precision scale t = .ok n) :
    decodeText w precision scale t' = .ok n := by
  obtain ⟨ht, hscale⟩ := bounds_of_decodeText_ok hdecode
  have haccepted := accepted_of_decodeText_ok ht hdecode
  have hvalue : scaledValue scale t' = scaledValue scale t := by
    simp only [scaledValue, magnitudeOf, h.sign, h.counted, h.last, h.digits]
  have haccepted' : Accepted precision scale t' := by
    obtain ⟨hint, hfrac, hbudget, hlast⟩ := haccepted
    exact ⟨h.integral hint, h.fraction hfrac, by rwa [h.counted], by rwa [h.last]⟩
  rw [← hdecode, decodeText_of_accepted hscale ht haccepted, decodeText_of_accepted hscale h.ne_nil haccepted',
    hvalue]

theorem isDigit_zero : isDigit 0x30 = true := by decide

/-- A zero behind the fraction does not count. -/
theorem sameDecimal_concat_zero {t : List Byte} (h : dotByte ∈ t) : SameDecimal t (t ++ [0x30]) := by
  obtain ⟨hint, hfrac⟩ := parts_concat_of_dot_mem h 0x30
  have hlast : lastNonZero (t ++ [0x30]) = lastNonZero t := by
    rw [lastNonZero, hfrac, List.reverse_concat, List.dropWhile_cons_of_pos rfl, lastNonZero]
  have hle : lastNonZero t ≤ (fractionPart t).length := lastNonZeroPos_le _
  exact {
    ne_nil := by simp
    sign := by rw [hasSign, hasSign, List.head?_append_of_ne_nil _ (List.ne_nil_of_mem h)]
    integral := by rw [hint]; exact id
    fraction := fun hdigits => by
      rw [hfrac, List.forall_mem_append, List.forall_mem_singleton]
      exact ⟨hdigits, isDigit_zero⟩
    counted := by rw [countedPart, countedPart, hint]
    last := hlast
    digits := by rw [hfrac, List.take_append_of_le_length hle] }

/-- A zero in front of the digits, behind the sign, does not count. -/
theorem sameDecimal_cons_zero {t t' : List Byte} (hne : t' ≠ []) (hsign : hasSign t' = hasSign t)
    (h : unsignedPart t' = 0x30 :: unsignedPart t) : SameDecimal t t' := by
  have hint : integralPart t' = 0x30 :: integralPart t := by
    rw [integralPart, h, List.takeWhile_cons_of_pos (by decide), integralPart]
  have hfrac : fractionPart t' = fractionPart t := by
    rw [fractionPart, h, List.dropWhile_cons_of_pos (by decide), fractionPart]
  exact {
    ne_nil := hne
    sign := hsign
    integral := fun hdigits => by
      rw [hint, List.forall_mem_cons]
      exact ⟨isDigit_zero, hdigits⟩
    fraction := by rw [hfrac]; exact id
    counted := by rw [countedPart, hint, List.dropWhile_cons_of_pos rfl, countedPart]
    last := by rw [lastNonZero, hfrac, lastNonZero]
    digits := by rw [hfrac] }

theorem sameDecimal_cons_zero_of_unsigned {t : List Byte} (h : hasSign t = false) :
    SameDecimal t (0x30 :: t) := by
  have hsign : hasSign (0x30 :: t) = false := rfl
  refine sameDecimal_cons_zero (List.cons_ne_nil _ _) (hsign.trans h.symm) ?_
  rw [unsignedPart, hsign, unsignedPart, h]
  rfl

theorem sameDecimal_cons_zero_of_minus (t : List Byte) : SameDecimal (0x2D :: t) (0x2D :: 0x30 :: t) :=
  sameDecimal_cons_zero (List.cons_ne_nil _ _) rfl rfl

theorem decodeText_concat_zeros {w : CodecWidth} {precision scale n : Nat} {t : List Byte} (hdot : dotByte ∈ t)
    (h : decodeText w precision scale t = .ok n) (zeros : Nat) :
    decodeText w precision scale (t ++ List.replicate zeros 0x30) = .ok n := by
  induction zeros with
  | zero => rwa [List.replicate_zero, List.append_nil]
  | succ k ih =>
    rw [List.replicate_succ', ← List.append_assoc]
    exact decodeText_of_sameDecimal (sameDecimal_concat_zero (List.mem_append_left _ hdot)) ih

theorem decodeText_zeros_append {w : CodecWidth} {precision scale n : Nat} {t : List Byte}
    (hsign : hasSign t = false) (h : decodeText w precision scale t = .ok n) (zeros : Nat) :
    decodeText w precision scale (List.replicate zeros 0x30 ++ t) = .ok n ∧
      hasSign (List.replicate zeros 0x30 ++ t) = false := by
  induction zeros with
  | zero => exact ⟨h, hsign⟩
  | succ k ih =>
    obtain ⟨hok, hunsigned⟩ := ih
    rw [List.replicate_succ, List.cons_append]
    exact ⟨decodeText_of_sameDecimal (sameDecimal_cons_zero_of_unsigned hunsigned) hok, rfl⟩

theorem decodeText_minus_zeros_append {w : CodecWidth} {precision scale n : Nat} {t : List Byte}
    (h : decodeText w precision scale (0x2D :: t) = .ok n) (zeros : Nat) :
    decodeText w precision scale (0x2D :: (List.replicate zeros 0x30 ++ t)) = .ok n := by
  induction zeros with
  | zero => exact h
  | succ k ih =>
    rw [List.replicate_succ, List.cons_append]
    exact decodeText_of_sameDecimal (sameDecimal_cons_zero_of_minus _) ih

end Sys2Proof.Machine
end

section
/-! The statements on every decode (`42_decoder.md` sections 2 to 4). -/

namespace Sys2Proof.Machine

open Sys2Proof.Spec

/-- Settles O20: of a DEC command's evaluation only a result or an error is left, by `decCommand_cases`. -/
theorem decCompletesAndKeepsEverythingElse : Obligations.DecCompletesAndKeepsEverythingElse := by
  intro s i precision scale hi
  obtain ⟨w, hexec, -⟩ := exists_width_of_isDec hi s
  rw [hexec]
  rcases decCommand_cases w precision scale s with ⟨-, hcmd⟩ | ⟨-, -, -, ⟨e, -, hcmd⟩ | ⟨n, -, hcmd⟩⟩
  · exact ⟨_, _, _, by rw [hcmd]; rfl⟩
  · exact ⟨_, _, _, by rw [hcmd]; rfl⟩
  · exact ⟨_, _, _, by rw [hcmd]; rfl⟩

/-- Settles O26: one zero more is a text with the same digits that count. -/
theorem redundantZerosAreFree : Obligations.RedundantZerosAreFree := by
  refine fun w precision scale zeros v body => ⟨fun t hdot h => decodeText_concat_zeros hdot h zeros,
    fun hhead h => (decodeText_zeros_append ?_ h zeros).1, fun h => decodeText_minus_zeros_append h zeros⟩
  exact beq_eq_false_iff_ne.2 hhead

/-- Settles O27: an error names its byte, and what follows it is not looked at. -/
theorem bytesAfterTheFaultDoNotMatter : Obligations.BytesAfterTheFaultDoNotMatter := by
  intro w precision scale t rest e ht h
  obtain ⟨c, hc, -, -, hmore⟩ := decodeText_raise ht h
  exact ⟨(List.getElem?_eq_some_iff.1 hc).1, hmore rest⟩

end Sys2Proof.Machine
end

section
/-! SUPPORT. Digit strings and the numbers they stand for: writing a number in decimal and reading it back, with
leading and trailing zeros (`43_encoder.md` R194, R195). -/

namespace Sys2Proof.Machine

open Sys2Proof.Spec

/-! ## The value of a digit string -/

theorem decimalValue_concat (l : List Byte) (c : Byte) :
    decimalValue (l ++ [c]) = 10 * decimalValue l + (c.toNat - 0x30) := by
  simp only [decimalValue, List.foldl_append, List.foldl_cons, List.foldl_nil]

theorem decimalValue_zeros_append (k : Nat) (l : List Byte) :
    decimalValue (List.replicate k 0x30 ++ l) = decimalValue l := by
  induction k with
  | zero => rfl
  | succ k ih =>
    rw [List.replicate_succ, List.cons_append, ← ih]
    rfl

theorem decimalValue_append_zeros (l : List Byte) (k : Nat) :
    decimalValue (l ++ List.replicate k 0x30) = decimalValue l * 10 ^ k := by
  induction k with
  | zero => rw [List.replicate_zero, List.append_nil, pow_zero, Nat.mul_one]
  | succ k ih =>
    have hzero : (0x30 : Byte).toNat - 0x30 = 0 := rfl
    rw [List.replicate_succ', ← List.append_assoc, decimalValue_concat, ih, hzero, pow_succ]
    ring

theorem toNat_digitByte {d : Nat} (hd : d < 10) : (digitByte d).toNat = 0x30 + d := by
  rw [digitByte, BitVec.toNat_ofNat]
  omega

theorem isDigit_digitByte {d : Nat} (hd : d < 10) : isDigit (digitByte d) = true := by
  have hnat := toNat_digitByte hd
  simp only [isDigit, Bool.and_eq_true, decide_eq_true_eq]
  omega

/-- A digit byte is the byte of its digit. -/
theorem exists_digitByte_of_isDigit {c : Byte} (h : isDigit c = true) : ∃ d < 10, c = digitByte d := by
  simp only [isDigit, Bool.and_eq_true, decide_eq_true_eq] at h
  obtain ⟨hlo, hhi⟩ := h
  refine ⟨c.toNat - 0x30, by omega, BitVec.eq_of_toNat_eq ?_⟩
  rw [toNat_digitByte (by omega)]
  omega

/-! ## The digits of a number -/

theorem significantBytes_zero : significantBytes 0 = [] := by simp [significantBytes]

/-- One more digit behind the others. -/
theorem significantBytes_concat {n d : Nat} (hd : d < 10) (hpos : 10 * n + d ≠ 0) :
    significantBytes (10 * n + d) = significantBytes n ++ [digitByte d] := by
  have hmod : (10 * n + d) % 10 = d := by omega
  have hdiv : (10 * n + d) / 10 = n := by omega
  rw [significantBytes, Nat.digits_def' (by omega) (Nat.pos_of_ne_zero hpos), hmod, hdiv, List.reverse_cons,
    List.map_append]
  rfl

/-- A number is not 0, or it has a last digit and the digits before it. -/
theorem significantBytes_eq_concat {n : Nat} (h : n ≠ 0) :
    significantBytes n = significantBytes (n / 10) ++ [digitByte (n % 10)] := by
  have hsplit : 10 * (n / 10) + n % 10 = n := Nat.div_add_mod n 10
  rw [← significantBytes_concat (Nat.mod_lt n (by omega)) (by omega), hsplit]

theorem decimalValue_significantBytes (n : Nat) : decimalValue (significantBytes n) = n := by
  induction n using Nat.strong_induction_on with
  | _ n ih =>
    by_cases h : n = 0
    · rw [h, significantBytes_zero]
      rfl
    · rw [significantBytes_eq_concat h, decimalValue_concat, ih (n / 10) (by omega),
        toNat_digitByte (Nat.mod_lt n (by omega))]
      omega

theorem isDigit_of_mem_significantBytes {n : Nat} {c : Byte} (h : c ∈ significantBytes n) : isDigit c = true := by
  obtain ⟨d, hd, rfl⟩ := List.mem_map.1 h
  exact isDigit_digitByte (Nat.digits_lt_base (by omega) (List.mem_reverse.1 hd))

theorem length_significantBytes_le {n k : Nat} (h : n < 10 ^ k) : (significantBytes n).length ≤ k := by
  rw [significantBytes, List.length_map, List.length_reverse]
  exact (Nat.digits_length_le_iff (by omega) n).2 h

/-- The digits of the number that a digit string stands for are the string without its leading zeros. -/
theorem significantBytes_decimalValue {l : List Byte} (h : ∀ c ∈ l, isDigit c = true) :
    significantBytes (decimalValue l) = l.dropWhile (fun c => c == 0x30) := by
  induction l using List.reverseRecOn with
  | nil => exact significantBytes_zero
  | append_singleton l c ih =>
    rw [List.forall_mem_append, List.forall_mem_singleton] at h
    obtain ⟨hl, hc⟩ := h
    obtain ⟨d, hd, rfl⟩ := exists_digitByte_of_isDigit hc
    have ihl := ih hl
    have hvalue : decimalValue (l ++ [digitByte d]) = 10 * decimalValue l + d := by
      rw [decimalValue_concat, toNat_digitByte hd, Nat.add_sub_cancel_left]
    rw [hvalue, List.dropWhile_append, ← ihl]
    by_cases hn : decimalValue l = 0
    · rw [hn, significantBytes_zero, List.isEmpty_nil, if_pos rfl, List.dropWhile_cons, digitByte_beq_zero hd]
      by_cases hd0 : d = 0
      · simp [hd0, significantBytes_zero]
      · rw [significantBytes_concat hd (by omega), significantBytes_zero]
        simp [hd0]
    · have hne : (significantBytes (decimalValue l)).isEmpty = false := by
        simp [significantBytes_eq_concat hn]
      rw [significantBytes_concat hd (by omega), hne, if_neg Bool.false_ne_true]

/-- Leading zeros do not change the value. -/
theorem decimalValue_dropWhile_zero {l : List Byte} (h : ∀ c ∈ l, isDigit c = true) :
    decimalValue (l.dropWhile (fun c => c == 0x30)) = decimalValue l := by
  rw [← significantBytes_decimalValue h, decimalValue_significantBytes]

/-! ## The integral digits -/

theorem decimalBytes_ne_nil (n : Nat) : decimalBytes n ≠ [] := by
  unfold decimalBytes
  split
  next => exact List.cons_ne_nil _ _
  next h => simp [significantBytes_eq_concat h]

theorem isDigit_of_mem_decimalBytes {n : Nat} {c : Byte} (h : c ∈ decimalBytes n) : isDigit c = true := by
  unfold decimalBytes at h
  split at h
  next => rw [List.mem_singleton.1 h, isDigit_zero]
  next => exact isDigit_of_mem_significantBytes h

theorem decimalValue_decimalBytes (n : Nat) : decimalValue (decimalBytes n) = n := by
  unfold decimalBytes
  split
  next h => rw [h]; rfl
  next => exact decimalValue_significantBytes n

/-- The digits of a number do not begin with a zero. -/
theorem head?_significantBytes_ne (n : Nat) : (significantBytes n).head? ≠ some 0x30 := by
  have hself : (significantBytes n).dropWhile (fun c => c == 0x30) = significantBytes n := by
    rw [← significantBytes_decimalValue (fun _ => isDigit_of_mem_significantBytes), decimalValue_significantBytes]
  intro hhead
  obtain ⟨l, hl⟩ := List.head?_eq_some_iff.1 hhead
  rw [hl, List.dropWhile_cons_of_pos rfl] at hself
  have hlen := (List.dropWhile_suffix (l := l) (fun c => c == (0x30 : Byte))).length_le
  rw [hself, List.length_cons] at hlen
  omega

/-- Integral digits without leading zeros are the number in ordinary decimal. -/
theorem decimalBytes_decimalValue {ds : List Byte} (hne : ds ≠ []) (hdigits : ∀ c ∈ ds, isDigit c = true)
    (hhead : ds.head? = some 0x30 → ds = [0x30]) : decimalBytes (decimalValue ds) = ds := by
  by_cases hzero : ds = [0x30]
  · rw [hzero]
    rfl
  · obtain ⟨c, l, rfl⟩ := List.exists_cons_of_ne_nil hne
    have hc : ¬ (c == (0x30 : Byte)) = true := fun h => hzero (hhead (by rw [List.head?_cons, beq_iff_eq.1 h]))
    have hsig := significantBytes_decimalValue hdigits
    rw [List.dropWhile_cons_of_neg (p := fun c => c == (0x30 : Byte)) hc] at hsig
    rw [decimalBytes, if_neg, hsig]
    intro h0
    rw [h0, significantBytes_zero] at hsig
    exact hne hsig.symm

/-! ## The fractional digits -/

/-- A number below `10^scale` with zeros in front, `scale` digits in all (`43_encoder.md` R195). -/
def paddedBytes (scale r : Nat) : List Byte :=
  List.replicate (scale - (significantBytes r).length) 0x30 ++ significantBytes r

theorem fractionBytes_eq_rdropWhile (scale r : Nat) :
    fractionBytes scale r = (paddedBytes scale r).rdropWhile (fun c => c == 0x30) := rfl

theorem decimalValue_paddedBytes (scale r : Nat) : decimalValue (paddedBytes scale r) = r := by
  rw [paddedBytes, decimalValue_zeros_append, decimalValue_significantBytes]

theorem length_paddedBytes {scale r : Nat} (h : r < 10 ^ scale) : (paddedBytes scale r).length = scale := by
  rw [paddedBytes, List.length_append, List.length_replicate, Nat.sub_add_cancel (length_significantBytes_le h)]

theorem isDigit_of_mem_paddedBytes {scale r : Nat} {c : Byte} (h : c ∈ paddedBytes scale r) :
    isDigit c = true := by
  rcases List.mem_append.1 h with h | h
  · rw [List.eq_of_mem_replicate h, isDigit_zero]
  · exact isDigit_of_mem_significantBytes h

theorem eq_zeros_of_forall {l : List Byte} (h : ∀ c ∈ l, (c == 0x30) = true) :
    l = List.replicate l.length 0x30 :=
  List.eq_replicate_iff.2 ⟨rfl, fun c hc => beq_iff_eq.1 (h c hc)⟩

/-- The zeros in front of a string, and the rest of it. -/
theorem zeros_append_dropWhile (l : List Byte) :
    List.replicate (l.length - (l.dropWhile (fun c => c == 0x30)).length) 0x30 ++
      l.dropWhile (fun c => c == 0x30) = l := by
  have hlen : l.length - (l.dropWhile (fun c => c == 0x30)).length =
      (l.takeWhile (fun c => c == 0x30)).length := by
    have hsum := congrArg List.length (List.takeWhile_append_dropWhile (p := fun c => c == (0x30 : Byte)) (l := l))
    rw [List.length_append] at hsum
    omega
  have hzeros := eq_zeros_of_forall (l := l.takeWhile (fun c => c == 0x30)) fun _ => List.mem_takeWhile_imp
  rw [hlen, ← hzeros, List.takeWhile_append_dropWhile]

/-- Digits, `scale` in all, are the number they stand for, padded. -/
theorem paddedBytes_decimalValue {l : List Byte} (h : ∀ c ∈ l, isDigit c = true) :
    paddedBytes l.length (decimalValue l) = l := by
  rw [paddedBytes, significantBytes_decimalValue h, zeros_append_dropWhile]

/-- The fractional digits with the zeros that were stripped. -/
theorem exists_zeros_fractionBytes (scale r : Nat) :
    ∃ k, paddedBytes scale r = fractionBytes scale r ++ List.replicate k 0x30 := by
  refine ⟨((paddedBytes scale r).rtakeWhile (fun c => c == 0x30)).length, ?_⟩
  have hzeros := eq_zeros_of_forall (l := (paddedBytes scale r).rtakeWhile (fun c => c == 0x30))
    fun _ => List.mem_rtakeWhile_imp
  rw [← hzeros, fractionBytes_eq_rdropWhile, List.rdropWhile_append_rtakeWhile]

theorem length_fractionBytes_le {scale r : Nat} (h : r < 10 ^ scale) : (fractionBytes scale r).length ≤ scale := by
  have hprefix := (List.rdropWhile_prefix (fun c => c == (0x30 : Byte)) (l := paddedBytes scale r)).length_le
  rwa [length_paddedBytes h] at hprefix

/-- The fractional digits stand for the remainder. -/
theorem decimalValue_fractionBytes {scale r : Nat} (h : r < 10 ^ scale) :
    decimalValue (fractionBytes scale r) * 10 ^ (scale - (fractionBytes scale r).length) = r := by
  obtain ⟨k, hk⟩ := exists_zeros_fractionBytes scale r
  have hlen := congrArg List.length hk
  rw [length_paddedBytes h, List.length_append, List.length_replicate] at hlen
  have hvalue := congrArg decimalValue hk
  rw [decimalValue_paddedBytes, decimalValue_append_zeros] at hvalue
  have hzeros : scale - (fractionBytes scale r).length = k := by omega
  rw [hzeros, ← hvalue]

theorem isDigit_of_mem_fractionBytes {scale r : Nat} {c : Byte} (h : c ∈ fractionBytes scale r) :
    isDigit c = true :=
  isDigit_of_mem_paddedBytes ((List.rdropWhile_prefix _ _).subset h)

/-- A string that does not end in a zero is not changed by stripping. -/
theorem rdropWhile_zero_eq_self_iff {l : List Byte} :
    l.rdropWhile (fun c => c == 0x30) = l ↔ l.getLast? ≠ some 0x30 := by
  cases l using List.reverseRecOn with
  | nil => simp
  | append_singleton l c => simp [List.rdropWhile_eq_self_iff]

theorem getLast?_fractionBytes_ne (scale r : Nat) : (fractionBytes scale r).getLast? ≠ some 0x30 :=
  rdropWhile_zero_eq_self_iff.1 (List.rdropWhile_idempotent _ _)

theorem rdropWhile_append_zeros (l : List Byte) (k : Nat) :
    (l ++ List.replicate k 0x30).rdropWhile (fun c => c == 0x30) = l.rdropWhile (fun c => c == 0x30) := by
  induction k with
  | zero => rw [List.replicate_zero, List.append_nil]
  | succ k ih => rw [List.replicate_succ', ← List.append_assoc, List.rdropWhile_concat_pos _ _ _ rfl, ih]

/-- Fractional digits that do not end in a zero are those of the remainder they stand for. -/
theorem fractionBytes_decimalValue {scale : Nat} {fs : List Byte} (hdigits : ∀ c ∈ fs, isDigit c = true)
    (hlast : fs.getLast? ≠ some 0x30) (hlen : fs.length ≤ scale) :
    fractionBytes scale (decimalValue fs * 10 ^ (scale - fs.length)) = fs := by
  have hdigits' : ∀ c ∈ fs ++ List.replicate (scale - fs.length) 0x30, isDigit c = true := by
    rw [List.forall_mem_append]
    exact ⟨hdigits, fun c hc => by rw [List.eq_of_mem_replicate hc, isDigit_zero]⟩
  have hpadded := paddedBytes_decimalValue hdigits'
  rw [List.length_append, List.length_replicate, Nat.add_sub_cancel' hlen, decimalValue_append_zeros] at hpadded
  rw [fractionBytes_eq_rdropWhile, hpadded, rdropWhile_append_zeros, rdropWhile_zero_eq_self_iff.2 hlast]

/-- There are no fractional digits exactly when the remainder is 0. -/
theorem fractionBytes_eq_nil_iff {scale r : Nat} (h : r < 10 ^ scale) : fractionBytes scale r = [] ↔ r = 0 := by
  constructor
  · intro hnil
    have hvalue := decimalValue_fractionBytes h
    rw [hnil] at hvalue
    exact hvalue.symm.trans (Nat.zero_mul _)
  · rintro rfl
    have hnil := fractionBytes_decimalValue (scale := scale) (fs := []) (List.forall_mem_nil _) (by simp)
      (Nat.zero_le _)
    rwa [show decimalValue [] = 0 from rfl, Nat.zero_mul] at hnil

end Sys2Proof.Machine
end

section
/-! SUPPORT. Canonical text by its three parts, its value, and the encoder's text as the canonical text of a value
(`43_encoder.md` section 4). -/

namespace Sys2Proof.Machine

open Sys2Proof.Spec

/-! ## The parts of a canonical text -/

/-- A sign, integral digits and fractional digits as a text. -/
def joinParts (neg : Bool) (ds fs : List Byte) : List Byte :=
  (if neg then [minusByte] else []) ++ ds ++ (if fs = [] then [] else dotByte :: fs)

/-- What canonical text asks of its parts (`43_encoder.md` R201). -/
structure CanonicalParts (neg : Bool) (ds fs : List Byte) : Prop where
  ne_nil : ds ≠ []
  integral : ∀ c ∈ ds, isDigit c = true
  fraction : ∀ c ∈ fs, isDigit c = true
  head : ds.head? = some 0x30 → ds = [0x30]
  last : fs.getLast? ≠ some 0x30
  notNegativeZero : ¬ (neg = true ∧ ds = [0x30] ∧ fs = [])

theorem canonical_iff {t : List Byte} :
    Canonical t ↔ ∃ neg ds fs, t = joinParts neg ds fs ∧ CanonicalParts neg ds fs := by
  constructor
  · rintro ⟨neg, ds, fs, ht, h1, h2, h3, h4, h5, h6⟩
    exact ⟨neg, ds, fs, ht, h1, h2, h3, h4, h5, h6⟩
  · rintro ⟨neg, ds, fs, ht, h⟩
    exact ⟨neg, ds, fs, ht, h.ne_nil, h.integral, h.fraction, h.head, h.last, h.notNegativeZero⟩

theorem ne_of_isDigit {c d : Byte} (hc : isDigit c = true) (hd : isDigit d = false) : c ≠ d := by
  rintro rfl
  exact Bool.false_ne_true (hd.symm.trans hc)

section Parts

variable {neg : Bool} {ds fs : List Byte}

theorem hasSign_joinParts (h : CanonicalParts neg ds fs) : hasSign (joinParts neg ds fs) = neg := by
  obtain ⟨c, l, rfl⟩ := List.exists_cons_of_ne_nil h.ne_nil
  have hc : c ≠ minusByte := ne_of_isDigit (h.integral c List.mem_cons_self) (by decide)
  cases neg <;> simp [joinParts, hasSign_cons, hc]

theorem unsignedPart_joinParts (h : CanonicalParts neg ds fs) :
    unsignedPart (joinParts neg ds fs) = ds ++ (if fs = [] then [] else dotByte :: fs) := by
  rw [unsignedPart, hasSign_joinParts h]
  cases neg <;> simp [joinParts]

theorem dotByte_notMem_of_isDigit {l : List Byte} (h : ∀ c ∈ l, isDigit c = true) : dotByte ∉ l :=
  fun hmem => ne_of_isDigit (h _ hmem) (by decide) rfl

/-- The parts of the closed form (`42_decoder.md` R174) of a canonical text are its parts. -/
theorem parts_joinParts (h : CanonicalParts neg ds fs) :
    integralPart (joinParts neg ds fs) = ds ∧ fractionPart (joinParts neg ds fs) = fs := by
  have hdot : dotByte ∉ ds := dotByte_notMem_of_isDigit h.integral
  have hunsigned := unsignedPart_joinParts h
  by_cases hfs : fs = []
  · rw [if_pos hfs, List.append_nil] at hunsigned
    have hnot : dotByte ∉ joinParts neg ds fs := by rwa [← dot_mem_unsignedPart, hunsigned]
    rw [integralPart_of_dot_notMem hnot, fractionPart_of_dot_notMem hnot, hunsigned, hfs]
    exact ⟨rfl, rfl⟩
  · rw [if_neg hfs] at hunsigned
    exact parts_of_unsignedPart_eq hunsigned hdot

/-- The last digit of a canonical fraction is not a zero, so every digit counts. -/
theorem lastNonZero_joinParts (h : CanonicalParts neg ds fs) :
    lastNonZero (joinParts neg ds fs) = fs.length := by
  have hstrip := congrArg List.length (rdropWhile_zero_eq_self_iff.2 h.last)
  rw [List.rdropWhile, List.length_reverse] at hstrip
  rw [lastNonZero, (parts_joinParts h).2, hstrip]

theorem magnitudeOf_joinParts (h : CanonicalParts neg ds fs) (scale : Nat) :
    magnitudeOf scale (joinParts neg ds fs) =
      decimalValue ds * 10 ^ scale + decimalValue fs * 10 ^ (scale - fs.length) := by
  obtain ⟨hint, hfrac⟩ := parts_joinParts h
  rw [magnitudeOf, countedPart, lastNonZero_joinParts h, hint, hfrac, decimalValue_dropWhile_zero h.integral,
    List.take_length]

end Parts

/-! ## The encoder's text -/

/-- The fractional digits of a printed value. -/
def printedFraction (scale : Nat) (v : Int) : List Byte := fractionBytes scale (v.natAbs % 10 ^ scale)

/-- The integral digits of a printed value. -/
def printedIntegral (scale : Nat) (v : Int) : List Byte := decimalBytes (v.natAbs / 10 ^ scale)

theorem mod_pow_lt (n scale : Nat) : n % 10 ^ scale < 10 ^ scale := Nat.mod_lt _ (by positivity)

theorem printedText_eq_joinParts (scale : Nat) (v : Int) :
    printedText scale v = joinParts (decide (v < 0)) (printedIntegral scale v) (printedFraction scale v) := by
  have hnil := fractionBytes_eq_nil_iff (mod_pow_lt v.natAbs scale)
  simp only [printedText, joinParts, printedIntegral, printedFraction, hnil, decide_eq_true_eq]
  rfl

theorem canonicalParts_printed (scale : Nat) (v : Int) :
    CanonicalParts (decide (v < 0)) (printedIntegral scale v) (printedFraction scale v) where
  ne_nil := decimalBytes_ne_nil _
  integral := fun _ => isDigit_of_mem_decimalBytes
  fraction := fun _ => isDigit_of_mem_fractionBytes
  head := by
    rw [printedIntegral, decimalBytes]
    split
    next => exact fun _ => rfl
    next => exact fun hhead => absurd hhead (head?_significantBytes_ne _)
  last := getLast?_fractionBytes_ne _ _
  notNegativeZero := by
    rintro ⟨hneg, hint, hfrac⟩
    have hquotient := congrArg decimalValue hint
    rw [printedIntegral, decimalValue_decimalBytes] at hquotient
    have hremainder := (fractionBytes_eq_nil_iff (mod_pow_lt v.natAbs scale)).1 hfrac
    have hvalue := Nat.div_add_mod v.natAbs (10 ^ scale)
    rw [hquotient, hremainder] at hvalue
    have hv : v < 0 := of_decide_eq_true hneg
    have hzero : decimalValue [0x30] = 0 := rfl
    rw [hzero, Nat.mul_zero] at hvalue
    omega

theorem canonical_printedText (scale : Nat) (v : Int) : Canonical (printedText scale v) :=
  canonical_iff.2 ⟨_, _, _, printedText_eq_joinParts scale v, canonicalParts_printed scale v⟩

theorem hasSign_printedText (scale : Nat) (v : Int) : hasSign (printedText scale v) = decide (v < 0) := by
  rw [printedText_eq_joinParts, hasSign_joinParts (canonicalParts_printed scale v)]

theorem magnitudeOf_printedText (scale : Nat) (v : Int) : magnitudeOf scale (printedText scale v) = v.natAbs := by
  rw [printedText_eq_joinParts, magnitudeOf_joinParts (canonicalParts_printed scale v), printedIntegral,
    printedFraction, decimalValue_decimalBytes, decimalValue_fractionBytes (mod_pow_lt _ _), Nat.mul_comm,
    Nat.div_add_mod]

/-- Reading a printed value at the same scale gives it back, however large it is. -/
theorem scaledValue_printedText (scale : Nat) (v : Int) : scaledValue scale (printedText scale v) = v := by
  simp only [scaledValue, magnitudeOf_printedText, hasSign_printedText, decide_eq_true_eq]
  split <;> omega

/-- A printed value of at most P digits is accepted at precision P. -/
theorem accepted_printedText {precision scale : Nat} (hle : scale ≤ precision) {v : Int}
    (hv : v.natAbs < 10 ^ precision) : Accepted precision scale (printedText scale v) := by
  have hparts := canonicalParts_printed scale v
  obtain ⟨hint, hfrac⟩ := parts_joinParts hparts
  have hquotient : v.natAbs / 10 ^ scale < 10 ^ (precision - scale) := by
    rwa [Nat.div_lt_iff_lt_mul (by positivity), ← pow_add, Nat.sub_add_cancel hle]
  rw [printedText_eq_joinParts, Accepted, countedPart, hint, hfrac, lastNonZero_joinParts hparts,
    ← significantBytes_decimalValue hparts.integral, printedIntegral, decimalValue_decimalBytes]
  exact ⟨hparts.integral, hparts.fraction, length_significantBytes_le hquotient,
    length_fractionBytes_le (mod_pow_lt _ _)⟩

/-- Printing the value of a canonical text gives the text back. -/
theorem printedText_scaledValue {scale : Nat} {t : List Byte} (ht : Canonical t)
    (hlast : lastNonZero t ≤ scale) : printedText scale (scaledValue scale t) = t := by
  obtain ⟨neg, ds, fs, rfl, h⟩ := canonical_iff.1 ht
  rw [lastNonZero_joinParts h] at hlast
  have hmag := magnitudeOf_joinParts h scale
  have hremainder : decimalValue fs * 10 ^ (scale - fs.length) < 10 ^ scale := by
    have hlt : decimalValue fs < 10 ^ fs.length := by
      rw [decimalValue_eq_digitsValue]
      exact digitsValue_lt fun c hc => by rw [← isDigit_eq_isSome_digitOf, h.fraction c hc]
    calc decimalValue fs * 10 ^ (scale - fs.length)
        < 10 ^ fs.length * 10 ^ (scale - fs.length) := Nat.mul_lt_mul_of_pos_right hlt (by positivity)
      _ = 10 ^ scale := by rw [← pow_add, Nat.add_sub_cancel' hlast]
  have habs : (scaledValue scale (joinParts neg ds fs)).natAbs = magnitudeOf scale (joinParts neg ds fs) := by
    unfold scaledValue
    split <;> omega
  have hint : printedIntegral scale (scaledValue scale (joinParts neg ds fs)) = ds := by
    rw [printedIntegral, habs, hmag, Nat.mul_comm, Nat.mul_add_div (by positivity), Nat.div_eq_of_lt hremainder,
      Nat.add_zero, decimalBytes_decimalValue h.ne_nil h.integral h.head]
  have hfrac : printedFraction scale (scaledValue scale (joinParts neg ds fs)) = fs := by
    rw [printedFraction, habs, hmag, Nat.mul_comm, Nat.mul_add_mod, Nat.mod_eq_of_lt hremainder,
      fractionBytes_decimalValue h.fraction h.last hlast]
  have hneg : decide (scaledValue scale (joinParts neg ds fs) < 0) = neg := by
    have hnonzero : neg = true → scaledValue scale (joinParts neg ds fs) ≠ 0 := by
      intro hsign hzero
      rw [hzero, printedIntegral, Int.natAbs_zero, Nat.zero_div] at hint
      rw [hzero, printedFraction, Int.natAbs_zero, Nat.zero_mod,
        (fractionBytes_eq_nil_iff (by positivity)).2 rfl] at hfrac
      exact h.notNegativeZero ⟨hsign, hint.symm, hfrac.symm⟩
    unfold scaledValue at hnonzero ⊢
    rw [hasSign_joinParts h] at hnonzero ⊢
    cases neg with
    | false => exact decide_eq_false (by simp)
    | true =>
      have hne := hnonzero rfl
      simp only [if_true] at hne ⊢
      exact decide_eq_true (by omega)
  rw [printedText_eq_joinParts, hint, hfrac, hneg]

/-! ## The two commands -/

/-- The signed operand of a codec of width W. -/
def signedOperand (w : CodecWidth) (a : DoubleWidth) : Int := signedOf w.bits (valueOf a % 2 ^ w.bits)

theorem signedOperand_w128 (a : DoubleWidth) : signedOperand .w128 a = signedOf 128 (valueOf a) := by
  rw [signedOperand, CodecWidth.bits, Nat.mod_eq_of_lt (valueOf_lt a)]

/-- A value that fits W bits is the signed operand of its 128-bit two's complement. -/
theorem signedOperand_ofInt {w : CodecWidth} {v : Int} (hlo : -2 ^ (w.bits - 1) ≤ v) (hhi : v < 2 ^ (w.bits - 1)) :
    signedOperand w (DoubleWidth.ofValue (BitVec.ofInt 128 v)) = v := by
  have hpos : 0 < w.bits := by cases w <;> decide
  have hlow := valueOf_sext128_mod w (BitVec.ofInt w.bits v).toNat
  rw [CodecWidth.modulus, Nat.mod_eq_of_lt (BitVec.ofInt w.bits v).isLt] at hlow
  rw [signedOperand, ← sext128_toNat_ofInt hlo hhi, hlow, signedOf_toNat hpos,
    BitVec.toInt_ofInt_eq_self hpos hlo hhi]

/-- A value of at most 38 digits is the signed value of its 128-bit two's complement. -/
theorem signedOf_ofInt {v : Int} (h : v.natAbs < 10 ^ 38) :
    signedOf 128 (valueOf (DoubleWidth.ofValue (BitVec.ofInt 128 v))) = v := by
  rw [← signedOperand_w128]
  exact signedOperand_ofInt (by simp only [CodecWidth.bits]; omega) (by simp only [CodecWidth.bits]; omega)

/-- At width 128 the signed operand is all of `A`. -/
theorem ofInt_signedOperand_w128 (a : DoubleWidth) :
    DoubleWidth.ofValue (BitVec.ofInt 128 (signedOperand .w128 a)) = a := by
  rw [signedOperand_w128, valueOf_eq_toNat_value, signedOf_toNat (by decide), BitVec.ofInt_toInt,
    DoubleWidth.ofValue_value]

theorem signedOf_injOn {bits m n : Nat} (hm : m < 2 ^ bits) (hn : n < 2 ^ bits)
    (h : signedOf bits m = signedOf bits n) : m = n := by
  have hmod : (m : Int) ≡ n [ZMOD 2 ^ bits] :=
    (signedOf_modEq bits m).symm.trans (h ▸ signedOf_modEq bits n)
  exact Nat.ModEq.eq_of_lt_of_lt (Int.natCast_modEq_iff.1 (by exact_mod_cast hmod)) hm hn

/-- A DEC command that succeeds was in its domain and its text was accepted. -/
theorem accepted_of_finish_decCommand {w : CodecWidth} {precision scale : Nat} {s t : State}
    (h : s.finish (decCommand w precision scale s) = .next t) (hok : t.status.err = 0) :
    scale ≤ precision ∧ precision ≤ w.pmax ∧ Accepted precision scale (textOf s) ∧
      t = succeeded s (DoubleWidth.ofValue (BitVec.ofInt 128 (scaledValue scale (textOf s)))) := by
  by_cases hout : precision < scale ∨ w.pmax < precision ∨ s.cfg.lmax < s.tlen.toNat
  · rw [finish_decCommand_of_out hout] at h
    cases h
    rw [faulted_err] at hok
    exact absurd hok (by decide)
  obtain ⟨hle, hp, hl⟩ : scale ≤ precision ∧ precision ≤ w.pmax ∧ s.tlen.toNat ≤ s.cfg.lmax := by omega
  by_cases ht : s.tlen = 0
  · rw [finish_decCommand_of_empty hle hp hl ht] at h
    cases h
    rw [faulted_err] at hok
    exact absurd hok (by decide)
  by_cases haccepted : Accepted precision scale (textOf s)
  · rw [finish_decCommand_of_accepted hle hp hl ht haccepted] at h
    cases h
    exact ⟨hle, hp, haccepted, rfl⟩
  · obtain ⟨pos, c, hc, hbefore, hafter, hfault⟩ := finish_decCommand_of_not_accepted hle hp hl ht haccepted
    rw [hfault] at h
    cases h
    have hmem := (textFault_faultAt hc hbefore (hafter (pos + 1) (Nat.lt_succ_self pos))).err_mem
    rw [hok] at hmem
    exact absurd hmem (by decide)

/-- All that an ENC command in its domain answers: the printed operand, of at most D + 2 bytes. -/
theorem printed_of_finish_encCommand {w : CodecWidth} {scale : Nat} {s t : State} (hs : scale ≤ w.pmax)
    (h : s.finish (encCommand w scale s) = .next t) :
    Printed s t (printedText scale (signedOperand w s.a)) ∧ 1 ≤ t.tlen.toNat ∧
      t.tlen.toNat ≤ w.maxDigits + 2 ∧ t.cfg = s.cfg := by
  obtain ⟨u, hu, hprinted⟩ := finish_encCommand_of_le s hs
  cases hu.symm.trans h
  have ⟨hstate, hlen, htext⟩ := hprinted
  obtain ⟨text, henc, hmin, hmax, -⟩ := encodeText_ok w hs (w.operand_lt s.a)
  rw [encodeText_eq_printedText hs (w.operand_lt s.a), operand_eq_valueOf_mod] at henc
  cases henc
  exact ⟨hprinted, by omega, by omega, by rw [hstate]⟩

end Sys2Proof.Machine
end

section
/-! The statements on encoded text, and on decoding and encoding one after the other (`43_encoder.md`
section 4). -/

namespace Sys2Proof.Machine

open Sys2Proof.Spec

theorem canonical_of_finish_encCommand {w : CodecWidth} {scale : Nat} {s t : State} (hs : scale ≤ w.pmax)
    (h : s.finish (encCommand w scale s) = .next t) :
    Canonical (textOf t) ∧ (hasSign (textOf t) = true ↔ signedOperand w s.a < 0) := by
  obtain ⟨⟨-, -, htext⟩, -⟩ := printed_of_finish_encCommand hs h
  rw [htext, hasSign_printedText, decide_eq_true_eq]
  exact ⟨canonical_printedText _ _, Iff.rfl⟩

/-- Settles O30: the parts of a printed value are canonical. -/
theorem encodedTextIsCanonical : Obligations.EncodedTextIsCanonical := by
  refine fun s t scale => ⟨fun hs h => canonical_of_finish_encCommand (w := .w32) hs h, fun hs h => ?_⟩
  rw [← signedOperand_w128]
  exact canonical_of_finish_encCommand (w := .w128) hs h

/-- Settles O31: a magnitude has at most 10 or 39 digits, and LMAX is at least 48. -/
theorem encodedLengthIsBounded : Obligations.EncodedLengthIsBounded := by
  refine fun s t scale => ⟨fun hs h => ?_, fun hs h => ?_⟩
  · obtain ⟨-, hmin, hmax, -⟩ := printed_of_finish_encCommand (w := .w32) hs h
    exact ⟨hmin, hmax, hmax.trans (encoderText_le_lmax .w32 t.cfg)⟩
  · obtain ⟨-, hmin, hmax, -⟩ := printed_of_finish_encCommand (w := .w128) hs h
    exact ⟨hmin, hmax, hmax.trans (encoderText_le_lmax .w128 t.cfg)⟩

/-- Decoding what the encoder of the same width printed delivers the operand, sign-extended. -/
theorem finish_decCommand_of_encCommand {w : CodecWidth} {precision scale : Nat} {s : State}
    (hle : scale ≤ precision) (hp : precision ≤ w.pmax) (hv : (signedOperand w s.a).natAbs < 10 ^ precision) :
    ∃ t, s.finish (encCommand w scale s) = .next t ∧ t.finish (decCommand w precision scale t) =
      .next (succeeded t (DoubleWidth.ofValue (BitVec.ofInt 128 (signedOperand w s.a)))) := by
  obtain ⟨t, ht, -⟩ := finish_encCommand_of_le s (hle.trans hp)
  obtain ⟨⟨-, -, htext⟩, hmin, hmax, hcfg⟩ := printed_of_finish_encCommand (hle.trans hp) ht
  refine ⟨t, ht, ?_⟩
  have htlen : t.tlen ≠ 0 := by
    intro h0
    rw [h0] at hmin
    exact Nat.not_succ_le_zero 0 hmin
  rw [finish_decCommand_of_accepted hle hp (hmax.trans (encoderText_le_lmax w t.cfg)) htlen
    (htext ▸ accepted_printedText hle hv), htext, scaledValue_printedText]

/-- Settles O33: a printed value of at most P digits is accepted, and its scaled value is the value. -/
theorem decodeOfEncodedValueIsTheValue : Obligations.DecodeOfEncodedValueIsTheValue := by
  refine fun s precision scale hle => ⟨fun hp hv => ?_, fun hp hv => ?_⟩
  · obtain ⟨t, henc, hdec⟩ := finish_decCommand_of_encCommand (w := .w32) hle hp hv
    have hsmall : (signedOperand .w32 s.a).natAbs < 10 ^ 38 :=
      hv.trans_le (Nat.pow_le_pow_right (by omega) (hp.trans (by decide)))
    exact ⟨t, _, henc, hdec, rfl, signedOf_ofInt hsmall⟩
  · rw [← signedOperand_w128] at hv
    obtain ⟨t, henc, hdec⟩ := finish_decCommand_of_encCommand (w := .w128) hle hp hv
    exact ⟨t, _, henc, hdec, rfl, ofInt_signedOperand_w128 s.a⟩

/-- Encoding what the decoder of the same width delivered from a canonical text gives the text back. -/
theorem finish_encCommand_of_decCommand {w : CodecWidth} {precision scale : Nat} {s t : State}
    (hcanonical : Canonical (textOf s)) (h : s.finish (decCommand w precision scale s) = .next t)
    (hok : t.status.err = 0) :
    ∃ u, State.finish { t with a := t.r } (encCommand w scale { t with a := t.r }) = .next u ∧
      textOf u = textOf s := by
  obtain ⟨hle, hp, haccepted, ht⟩ := accepted_of_finish_decCommand h hok
  obtain ⟨hlo, hhi⟩ := scaledValue_bounds hle hp haccepted
  have ⟨_, _, _, hlast⟩ := haccepted
  obtain ⟨u, hu, -, -, htext⟩ := finish_encCommand_of_le { t with a := t.r } (hle.trans hp)
  refine ⟨u, hu, ?_⟩
  have hr : t.r = DoubleWidth.ofValue (BitVec.ofInt 128 (scaledValue scale (textOf s))) := by rw [ht]; rfl
  have hoperand : signedOperand w t.r = scaledValue scale (textOf s) := by
    rw [hr, signedOperand_ofInt hlo hhi]
  rw [htext, ← printedText_scaledValue hcanonical hlast, ← hoperand]
  rfl

/-- Settles O34: at both widths, the text of a canonical value is determined by the value. -/
theorem encodeOfDecodedTextIsTheText : Obligations.EncodeOfDecodedTextIsTheText :=
  fun _ _ _ _ hcanonical =>
    ⟨finish_encCommand_of_decCommand (w := .w32) hcanonical,
      finish_encCommand_of_decCommand (w := .w128) hcanonical⟩

/-- Equal texts of one encoder at one scale are texts of equal operands. -/
theorem valueOf_mod_eq_of_textOf_eq {w : CodecWidth} {scale : Nat} {s s' t t' : State} (hs : scale ≤ w.pmax)
    (htext : textOf t = textOf t') (h : s.finish (encCommand w scale s) = .next t)
    (h' : s'.finish (encCommand w scale s') = .next t') :
    valueOf s.a % 2 ^ w.bits = valueOf s'.a % 2 ^ w.bits := by
  obtain ⟨⟨-, -, hprinted⟩, -⟩ := printed_of_finish_encCommand hs h
  obtain ⟨⟨-, -, hprinted'⟩, -⟩ := printed_of_finish_encCommand hs h'
  have hvalue := congrArg (scaledValue scale) htext
  rw [hprinted, hprinted', scaledValue_printedText, scaledValue_printedText] at hvalue
  exact signedOf_injOn (Nat.mod_lt _ (Nat.two_pow_pos _)) (Nat.mod_lt _ (Nat.two_pow_pos _)) hvalue

/-- Settles O35: the scaled value of a text is the signed operand, which determines the operand. -/
theorem encodingIsInjective : Obligations.EncodingIsInjective := by
  refine fun s s' t t' scale htext => ⟨fun hs h h' => valueOf_mod_eq_of_textOf_eq (w := .w32) hs htext h h',
    fun hs h h' => valueOf_injective ?_⟩
  have hmod := valueOf_mod_eq_of_textOf_eq (w := .w128) hs htext h h'
  rwa [CodecWidth.bits, Nat.mod_eq_of_lt (valueOf_lt _), Nat.mod_eq_of_lt (valueOf_lt _)] at hmod

end Sys2Proof.Machine
end
